-- ==== Sys2Proof/Word.lean ====
section
/-! DEFINITION. The words of the core: bus words, limbs and command words of 32 bits, bytes, register
numbers of 5 bits, offsets of 14 bits (rules R7, R46, R71, R72). -/

namespace Sys2Proof

/-- A 32-bit word: a bus word, a command word or a limb (rules R5, R46, R71). -/
abbrev Word := BitVec 32

/-- A byte of the buffer, `BUFLEN` or `ERRCODE` (rules R21, R22, R26). -/
abbrev Byte := BitVec 8

/-- The number of a BigInteger register, or of the lowest register of a point (rules R14, R72). -/
abbrev RegIdx := BitVec 5

/-- A byte offset in the core's window of 16 KiB (rule R46). -/
abbrev Offset := BitVec 14

end Sys2Proof
end

