-- ==== Sys2Proof/Syntax.lean ====
section
/-! DEFINITION. The 25 commands of the core (rule R75, spec/opcode_table.json), one constructor each.
A field that names a single register, a Jacobian base or an affine base is a register number; which of
the three it is depends on the command (rule R75) and is checked in WellFormed. -/

namespace Sys2Proof

/-- The scheme selector `cv` of a command: 0 is P256, 1 is P384 (rules R27, R72). The encodings 2 and
3 select nothing: the decoder answers the verdict *unsupported scheme* for them (rule R79). -/
inductive Scheme where
  | p256
  | p384
  deriving DecidableEq, Repr

/-- The constant selector `sel` of `LDC`: 0 to 5 (rules R74, R96). 6 and 7 are illegal. -/
inductive CurveConst where
  | a
  | b
  | p
  | gx
  | gy
  | n
  deriving DecidableEq, Repr

/-- A command with its operands (rules R73, R75). -/
inductive Instr where
  /-- `LDI rd, #imm16` (rule R92) -/
  | ldi (rd : RegIdx) (imm : BitVec 16)
  /-- `LDBE rd` (rule R93) -/
  | ldbe (rd : RegIdx)
  /-- `STBE ra` (rule R94) -/
  | stbe (ra : RegIdx)
  /-- `MOV rd, ra` (rule R95) -/
  | mov (rd ra : RegIdx)
  /-- `LDC rd, scheme.sel` (rule R96) -/
  | ldc (rd : RegIdx) (cv : Scheme) (sel : CurveConst)
  /-- `ADD rd, ra, rb` (rule R97) -/
  | add (rd ra rb : RegIdx)
  /-- `SUB rd, ra, rb` (rule R99) -/
  | sub (rd ra rb : RegIdx)
  /-- `MUL rd, ra, rb` (rule R101) -/
  | mul (rd ra rb : RegIdx)
  /-- `CMP ra, rb` (rule R103) -/
  | cmp (ra rb : RegIdx)
  /-- `LSH rd, ra, #sh` (rule R104) -/
  | lsh (rd ra : RegIdx) (sh : BitVec 5)
  /-- `RSH rd, ra, #sh` (rule R105) -/
  | rsh (rd ra : RegIdx) (sh : BitVec 5)
  /-- `DIV rd, ra, rb` (rule R107) -/
  | div (rd ra rb : RegIdx)
  /-- `MOD rd, ra, rb` (rule R109) -/
  | mod (rd ra rb : RegIdx)
  /-- `INV rd, ra, rb`: `rb` is the modulus (rule R111) -/
  | inv (rd ra rb : RegIdx)
  /-- `MULMOD rd, ra, rb, rc`: `rc` is the modulus (rule R131) -/
  | mulmod (rd ra rb rc : RegIdx)
  /-- `MODP rd, ra, scheme` (rule R133) -/
  | modp (rd ra : RegIdx) (cv : Scheme)
  /-- `JDBL rd, ra, scheme`: two Jacobian bases (rule R144) -/
  | jdbl (rd ra : RegIdx) (cv : Scheme)
  /-- `JADD rd, ra, rb, scheme`: three Jacobian bases (rule R146) -/
  | jadd (rd ra rb : RegIdx) (cv : Scheme)
  /-- `JMUL rd, ra, rb, scheme`: `rd`, `ra` Jacobian bases, `rb` the scalar (rule R149) -/
  | jmul (rd ra rb : RegIdx) (cv : Scheme)
  /-- `FROMJ rd, ra, scheme`: `rd` an affine base, `ra` a Jacobian base (rule R152) -/
  | fromj (rd ra : RegIdx) (cv : Scheme)
  /-- `PMUL rd, ra, rb, scheme`: `rd`, `ra` affine bases, `rb` the scalar (rule R153) -/
  | pmul (rd ra rb : RegIdx) (cv : Scheme)
  /-- `PADD rd, ra, rb, scheme`: three affine bases (rule R171) -/
  | padd (rd ra rb : RegIdx) (cv : Scheme)
  /-- `PDBL rd, ra, scheme`: two affine bases (rule R169) -/
  | pdbl (rd ra : RegIdx) (cv : Scheme)
  /-- `PMULTI rd, ra, rb, scheme`: `rd`, `ra` affine bases, `rb` the scalar (rule R173) -/
  | pmulti (rd ra rb : RegIdx) (cv : Scheme)
  /-- `SHAMIR rd, ra, rb, rc, scheme`: `rd`, `rc` affine bases, `ra`, `rb` the scalars (rule R175) -/
  | shamir (rd ra rb rc : RegIdx) (cv : Scheme)
  deriving DecidableEq, Repr

end Sys2Proof
end

