-- ==== Sys2Proof/WellFormed.lean ====
section
/-! DEFINITION. The checks on a command's operands that its fields' widths do not make: the point base
limits of rule R76. (`sel` 6 and 7 and `cv` 2 and 3 cannot be written as an `Instr` at all.) -/

namespace Sys2Proof

/-- A Jacobian base: `b <= 29`, so that `b + 2 <= 31` (rule R76). -/
def jacobianBase (b : RegIdx) : Bool := b.toNat ≤ 29

/-- An affine base: `b <= 30`, so that `b + 1 <= 31` (rule R76). -/
def affineBase (b : RegIdx) : Bool := b.toNat ≤ 30

/-- A command's point bases are within their limits (rules R75, R76). -/
def Instr.wellFormed : Instr → Bool
  | .ldi _ _ => true
  | .ldbe _ => true
  | .stbe _ => true
  | .mov _ _ => true
  | .ldc _ _ _ => true
  | .add _ _ _ => true
  | .sub _ _ _ => true
  | .mul _ _ _ => true
  | .cmp _ _ => true
  | .lsh _ _ _ => true
  | .rsh _ _ _ => true
  | .div _ _ _ => true
  | .mod _ _ _ => true
  | .inv _ _ _ => true
  | .mulmod _ _ _ _ => true
  | .modp _ _ _ => true
  | .jdbl rd ra _ => jacobianBase rd && jacobianBase ra
  | .jadd rd ra rb _ => jacobianBase rd && jacobianBase ra && jacobianBase rb
  | .jmul rd ra _ _ => jacobianBase rd && jacobianBase ra
  | .fromj rd ra _ => affineBase rd && jacobianBase ra
  | .pmul rd ra _ _ => affineBase rd && affineBase ra
  | .padd rd ra rb _ => affineBase rd && affineBase ra && affineBase rb
  | .pdbl rd ra _ => affineBase rd && affineBase ra
  | .pmulti rd ra _ _ => affineBase rd && affineBase ra
  | .shamir rd _ _ rc _ => affineBase rd && affineBase rc

end Sys2Proof
end

