-- ==== Sys2Proof/Decode.lean ====
section
/-! DEFINITION. The decoder of command words (rules R71 to R80), total on every 32-bit word, and after
it the encoder. `decodeTableWord` is the decoder on an opcode table row's bits. -/

namespace Sys2Proof

/-- Why a word is illegal (rule R189). All four raise `ILLEGAL_COMMAND`. -/
inductive Illegal where
  /-- `op` is none of the 25 opcodes (rule R78) -/
  | reservedOpcode
  /-- a must-be-zero bit is set (rule R77) -/
  | reservedBits
  /-- a Jacobian base above 29 or an affine base above 30 (rule R76) -/
  | pointBase
  /-- `LDC` with `sel` 6 or 7 (rule R74) -/
  | constSelector
  deriving DecidableEq, Repr

/-- What a word decodes to: exactly one of a command, *illegal*, *unsupported scheme* (rule R80). -/
inductive Verdict where
  | command (i : Instr)
  | illegal (why : Illegal)
  | unsupportedScheme
  deriving DecidableEq, Repr

/-! ### Fields (rules R72, R74) -/

/-- `op = word[31:24]`. -/
def fieldOp (w : Word) : BitVec 8 := w.extractLsb' 24 8

/-- `rd = word[23:19]`. -/
def fieldRd (w : Word) : RegIdx := w.extractLsb' 19 5

/-- `ra = word[18:14]`. -/
def fieldRa (w : Word) : RegIdx := w.extractLsb' 14 5

/-- `rb = word[13:9]`. -/
def fieldRb (w : Word) : RegIdx := w.extractLsb' 9 5

/-- `rc = word[8:4]`. -/
def fieldRc (w : Word) : RegIdx := w.extractLsb' 4 5

/-- `cv = word[3:2]`. -/
def fieldCv (w : Word) : BitVec 2 := w.extractLsb' 2 2

/-- `imm16 = word[18:3]`. -/
def fieldImm16 (w : Word) : BitVec 16 := w.extractLsb' 3 16

/-- `sh = word[13:9]`. -/
def fieldSh (w : Word) : BitVec 5 := w.extractLsb' 9 5

/-- `sel = word[6:4]`. -/
def fieldSel (w : Word) : BitVec 3 := w.extractLsb' 4 3

/-! ### The must-be-zero bits of each format (rules R73, R77): every bit outside `op` and the used
fields. -/

def mbzI16 : Word := 0x00000007
def mbzR1D : Word := 0x0007FFFF
def mbzR1A : Word := 0x00F83FFF
def mbzR2  : Word := 0x00003FFF
def mbzR2C : Word := 0x00F801FF
def mbzR3  : Word := 0x000001FF
def mbzSH  : Word := 0x000001FF
def mbzR4  : Word := 0x0000000F
def mbzC1  : Word := 0x0007FF83
def mbzC2  : Word := 0x00003FF3
def mbzC3  : Word := 0x000001F3
def mbzC4  : Word := 0x00000003

/-! ### The steps of decoding, in the order of rule R80 -/

/-- A set must-be-zero bit makes the word illegal (rule R77). -/
def checkZero (mbz w : Word) (v : Verdict) : Verdict :=
  if w &&& mbz = 0 then v else .illegal .reservedBits

/-- A point base out of range makes the word illegal (rule R76). -/
def checkBases (ok : Bool) (v : Verdict) : Verdict :=
  if ok then v else .illegal .pointBase

/-- The scheme a `cv` field selects, if any (rules R27, R79). -/
def schemeOf (cv : BitVec 2) : Option Scheme :=
  match cv.toNat with
  | 0 => some .p256
  | 1 => some .p384
  | _ => none

/-- The constant a `sel` field selects, if any (rule R74). -/
def constOf (sel : BitVec 3) : Option CurveConst :=
  match sel.toNat with
  | 0 => some .a
  | 1 => some .b
  | 2 => some .p
  | 3 => some .gx
  | 4 => some .gy
  | 5 => some .n
  | _ => none

/-- The last check: `cv` 2 and 3 select no scheme (rule R79). -/
def withScheme (w : Word) (k : Scheme → Instr) : Verdict :=
  match schemeOf (fieldCv w) with
  | some cv => .command (k cv)
  | none => .unsupportedScheme

/-- `LDC`: the selector is checked before the scheme (rules R79, R80). -/
def decodeLdc (w : Word) : Verdict :=
  match constOf (fieldSel w) with
  | some sel => withScheme w fun cv => .ldc (fieldRd w) cv sel
  | none => .illegal .constSelector

/-- The verdict on a command word (rule R80). -/
def decode (w : Word) : Verdict :=
  let rd := fieldRd w
  let ra := fieldRa w
  let rb := fieldRb w
  let rc := fieldRc w
  match (fieldOp w).toNat with
  | 0x01 => checkZero mbzI16 w (.command (.ldi rd (fieldImm16 w)))
  | 0x02 => checkZero mbzR1D w (.command (.ldbe rd))
  | 0x03 => checkZero mbzR1A w (.command (.stbe ra))
  | 0x04 => checkZero mbzR2 w (.command (.mov rd ra))
  | 0x05 => checkZero mbzC1 w (decodeLdc w)
  | 0x10 => checkZero mbzR3 w (.command (.add rd ra rb))
  | 0x11 => checkZero mbzR3 w (.command (.sub rd ra rb))
  | 0x12 => checkZero mbzR3 w (.command (.mul rd ra rb))
  | 0x13 => checkZero mbzR2C w (.command (.cmp ra rb))
  | 0x14 => checkZero mbzSH w (.command (.lsh rd ra (fieldSh w)))
  | 0x15 => checkZero mbzSH w (.command (.rsh rd ra (fieldSh w)))
  | 0x16 => checkZero mbzR3 w (.command (.div rd ra rb))
  | 0x17 => checkZero mbzR3 w (.command (.mod rd ra rb))
  | 0x18 => checkZero mbzR3 w (.command (.inv rd ra rb))
  | 0x20 => checkZero mbzR4 w (.command (.mulmod rd ra rb rc))
  | 0x21 => checkZero mbzC2 w (withScheme w fun cv => .modp rd ra cv)
  | 0x30 => checkZero mbzC2 w (checkBases (jacobianBase rd && jacobianBase ra)
              (withScheme w fun cv => .jdbl rd ra cv))
  | 0x31 => checkZero mbzC3 w (checkBases (jacobianBase rd && jacobianBase ra && jacobianBase rb)
              (withScheme w fun cv => .jadd rd ra rb cv))
  | 0x32 => checkZero mbzC3 w (checkBases (jacobianBase rd && jacobianBase ra)
              (withScheme w fun cv => .jmul rd ra rb cv))
  | 0x33 => checkZero mbzC2 w (checkBases (affineBase rd && jacobianBase ra)
              (withScheme w fun cv => .fromj rd ra cv))
  | 0x34 => checkZero mbzC3 w (checkBases (affineBase rd && affineBase ra)
              (withScheme w fun cv => .pmul rd ra rb cv))
  | 0x40 => checkZero mbzC3 w (checkBases (affineBase rd && affineBase ra && affineBase rb)
              (withScheme w fun cv => .padd rd ra rb cv))
  | 0x41 => checkZero mbzC2 w (checkBases (affineBase rd && affineBase ra)
              (withScheme w fun cv => .pdbl rd ra cv))
  | 0x42 => checkZero mbzC3 w (checkBases (affineBase rd && affineBase ra)
              (withScheme w fun cv => .pmulti rd ra rb cv))
  | 0x43 => checkZero mbzC4 w (checkBases (affineBase rd && affineBase rc)
              (withScheme w fun cv => .shamir rd ra rb rc cv))
  | _ => .illegal .reservedOpcode

/-! ### The encoder, from the same tables (rules R72 to R75) -/

/-- The `cv` field of a scheme. -/
def Scheme.bits : Scheme → BitVec 2
  | .p256 => 0
  | .p384 => 1

/-- The `sel` field of a constant. -/
def CurveConst.bits : CurveConst → BitVec 3
  | .a => 0
  | .b => 1
  | .p => 2
  | .gx => 3
  | .gy => 4
  | .n => 5

/-- `op ‖ rd ‖ ra ‖ rb ‖ rc ‖ cv ‖ z`, the fields of every format but `I16` (rule R72). -/
def packFields (op : BitVec 8) (rd ra rb rc : RegIdx) (cv : BitVec 2) : Word :=
  op ++ rd ++ ra ++ rb ++ rc ++ cv ++ 0#2

/-- The command word of a command (rules R72, R75). -/
def encode : Instr → Word
  | .ldi rd imm => (0x01#8) ++ rd ++ imm ++ 0#3
  | .ldbe rd => packFields 0x02 rd 0 0 0 0
  | .stbe ra => packFields 0x03 0 ra 0 0 0
  | .mov rd ra => packFields 0x04 rd ra 0 0 0
  | .ldc rd cv sel => packFields 0x05 rd 0 0 (0#2 ++ sel.bits) cv.bits
  | .add rd ra rb => packFields 0x10 rd ra rb 0 0
  | .sub rd ra rb => packFields 0x11 rd ra rb 0 0
  | .mul rd ra rb => packFields 0x12 rd ra rb 0 0
  | .cmp ra rb => packFields 0x13 0 ra rb 0 0
  | .lsh rd ra sh => packFields 0x14 rd ra sh 0 0
  | .rsh rd ra sh => packFields 0x15 rd ra sh 0 0
  | .div rd ra rb => packFields 0x16 rd ra rb 0 0
  | .mod rd ra rb => packFields 0x17 rd ra rb 0 0
  | .inv rd ra rb => packFields 0x18 rd ra rb 0 0
  | .mulmod rd ra rb rc => packFields 0x20 rd ra rb rc 0
  | .modp rd ra cv => packFields 0x21 rd ra 0 0 cv.bits
  | .jdbl rd ra cv => packFields 0x30 rd ra 0 0 cv.bits
  | .jadd rd ra rb cv => packFields 0x31 rd ra rb 0 cv.bits
  | .jmul rd ra rb cv => packFields 0x32 rd ra rb 0 cv.bits
  | .fromj rd ra cv => packFields 0x33 rd ra 0 0 cv.bits
  | .pmul rd ra rb cv => packFields 0x34 rd ra rb 0 cv.bits
  | .padd rd ra rb cv => packFields 0x40 rd ra rb 0 cv.bits
  | .pdbl rd ra cv => packFields 0x41 rd ra 0 0 cv.bits
  | .pmulti rd ra rb cv => packFields 0x42 rd ra rb 0 cv.bits
  | .shamir rd ra rb rc cv => packFields 0x43 rd ra rb rc cv.bits

/-- The decoder on a row of the opcode table: a command is one 32-bit word (rule R71), so the row's
bits are the low bits of that word and the bits above them are zero. -/
def decodeTableWord (nbits w : Nat) : Option Instr :=
  if nbits ≤ 32 then
    match decode (BitVec.ofNat 32 (w % 2 ^ nbits)) with
    | .command i => some i
    | .illegal _ => none
    | .unsupportedScheme => none
  else none

/-! ### Each constructor's decoding, on the words of rule R81 and of 95_test_vectors.md section 2.1 -/

theorem decode_ldi : decode 0x01080018 = .command (.ldi 1 3) := by decide
theorem decode_ldbe : decode 0x02480000 = .command (.ldbe 9) := by decide
theorem decode_stbe : decode 0x03030000 = .command (.stbe 12) := by decide
theorem decode_mov : decode 0x04388000 = .command (.mov 7 2) := by decide
theorem decode_ldc : decode 0x05400054 = .command (.ldc 8 .p384 .n) := by decide
theorem decode_add : decode 0x10184400 = .command (.add 3 1 2) := by decide
theorem decode_sub : decode 0x11184400 = .command (.sub 3 1 2) := by decide
theorem decode_mul : decode 0x12731200 = .command (.mul 14 12 9) := by decide
theorem decode_cmp : decode 0x1304D800 = .command (.cmp 19 12) := by decide
theorem decode_lsh : decode 0x14107E00 = .command (.lsh 2 1 31) := by decide
theorem decode_rsh : decode 0x15104200 = .command (.rsh 2 1 1) := by decide
theorem decode_div : decode 0x16184400 = .command (.div 3 1 2) := by decide
theorem decode_mod : decode 0x17609000 = .command (.mod 12 2 8) := by decide
theorem decode_inv : decode 0x186A9000 = .command (.inv 13 10 8) := by decide
theorem decode_mulmod : decode 0x207B5C80 = .command (.mulmod 15 13 14 8) := by decide
theorem decode_modp : decode 0x2118C000 = .command (.modp 3 3 .p256) := by decide
theorem decode_jdbl : decode 0x30180000 = .command (.jdbl 3 0 .p256) := by decide
theorem decode_jadd : decode 0x3130C000 = .command (.jadd 6 3 0 .p256) := by decide
theorem decode_jmul : decode 0x32181204 = .command (.jmul 3 0 9 .p384) := by decide
theorem decode_fromj : decode 0x3330C000 = .command (.fromj 6 3 .p256) := by decide
theorem decode_pmul : decode 0x34101200 = .command (.pmul 2 0 9 .p256) := by decide
theorem decode_padd : decode 0x40200400 = .command (.padd 4 0 2 .p256) := by decide
theorem decode_pdbl : decode 0x41100004 = .command (.pdbl 2 0 .p384) := by decide
theorem decode_pmulti : decode 0x42201200 = .command (.pmulti 4 0 9 .p256) := by decide
theorem decode_shamir : decode 0x43F7FFE4 = .command (.shamir 30 31 31 30 .p384) := by decide

end Sys2Proof
end

