-- ==== Sys2Proof/Config.lean ====
section
/-! DEFINITION. The parameters of the core (rules R5, R6) at the defaults this hardware takes (DESIGN CHOICE, log 5),
and the shape of one table of the curve ROM (rule R27). The tables' values stand in
Machine/Curves.lean. -/

namespace Sys2Proof

/-- `NREG`: the number of BigInteger registers (rule R6). -/
abbrev Config.nreg : Nat := 32

/-- `LIMB_CAP`: the limbs of one register (rule R6). -/
abbrev Config.limbCap : Nat := 32

/-- `BUF_BYTES`: the bytes of the buffer, `4 * LIMB_CAP` (rule R6). -/
abbrev Config.bufBytes : Nat := 128

/-- One table of the curve ROM: the six constants of a scheme (rule R27). -/
structure CurveParams where
  /-- the coefficient `A` of the curve -/
  a  : Int
  /-- the coefficient `B` of the curve -/
  b  : Int
  /-- the field prime `P` -/
  p  : Int
  /-- the base point's `x` -/
  gx : Int
  /-- the base point's `y` -/
  gy : Int
  /-- the order `N` of the base point -/
  n  : Int
  deriving DecidableEq, Repr

end Sys2Proof
end

