-- ==== Sys2Proof/Machine/State.lean ====
section
/-! DEFINITION. The state of the core (rules R13 to R33), the reasons the model can stop, and the state
after reset. Plain data throughout. -/

namespace Sys2Proof.Machine

/-- A BigInteger register (rule R15): a sign, a limb count, and `LIMB_CAP` limbs, least significant
first. -/
structure BigInt where
  /-- the sign flag -/
  neg   : Bool
  /-- the number of limbs in use, 1 to 32 in every reachable state -/
  len   : Nat
  /-- `limb[0] .. limb[31]` -/
  limbs : Vector Word Config.limbCap
  deriving DecidableEq, Repr

/-- The canonical zero (rules R16, R33). -/
def BigInt.zero : BigInt :=
  { neg := false, len := 1, limbs := Vector.replicate Config.limbCap 0 }

/-- The byte buffer `BUF` (rule R21) as (index, byte) pairs in one canonical form: indices strictly
rising, no zero byte listed. An unlisted byte reads as `0x00`, its value after reset (rule R33). -/
abbrev Memory := List Host.Cell

/-- The three bits of `STATUS` (rule R25). Bits 31 to 3 read as zero and ignore writes, so they hold
nothing. -/
structure Status where
  /-- bit 0: a command is in progress -/
  busy : Bool
  /-- bit 1: a command finished without fault -/
  done : Bool
  /-- bit 2: a command faulted -/
  err  : Bool
  deriving DecidableEq, Repr

/-- The fault codes of the core (rule R188). Raising one is a next state (rule R187), no stop of the
model. -/
inductive FaultCode where
  | illegalCommand
  | unsupportedScheme
  | invalidLength
  | overflow
  | divisorNotPositive
  | modulusInvalid
  | notInvertible
  | negativeScalar
  deriving DecidableEq, Repr

/-- What can happen next (rules R46, R59, R216): a host transaction, the engine's turn, the reset
event. -/
inductive Event where
  /-- `HostRead32(addr)` -/
  | read (addr : Offset)
  /-- `HostWrite32(addr, data)` -/
  | write (addr : Offset) (data : Word)
  /-- the engine's turn: its one atomic step if `BUSY = 1`, nothing otherwise -/
  | engine
  /-- the reset event -/
  | reset
  deriving DecidableEq, Repr

/-- The port's answer to a host transaction (rule R46). -/
inductive Answer where
  /-- to an accepted write -/
  | ok
  /-- to an accepted read -/
  | data (w : Word)
  /-- to a refused transaction, which changes no state of the core -/
  | busError
  deriving DecidableEq, Repr

/-- The state: all that rule R13 lists, and after it two fields of the model's own (DESIGN CHOICE, logs 1 and 2). -/
structure State where
  /-- `R[0] .. R[31]` (rule R14) -/
  regs    : Vector BigInt Config.nreg
  /-- `BUF` (rule R21) -/
  buf     : Memory
  /-- `BUFLEN` (rule R22) -/
  buflen  : Byte
  /-- `CMD` (rule R23) -/
  cmd     : Word
  /-- the field `CMP` of `FLAGS`, a two's-complement number (rule R24) -/
  flags   : BitVec 2
  /-- `STATUS` (rule R25) -/
  status  : Status
  /-- `ERRCODE` (rule R26) -/
  errcode : Byte
  /-- the events still to come, next first: the order of host, engine and reset (DESIGN CHOICE, log 1) -/
  agenda  : List Event
  /-- the answers given to the host, newest first (DESIGN CHOICE, log 2) -/
  answers : List Answer
  deriving DecidableEq, Repr

/-- Why the model stops with a fault. -/
inductive Fault where
  /-- Raised by the engine's `MemRead` and `MemWrite` for a byte index outside 0 to 127, which does not
  exist and which rule R53 says cannot arise. Safe: the model stops where the spec gives no effect. -/
  | bufIndex
  deriving DecidableEq, Repr

/-- Why the model refuses. -/
inductive Refusal where
  /-- Raised by an arm of `exec` whose instruction has no meaning yet; no arm is left so. Safe: nothing
  follows from a refusal. -/
  | notModelled (mnemonic : String)
  deriving DecidableEq, Repr

/-- The machine right after reset (rule R33). -/
def State.reset : State :=
  { regs := Vector.replicate Config.nreg BigInt.zero
    buf := []
    buflen := 0
    cmd := 0
    flags := 0
    status := { busy := false, done := false, err := false }
    errcode := 0
    agenda := []
    answers := [] }

end Sys2Proof.Machine
end

