-- ==== Sys2Proof/Machine/Ops.lean ====
section
/-! DEFINITION. The named operations over the registers, the buffer and the control registers: the value
of a register and its canonical form (rules R15 to R18), the byte buffer (rules R9, R21, R53), the end
of a command (rule R226), taking a fault and clearing one (rules R187, R198). -/

namespace Sys2Proof.Machine

/-- What one step of the machine, or one meaning, answers. -/
abbrev Result := Host.Outcome State Fault Refusal

/-! ### Integers and registers (rules R7, R15 to R18) -/

/-- `bitlen(v)`, the number of bits of `v`, with `bitlen(0) = 0` (rule R7). -/
def bitlen (v : Nat) : Nat := if v = 0 then 0 else v.log2 + 1

/-- The value of limbs, least significant first: the sum of `limb[k] * 2^(32*k)` (rule R15). -/
def limbsValue : List Word → Nat
  | [] => 0
  | w :: ws => w.toNat + 2 ^ 32 * limbsValue ws

/-- `mag(R[i])`: the value of the first `len` limbs (rule R15). -/
def BigInt.mag (b : BigInt) : Nat := limbsValue (b.limbs.toList.take b.len)

/-- `val(R[i])` (rule R15). -/
def BigInt.val (b : BigInt) : Int := if b.neg then -(b.mag : Int) else b.mag

/-- A value fits a register: `|v| < 2^(32*LIMB_CAP)` (rules R16, R18). -/
def fits (v : Int) : Bool := v.natAbs < 2 ^ (32 * Config.limbCap)

/-- The register contents that rule R18 writes for `v`. -/
def BigInt.ofInt (v : Int) : BigInt :=
  { neg := v < 0
    len := max 1 ((bitlen v.natAbs + 31) / 32)
    limbs := Vector.ofFn fun k => BitVec.ofNat 32 (v.natAbs / 2 ^ (32 * k.val)) }

/-- Canonical form, clauses (a), (b), (c) of rule R16, with the bounds of `len` of rule R15. -/
def BigInt.canonical (b : BigInt) : Bool :=
  (1 ≤ b.len && b.len ≤ Config.limbCap)
    && (b.len = 1 || b.limbs.toList.getD (b.len - 1) 0 ≠ 0)
    && (b.limbs.toList.drop b.len).all (fun w => w = 0)
    && (b.mag ≠ 0 || !b.neg)

/-- `R[i]`, as held. -/
def State.reg (s : State) (r : RegIdx) : BigInt := s.regs[r.toNat]'r.isLt

/-- `val(R[i])`: what a command reads (rule R9). -/
def State.val (s : State) (r : RegIdx) : Int := (s.reg r).val

/-- Replace the contents of `R[i]`. -/
def State.setReg (s : State) (r : RegIdx) (b : BigInt) : State :=
  { s with regs := s.regs.set r.toNat b r.isLt }

/-- Write several destinations together; the values are already computed (rules R10, R18). -/
def State.writeRegs (s : State) : List (RegIdx × Int) → State
  | [] => s
  | (r, v) :: ws => (s.setReg r (BigInt.ofInt v)).writeRegs ws

/-! ### The end of a command (rules R25, R187, R226) -/

/-- The number of a fault code (rule R188). -/
def FaultCode.code : FaultCode → Byte
  | .illegalCommand => 0x01
  | .unsupportedScheme => 0x02
  | .invalidLength => 0x03
  | .overflow => 0x04
  | .divisorNotPositive => 0x05
  | .modulusInvalid => 0x06
  | .notInvertible => 0x07
  | .negativeScalar => 0x08

/-- A command ends without fault: `DONE <- 1`, `BUSY <- 0` (rules R25, R226). -/
def State.finish (s : State) : State :=
  { s with status := { s.status with busy := false, done := true } }

/-- Fault entry (rule R187): `ERR <- 1`, `ERRCODE <- CODE`, `BUSY <- 0`; nothing else changes, `DONE`
stays as it is and `CMD` keeps the faulting word. -/
def State.faultEntry (s : State) (c : FaultCode) : State :=
  { s with status := { s.status with busy := false, err := true }, errcode := c.code }

/-- Return from a fault (rule R198): `ERR <- 0`, `ERRCODE <- 0`; nothing else changes. -/
def State.clearFault (s : State) : State :=
  { s with status := { s.status with err := false }, errcode := 0 }

/-- `raise Fault(CODE)` (rule R187). -/
def raise (s : State) (c : FaultCode) : Result := .next (s.faultEntry c)

/-- The end of a command that writes registers. It has computed its destination values, or found a
fault. The overflow test comes last and covers all destinations, so a command writes all of them or
nothing (rules R10, R18, R197, R226). -/
def commit (s : State) (r : Except FaultCode (List (RegIdx × Int))) : Result :=
  match r with
  | .error c => raise s c
  | .ok ws =>
    if ws.all (fun w => fits w.2) then .next (s.writeRegs ws).finish
    else raise s .overflow

/-- A command whose point bases are out of range is illegal, before anything else is looked at (rules
R76, R189, R197). The decoder answers so for the word; a meaning applied to such a command says the
same (DESIGN CHOICE, log 9). -/
def whenLegal (s : State) (legal : Bool) (r : Except FaultCode (List (RegIdx × Int))) : Result :=
  if legal then commit s r else raise s .illegalCommand

/-! ### The byte buffer (rules R9, R21, R53) -/

/-- The byte at an index. -/
def Memory.read : Memory → Nat → Byte
  | [], _ => 0
  | (a', b) :: m, a => if a = a' then b else Memory.read m a

/-- Write one byte, keeping the canonical form: indices rise, and a zero byte is not listed. -/
def Memory.write : Memory → Nat → Byte → Memory
  | [], a, b => if b = 0 then [] else [(a, b)]
  | (a', b') :: m, a, b =>
    if a < a' then (if b = 0 then (a', b') :: m else (a, b) :: (a', b') :: m)
    else if a = a' then (if b = 0 then m else (a, b) :: m)
    else (a', b') :: Memory.write m a b

/-- The canonical form: indices strictly rising and below `BUF_BYTES`, no zero byte listed. -/
abbrev Memory.wf (m : Memory) : Prop :=
  m.Pairwise (fun c d => c.1 < d.1) ∧ ∀ c ∈ m, c.1 < Config.bufBytes ∧ c.2 ≠ 0

/-- Write bytes at rising indices. -/
def Memory.writeBytes : Memory → Nat → List Byte → Memory
  | m, _, [] => m
  | m, k, b :: bs => Memory.writeBytes (m.write k b) (k + 1) bs

/-- The bytes at `n` rising indices. -/
def Memory.readBytes (m : Memory) (k n : Nat) : List Byte :=
  (List.range n).map fun i => m.read (k + i)

/-- `MemRead(k, n)`: the bytes `BUF[k] .. BUF[k+n-1]` (rule R9); an index outside 0 to 127 does not exist
(rule R53). -/
def memRead (m : Memory) (k n : Nat) : Except Fault (List Byte) :=
  if k + n ≤ Config.bufBytes then .ok (m.readBytes k n) else .error .bufIndex

/-- `MemWrite(k, n, v)`, the bytes given in index order (rule R9); an index outside 0 to 127 does not
exist (rule R53). -/
def memWrite (m : Memory) (k : Nat) (bs : List Byte) : Except Fault Memory :=
  if k + bs.length ≤ Config.bufBytes then .ok (m.writeBytes k bs) else .error .bufIndex

/-- The value of big-endian bytes: the sum of `b[k] * 256^(n-1-k)` (rules R52, R93). -/
def bytesValue (bs : List Byte) : Nat := bs.foldl (fun acc b => acc * 256 + b.toNat) 0

/-- The length of the minimal big-endian form of a magnitude: `max(1, ceil(bitlen(m) / 8))` (rule R94). -/
def byteLength (m : Nat) : Nat := max 1 ((bitlen m + 7) / 8)

/-- The minimal big-endian form of a magnitude: byte `k` is `floor(m / 256^(n-1-k)) mod 256` (rule R94). -/
def magnitudeBytes (m : Nat) : List Byte :=
  (List.range (byteLength m)).map fun k => BitVec.ofNat 8 (m / 256 ^ (byteLength m - 1 - k))

end Sys2Proof.Machine
end

