-- ==== Sys2Proof/Machine/Flags.lean ====
section
/-! DEFINITION. The flag computation of `CMP` (rules R24, R103), the derived properties of a register
(rule R17) and the words the host reads of them and of `STATUS`, `ERRCODE`, `FLAGS` (rules R24 to R26,
R50). -/

namespace Sys2Proof.Machine

/-- The field `CMP` for two signed values: -1, 0 or +1 as a 2-bit two's-complement number (rule R103). -/
def compareFlag (a b : Int) : BitVec 2 :=
  if a < b then 0b11 else if a = b then 0b00 else 0b01

/-- `is_zero` (rule R17). -/
def BigInt.isZero (b : BigInt) : Bool := b.val = 0

/-- `is_one`: exactly +1 (rule R17). -/
def BigInt.isOne (b : BigInt) : Bool := b.val = 1

/-- `is_even`: bit 0 of `limb[0]` is clear (rule R17). -/
def BigInt.isEven (b : BigInt) : Bool := !b.limbs[0].getLsbD 0

/-- `is_negative` (rule R17). -/
def BigInt.isNegative (b : BigInt) : Bool := b.val < 0

/-- One bit as a bit vector. -/
def flagBit (b : Bool) : BitVec 1 := if b then 1 else 0

/-- The header word (rule R50): `NEG`, `ZERO`, `ONE`, `EVEN`, twenty reserved zero bits, `LEN`. -/
def BigInt.header (b : BigInt) : Word :=
  flagBit b.isNegative ++ flagBit b.isZero ++ flagBit b.isOne ++ flagBit b.isEven ++ 0#20
    ++ BitVec.ofNat 8 b.len

/-- `STATUS` as read: `BUSY` bit 0, `DONE` bit 1, `ERR` bit 2, the rest zero (rule R25). -/
def Status.word (t : Status) : Word :=
  0#29 ++ flagBit t.err ++ flagBit t.done ++ flagBit t.busy

/-- `ERRCODE` as read: bits 31 to 8 are zero (rule R26). -/
def State.errcodeWord (s : State) : Word := 0#24 ++ s.errcode

/-- `FLAGS` as read: bits 31 to 2 are zero (rule R24). -/
def State.flagsWord (s : State) : Word := 0#30 ++ s.flags

end Sys2Proof.Machine
end

