-- ==== Sys2Proof/Machine/Bus.lean ====
section
/-! DEFINITION. The host's side: the address map (rule R48), the two transactions (rules R46 to R57), the
reset event (rule R216), and the order of events (DESIGN CHOICE, log 1). -/

namespace Sys2Proof.Machine

/-- The mapped locations of the host window (rule R48). -/
inductive Location where
  | cmd
  | status
  | errcode
  | flags
  | buflen
  /-- `BUFW[w]` -/
  | bufw (w : Nat)
  /-- `LIMB[r][k]` -/
  | limb (r : RegIdx) (k : Nat)
  /-- `HDR[r]` -/
  | hdr (r : RegIdx)
  deriving DecidableEq, Repr

/-- The location at a word-aligned offset of the register window, `0x1000` to `0x2FFF`: 256 bytes for
each register, 32 limbs and then the header (rules R48 to R50). -/
def registerLocation (a : Nat) : Option Location :=
  let r : RegIdx := BitVec.ofNat 5 ((a - 0x1000) / 0x100)
  let k := a % 0x100 / 4
  if k < 32 then some (.limb r k)
  else if k = 32 then some (.hdr r)
  else none

/-- The location at a word-aligned offset; unmapped offsets have none (rule R48). -/
def locationAt (a : Nat) : Option Location :=
  if a = 0x0000 then some .cmd
  else if a = 0x0004 then some .status
  else if a = 0x0008 then some .errcode
  else if a = 0x000C then some .flags
  else if a = 0x0010 then some .buflen
  else if 0x0100 ≤ a ∧ a < 0x0180 then some (.bufw ((a - 0x0100) / 4))
  else if 0x1000 ≤ a ∧ a < 0x3000 then registerLocation a
  else none

/-- The location a transaction reaches: the offset must be a multiple of 4 and mapped (rules R48, R53,
R54). -/
def locate (addr : Offset) : Option Location :=
  if addr.toNat % 4 = 0 then locationAt addr.toNat else none

/-- What may be read while a command runs (rule R57). -/
def Location.readableWhileBusy : Location → Bool
  | .cmd => true
  | .status => true
  | .errcode => true
  | .flags => true
  | .buflen => false
  | .bufw _ => false
  | .limb _ _ => false
  | .hdr _ => false

/-- Four buffer bytes in little-endian lanes (rule R51). -/
def bufWord (m : Memory) (w : Nat) : Word :=
  m.read (4 * w + 3) ++ m.read (4 * w + 2) ++ m.read (4 * w + 1) ++ m.read (4 * w)

/-- The four bytes of a bus word, lowest lane first (rule R51). -/
def wordBytes (d : Word) : List Byte :=
  [d.extractLsb' 0 8, d.extractLsb' 8 8, d.extractLsb' 16 8, d.extractLsb' 24 8]

/-- The word a location holds (rules R22 to R26, R49 to R51). -/
def State.wordAt (s : State) : Location → Word
  | .cmd => s.cmd
  | .status => s.status.word
  | .errcode => s.errcodeWord
  | .flags => s.flagsWord
  | .buflen => 0#24 ++ s.buflen
  | .bufw w => bufWord s.buf w
  | .limb r k => (s.reg r).limbs.toList.getD k 0
  | .hdr r => (s.reg r).header

/-- The port gives an answer. -/
def State.answer (s : State) (a : Answer) : State := { s with answers := a :: s.answers }

/-- `HostRead32(addr)`: no side effect but the answer (rules R46, R54, R56, R57). -/
def hostRead (addr : Offset) (s : State) : State :=
  match locate addr with
  | none => s.answer .busError
  | some l =>
    if s.status.busy && !l.readableWhileBusy then s.answer .busError
    else s.answer (.data (s.wordAt l))

/-- An accepted write to `CMD`: the word is latched, `BUSY <- 1`, `DONE <- 0` (rules R23, R226). -/
def State.startCommand (s : State) (w : Word) : State :=
  { s with cmd := w, status := { s.status with busy := true, done := false } }

/-- A write to `STATUS`: a 1 in bit 1 clears `DONE`, a 1 in bit 2 clears `ERR` and `ERRCODE`; the other
bits are ignored (rules R25, R56, R198). -/
def State.clearStatus (s : State) (d : Word) : State :=
  let s1 := if d.getLsbD 1 then { s with status := { s.status with done := false } } else s
  if d.getLsbD 2 then s1.clearFault else s1

/-- A write to a mapped location while no command runs; `none` where the host may not write (rules R55,
R56). -/
def State.writeLocation (s : State) (l : Location) (d : Word) : Option State :=
  match l with
  | .cmd => if s.status.err then none else some (s.startCommand d)
  | .status => some (s.clearStatus d)
  | .errcode => none
  | .flags => none
  | .buflen => some { s with buflen := d.extractLsb' 0 8 }
  | .bufw w => some { s with buf := s.buf.writeBytes (4 * w) (wordBytes d) }
  | .limb _ _ => none
  | .hdr _ => none

/-- `HostWrite32(addr, data)`: accepted, or `bus_error` with no other change (rules R46, R54 to R57). -/
def hostWrite (addr : Offset) (d : Word) (s : State) : State :=
  match locate addr with
  | none => s.answer .busError
  | some l =>
    if s.status.busy then s.answer .busError
    else
      match s.writeLocation l d with
      | none => s.answer .busError
      | some t => t.answer .ok

/-- The reset event: the state of rule R33, at any moment, also while a command runs (rules R216, R218).
What the host has still to do and what it was told are not the core's, and stay (DESIGN CHOICE, logs 1, 2). -/
def resetEvent (s : State) : State :=
  { State.reset with agenda := s.agenda, answers := s.answers }

/-- The next event, and the state without it. With nothing on the agenda it is the engine's turn (DESIGN CHOICE, log 1). -/
def nextEvent (s : State) : Event × State :=
  match s.agenda with
  | [] => (.engine, s)
  | e :: es => (e, { s with agenda := es })

/-- The state whose next step is the engine's step on a word: as after an accepted write of it to `CMD`
with no event waiting (DESIGN CHOICE, log 4). -/
def loadCommand (s : State) (w : Word) : State :=
  { s with
    cmd := w
    status := { busy := true, done := false, err := false }
    errcode := 0
    agenda := [] }

end Sys2Proof.Machine
end

