-- ==== Sys2Proof/Machine/Curves.lean ====
section
/-! DEFINITION. The curve ROM (rules R27 to R30): the tables of P256 and P384, each constant printed most
significant limb first in groups of 32 bits (UNVERIFIED, log 6). -/

namespace Sys2Proof.Machine

/-- `ROM(0)`, scheme P256 (rule R28). -/
def romP256 : CurveParams :=
  { a  := 0xFFFFFFFF_00000001_00000000_00000000_00000000_FFFFFFFF_FFFFFFFF_FFFFFFFC
    b  := 0x5AC635D8_AA3A93E7_B3EBBD55_769886BC_651D06B0_CC53B0F6_3BCE3C3E_27D2604B
    p  := 0xFFFFFFFF_00000001_00000000_00000000_00000000_FFFFFFFF_FFFFFFFF_FFFFFFFF
    gx := 0x6B17D1F2_E12C4247_F8BCE6E5_63A440F2_77037D81_2DEB33A0_F4A13945_D898C296
    gy := 0x4FE342E2_FE1A7F9B_8EE7EB4A_7C0F9E16_2BCE3357_6B315ECE_CBB64068_37BF51F5
    n  := 0xFFFFFFFF_00000000_FFFFFFFF_FFFFFFFF_BCE6FAAD_A7179E84_F3B9CAC2_FC632551 }

/-- `ROM(1)`, scheme P384 (rule R29). -/
def romP384 : CurveParams :=
  { a  := 0xFFFFFFFF_FFFFFFFF_FFFFFFFF_FFFFFFFF_FFFFFFFF_FFFFFFFF_FFFFFFFF_FFFFFFFE_FFFFFFFF_00000000_00000000_FFFFFFFC
    b  := 0xB3312FA7_E23EE7E4_988E056B_E3F82D19_181D9C6E_FE814112_0314088F_5013875A_C656398D_8A2ED19D_2A85C8ED_D3EC2AEF
    p  := 0xFFFFFFFF_FFFFFFFF_FFFFFFFF_FFFFFFFF_FFFFFFFF_FFFFFFFF_FFFFFFFF_FFFFFFFE_FFFFFFFF_00000000_00000000_FFFFFFFF
    gx := 0xAA87CA22_BE8B0537_8EB1C71E_F320AD74_6E1D3B62_8BA79B98_59F741E0_82542A38_5502F25D_BF55296C_3A545E38_72760AB7
    gy := 0x3617DE4A_96262C6F_5D9E98BF_9292DC29_F8F41DBD_289A147C_E9DA3113_B5F0B8C0_0A60B1CE_1D7E819D_7A431D7C_90EA0E5F
    n  := 0xFFFFFFFF_FFFFFFFF_FFFFFFFF_FFFFFFFF_FFFFFFFF_FFFFFFFF_C7634D81_F4372DDF_581A0DB2_48B0A77A_ECEC196A_CCC52973 }

/-- `ROM(cv)` (rule R27). -/
def rom : Scheme → CurveParams
  | .p256 => romP256
  | .p384 => romP384

/-- The field of a table that `sel` names (rules R28, R96). -/
def romConst (cv : Scheme) : CurveConst → Int
  | .a => (rom cv).a
  | .b => (rom cv).b
  | .p => (rom cv).p
  | .gx => (rom cv).gx
  | .gy => (rom cv).gy
  | .n => (rom cv).n

end Sys2Proof.Machine
end

