-- ==== Sys2Proof/Machine/Operands.lean ====
section
/-! DEFINITION. The operand forms of the commands (rules R9, R20, R74, R75): a single register is
`State.val`; here are the points, the immediates, and the destinations a command writes. -/

namespace Sys2Proof.Machine

/-- A Jacobian point `(X, Y, Z)` (rule R9). -/
structure JPoint where
  x : Int
  y : Int
  z : Int
  deriving DecidableEq, Repr

/-- An affine point `(x, y)` (rule R9). -/
structure APoint where
  x : Int
  y : Int
  deriving DecidableEq, Repr

/-- The Jacobian operand with base `b`: `(R[b], R[b+1], R[b+2])` (rules R9, R20). -/
def State.jacobian (s : State) (b : RegIdx) : JPoint :=
  { x := s.val b, y := s.val (b + 1), z := s.val (b + 2) }

/-- The affine operand with base `b`: `(R[b], R[b+1])` (rules R9, R20). -/
def State.affine (s : State) (b : RegIdx) : APoint :=
  { x := s.val b, y := s.val (b + 1) }

/-- The destinations of a Jacobian result (rules R20, R34). -/
def jacobianDest (b : RegIdx) (q : JPoint) : List (RegIdx × Int) :=
  [(b, q.x), (b + 1, q.y), (b + 2, q.z)]

/-- The destinations of an affine result (rules R20, R34). -/
def affineDest (b : RegIdx) (q : APoint) : List (RegIdx × Int) :=
  [(b, q.x), (b + 1, q.y)]

/-- `zext_16(imm16)` (rules R74, R92). -/
def immediate (imm : BitVec 16) : Int := imm.toNat

/-- `2^sh`, `sh` a count of bit positions 0 to 31 (rules R74, R104, R105). -/
def shiftFactor (sh : BitVec 5) : Nat := 2 ^ sh.toNat

end Sys2Proof.Machine
end

