-- ==== Sys2Proof/Machine/Points.lean ====
section
/-! DEFINITION. The arithmetic behind the modular and point commands: the inverse (rules R111, R112),
the field helpers (rule R135), the Jacobian functions (rules R141 to R151) and the affine ones (rules
R166 to R174). All over the integers; nothing wraps and no intermediate overflows (rules R7, R18). -/

namespace Sys2Proof.Machine

/-! ### The modular inversion engine -/

/-- The four running integers of the inversion engine (rule R112). -/
structure InvState where
  lm   : Int
  hm   : Int
  low  : Int
  high : Int
  deriving DecidableEq, Repr

/-- Their values before the first round (rule R112). -/
def invStart (a m : Int) : InvState := { lm := 1, hm := 0, low := a % m, high := m }

/-- One round: the quotient `r`, the new linear combination, and the swap of `low` and `high` (rule
R112). -/
def invRound (s : InvState) : InvState :=
  let r := s.high / s.low
  { lm := s.hm - s.lm * r, hm := s.lm, low := s.high - s.low * r, high := s.low }

/-- What every round keeps, for the operand `a` and the modulus `m` (rule R113). -/
structure InvState.Invariant (a m : Int) (s : InvState) : Prop where
  /-- `lm * a ≡ low (mod m)` -/
  low_eq  : s.lm * a ≡ s.low [ZMOD m]
  /-- `hm * a ≡ high (mod m)` -/
  high_eq : s.hm * a ≡ s.high [ZMOD m]
  /-- `gcd(low, high) = gcd(a mod m, m)` -/
  gcd_eq  : Int.gcd s.low s.high = Int.gcd (a % m) m
  /-- `0 <= low` -/
  nonneg  : 0 ≤ s.low
  /-- `low < high` -/
  lt      : s.low < s.high

/-- Rounds while `low > 1` (rule R112). `low` falls at every round (rule R113), so a fuel of its first
value is enough (DEDUCED, log 7). -/
def invLoop : Nat → InvState → InvState
  | 0, s => s
  | fuel + 1, s => if 1 < s.low then invLoop fuel (invRound s) else s

/-- The inverse of `a` modulo `m` (rules R111, R112): a modulus below 2 is checked first, then
invertibility (rule R197). -/
def modInverse (a m : Int) : Except FaultCode Int :=
  if m < 2 then .error .modulusInvalid
  else
    let s := invLoop (a % m).toNat (invStart a m)
    if s.low = 0 then .error .notInvertible else .ok (s.lm % m)

/-! ### The field of a scheme (rule R135) -/

/-- `modp(t)`: the Euclidean remainder by the field prime. -/
def modp (cv : Scheme) (t : Int) : Int := t % (rom cv).p

/-- `inv_p(t)`. -/
def invp (cv : Scheme) (t : Int) : Except FaultCode Int := modInverse t (rom cv).p

/-! ### Jacobian points -/

/-- `JINF`, the triple produced for the point at infinity (rule R141). -/
def jInf : JPoint := { x := 0, y := 0, z := 1 }

/-- `JDouble` (rule R143). -/
def jDouble (cv : Scheme) (q : JPoint) : JPoint :=
  if q.y = 0 then jInf
  else
    let ysq := modp cv (q.y * q.y)
    let s := modp cv (4 * q.x * ysq)
    let m := modp cv (3 * q.x * q.x + (rom cv).a * q.z ^ 4)
    let x3 := modp cv (m * m - 2 * s)
    { x := x3
      y := modp cv (m * (s - x3) - 8 * ysq * ysq)
      z := modp cv (2 * q.y * q.z) }

/-- The formula lines of `JAdd` (rule R145), for `U1 != U2`. -/
def jAddFormula (cv : Scheme) (z1 z2 u1 u2 s1 s2 : Int) : JPoint :=
  let h := u2 - u1
  let rr := s2 - s1
  let h2 := modp cv (h * h)
  let h3 := modp cv (h * h2)
  let u1h2 := modp cv (u1 * h2)
  let x3 := modp cv (rr * rr - h3 - 2 * u1h2)
  { x := x3
    y := modp cv (rr * (u1h2 - x3) - s1 * h3)
    z := modp cv (h * z1 * z2) }

/-- `JAdd` (rules R145, R147). -/
def jAdd (cv : Scheme) (q r : JPoint) : JPoint :=
  if q.y = 0 then r
  else if r.y = 0 then q
  else
    let u1 := modp cv (q.x * r.z * r.z)
    let u2 := modp cv (r.x * q.z * q.z)
    let s1 := modp cv (q.y * r.z ^ 3)
    let s2 := modp cv (r.y * q.z ^ 3)
    if u1 = u2 then
      if s1 ≠ s2 then jInf else jDouble cv q
    else jAddFormula cv q.z r.z u1 u2 s1 s2

/-- The recursion of `JMul` (rule R148) on a scalar in range; the scalar halves at every call, so a fuel
of its bit length is enough (DEDUCED, log 7). -/
def jMulRec (cv : Scheme) (q : JPoint) : Nat → Nat → JPoint
  | 0, _ => jInf
  | fuel + 1, n =>
    if n = 0 ∨ q.y = 0 then jInf
    else if n = 1 then q
    else
      let h := jDouble cv (jMulRec cv q fuel (n / 2))
      if n % 2 = 0 then h else jAdd cv h q

/-- The range reduction of `JMul`'s first line (rule R148). -/
def reduceScalar (cv : Scheme) (n : Int) : Nat :=
  (if n < 0 ∨ (rom cv).n ≤ n then n % (rom cv).n else n).toNat

/-- `JMul` (rule R148). -/
def jMul (cv : Scheme) (q : JPoint) (n : Int) : JPoint :=
  jMulRec cv q (bitlen (reduceScalar cv n)) (reduceScalar cv n)

/-- `FromJ` (rule R151). -/
def fromJ (cv : Scheme) (q : JPoint) : Except FaultCode APoint :=
  match invp cv q.z with
  | .error c => .error c
  | .ok z => .ok { x := modp cv (q.x * z * z), y := modp cv (q.y * z * z * z) }

/-! ### Affine points -/

/-- `AINF` (rule R166). -/
def aInf : APoint := { x := 0, y := 0 }

/-- The base point `G` of a scheme (rules R27, R135). -/
def basePoint (cv : Scheme) : APoint := { x := (rom cv).gx, y := (rom cv).gy }

/-- Both coordinates reduced (rule R167). -/
def aReduce (cv : Scheme) (q : APoint) : APoint := { x := modp cv q.x, y := modp cv q.y }

/-- The line of slope `l` through a reduced point, met again at `x3`: the last two formula lines of rules
R168 and R170. -/
def aChord (cv : Scheme) (l x1 x2 y1 : Int) : APoint :=
  let x3 := modp cv (l * l - x1 - x2)
  { x := x3, y := modp cv (l * (x1 - x3) - y1) }

/-- `ADouble` on reduced coordinates. -/
def aDoubleReduced (cv : Scheme) (q : APoint) : Except FaultCode APoint :=
  if q.y = 0 then .ok aInf
  else
    match invp cv (2 * q.y) with
    | .error c => .error c
    | .ok i => .ok (aChord cv (modp cv ((3 * q.x * q.x + (rom cv).a) * i)) q.x q.x q.y)

/-- `ADouble` (rule R168). -/
def aDouble (cv : Scheme) (q : APoint) : Except FaultCode APoint :=
  aDoubleReduced cv (aReduce cv q)

/-- `AAdd` on reduced coordinates. -/
def aAddReduced (cv : Scheme) (q r : APoint) : Except FaultCode APoint :=
  if q.x = 0 ∧ q.y = 0 then .ok r
  else if r.x = 0 ∧ r.y = 0 then .ok q
  else if q.x = r.x then
    if q.y = r.y then aDouble cv q else .ok aInf
  else
    match invp cv (r.x - q.x) with
    | .error c => .error c
    | .ok i => .ok (aChord cv (modp cv ((r.y - q.y) * i)) q.x r.x q.y)

/-- `AAdd` (rule R170). -/
def aAdd (cv : Scheme) (q r : APoint) : Except FaultCode APoint :=
  aAddReduced cv (aReduce cv q) (aReduce cv r)

/-- The rounds of `AMulti` (rule R172): the first argument is how many bits of `n` are still to come,
the next being the highest of them. -/
def aMultiLoop (cv : Scheme) (q : APoint) (n : Nat) : Nat → APoint → Except FaultCode APoint
  | 0, acc => .ok acc
  | i + 1, acc =>
    match aDouble cv acc with
    | .error c => .error c
    | .ok d =>
      if n.testBit i then
        match aAdd cv d q with
        | .error c => .error c
        | .ok t => aMultiLoop cv q n i t
      else aMultiLoop cv q n i d

/-- `AMulti`, for a scalar that is not negative (rule R172). -/
def aMulti (cv : Scheme) (q : APoint) (n : Nat) : Except FaultCode APoint :=
  aMultiLoop cv q n (bitlen n) aInf

/-- What a round of `Shamir` adds, from the two scalars' bits (rule R174). -/
def shamirAddend (cv : Scheme) (q t : APoint) (b1 b2 : Bool) : Option APoint :=
  match b1, b2 with
  | true, true => some t
  | true, false => some (basePoint cv)
  | false, true => some q
  | false, false => none

/-- The rounds of `Shamir` (rule R174), as `aMultiLoop` for two scalars; `t` is `G + Q`. -/
def shamirLoop (cv : Scheme) (q t : APoint) (u1 u2 : Nat) : Nat → APoint → Except FaultCode APoint
  | 0, acc => .ok acc
  | i + 1, acc =>
    match aDouble cv acc with
    | .error c => .error c
    | .ok d =>
      match shamirAddend cv q t (u1.testBit i) (u2.testBit i) with
      | none => shamirLoop cv q t u1 u2 i d
      | some e =>
        match aAdd cv d e with
        | .error c => .error c
        | .ok r => shamirLoop cv q t u1 u2 i r

/-- `Shamir`, for scalars that are not negative (rule R174). -/
def shamir (cv : Scheme) (u1 u2 : Nat) (q : APoint) : Except FaultCode APoint :=
  match aAdd cv (basePoint cv) q with
  | .error c => .error c
  | .ok t => shamirLoop cv q t u1 u2 (max (bitlen u1) (bitlen u2)) aInf

end Sys2Proof.Machine
end

