-- ==== Sys2Proof/Machine/Affine.lean ====
section
/-! DEFINITION. The affine point commands: `PADD`, `PDBL`, `PMULTI`, `SHAMIR` (rules R167 to R175). -/

namespace Sys2Proof.Machine

/-- `PADD rd, ra, rb, scheme` (rule R171). -/
def execPadd (rd ra rb : RegIdx) (cv : Scheme) (s : State) : Result :=
  whenLegal s (affineBase rd && affineBase ra && affineBase rb)
    ((aAdd cv (s.affine ra) (s.affine rb)).map (affineDest rd))

/-- `PDBL rd, ra, scheme` (rule R169). -/
def execPdbl (rd ra : RegIdx) (cv : Scheme) (s : State) : Result :=
  whenLegal s (affineBase rd && affineBase ra)
    ((aDouble cv (s.affine ra)).map (affineDest rd))

/-- `PMULTI` on its operands: a negative scalar is a fault, no other is reduced (rule R173). -/
def multiValue (cv : Scheme) (q : APoint) (n : Int) : Except FaultCode APoint :=
  if n < 0 then .error .negativeScalar else aMulti cv q n.toNat

/-- `PMULTI rd, ra, rb, scheme` (rule R173). -/
def execPmulti (rd ra rb : RegIdx) (cv : Scheme) (s : State) : Result :=
  whenLegal s (affineBase rd && affineBase ra)
    ((multiValue cv (s.affine ra) (s.val rb)).map (affineDest rd))

/-- `SHAMIR` on its operands: a negative scalar is a fault (rule R175). -/
def shamirValue (cv : Scheme) (u1 u2 : Int) (q : APoint) : Except FaultCode APoint :=
  if u1 < 0 ∨ u2 < 0 then .error .negativeScalar else shamir cv u1.toNat u2.toNat q

/-- `SHAMIR rd, ra, rb, rc, scheme` (rule R175). -/
def execShamir (rd ra rb rc : RegIdx) (cv : Scheme) (s : State) : Result :=
  whenLegal s (affineBase rd && affineBase rc)
    ((shamirValue cv (s.val ra) (s.val rb) (s.affine rc)).map (affineDest rd))

end Sys2Proof.Machine
end

