-- ==== Sys2Proof/Machine/Arithmetic.lean ====
section
/-! DEFINITION. The BigInteger arithmetic commands: `ADD`, `SUB`, `MUL`, `CMP`, `LSH`, `RSH`, `DIV`, `MOD`,
`INV` (rules R97 to R111). -/

namespace Sys2Proof.Machine

/-- `ADD rd, ra, rb` (rule R97). -/
def execAdd (rd ra rb : RegIdx) (s : State) : Result :=
  commit s (.ok [(rd, s.val ra + s.val rb)])

/-- `SUB rd, ra, rb` (rule R99). -/
def execSub (rd ra rb : RegIdx) (s : State) : Result :=
  commit s (.ok [(rd, s.val ra - s.val rb)])

/-- `MUL rd, ra, rb` (rule R101). -/
def execMul (rd ra rb : RegIdx) (s : State) : Result :=
  commit s (.ok [(rd, s.val ra * s.val rb)])

/-- `CMP ra, rb` (rule R103): the only command that writes `FLAGS`; no register is written. -/
def execCmp (ra rb : RegIdx) (s : State) : Result :=
  .next { s with flags := compareFlag (s.val ra) (s.val rb) }.finish

/-- `LSH rd, ra, #sh` (rule R104). -/
def execLsh (rd ra : RegIdx) (sh : BitVec 5) (s : State) : Result :=
  commit s (.ok [(rd, s.val ra * shiftFactor sh)])

/-- The value shifted right: the magnitude loses its low bits and keeps its sign (rule R105). -/
def shiftRightValue (v : Int) (sh : BitVec 5) : Int :=
  let m : Int := (v.natAbs / shiftFactor sh : Nat)
  if v < 0 then -m else m

/-- `RSH rd, ra, #sh` (rule R105). -/
def execRsh (rd ra : RegIdx) (sh : BitVec 5) (s : State) : Result :=
  commit s (.ok [(rd, shiftRightValue (s.val ra) sh)])

/-- The quotient of rule R107, truncated toward zero. -/
def divideValue (a b : Int) : Except FaultCode Int :=
  if b ≤ 0 then .error .divisorNotPositive
  else
    let q : Int := a.natAbs / b
    .ok (if a < 0 then -q else q)

/-- `DIV rd, ra, rb` (rule R107). -/
def execDiv (rd ra rb : RegIdx) (s : State) : Result :=
  commit s ((divideValue (s.val ra) (s.val rb)).map fun q => [(rd, q)])

/-- The Euclidean remainder of rules R109 and R131, for a modulus that is checked. -/
def remainderValue (a m : Int) : Except FaultCode Int :=
  if m ≤ 0 then .error .modulusInvalid else .ok (a % m)

/-- `MOD rd, ra, rb` (rule R109). -/
def execMod (rd ra rb : RegIdx) (s : State) : Result :=
  commit s ((remainderValue (s.val ra) (s.val rb)).map fun r => [(rd, r)])

/-- `INV rd, ra, rb` (rule R111). -/
def execInv (rd ra rb : RegIdx) (s : State) : Result :=
  commit s ((modInverse (s.val ra) (s.val rb)).map fun v => [(rd, v)])

end Sys2Proof.Machine
end

