-- ==== Sys2Proof/Machine/Jacobian.lean ====
section
/-! DEFINITION. The Jacobian point commands: `JDBL`, `JADD`, `JMUL`, `FROMJ`, `PMUL` (rules R142 to R153). -/

namespace Sys2Proof.Machine

/-- `JDBL rd, ra, scheme` (rule R144). -/
def execJdbl (rd ra : RegIdx) (cv : Scheme) (s : State) : Result :=
  whenLegal s (jacobianBase rd && jacobianBase ra)
    (.ok (jacobianDest rd (jDouble cv (s.jacobian ra))))

/-- `JADD rd, ra, rb, scheme` (rule R146). -/
def execJadd (rd ra rb : RegIdx) (cv : Scheme) (s : State) : Result :=
  whenLegal s (jacobianBase rd && jacobianBase ra && jacobianBase rb)
    (.ok (jacobianDest rd (jAdd cv (s.jacobian ra) (s.jacobian rb))))

/-- `JMUL rd, ra, rb, scheme` (rule R149). -/
def execJmul (rd ra rb : RegIdx) (cv : Scheme) (s : State) : Result :=
  whenLegal s (jacobianBase rd && jacobianBase ra)
    (.ok (jacobianDest rd (jMul cv (s.jacobian ra) (s.val rb))))

/-- `FROMJ rd, ra, scheme` (rule R152). -/
def execFromj (rd ra : RegIdx) (cv : Scheme) (s : State) : Result :=
  whenLegal s (affineBase rd && jacobianBase ra)
    ((fromJ cv (s.jacobian ra)).map (affineDest rd))

/-- The affine point with `Z = 1`, the Jacobian triple `(x, y, 1)` (rule R153). -/
def APoint.toJacobian (q : APoint) : JPoint := { x := q.x, y := q.y, z := 1 }

/-- `PMUL rd, ra, rb, scheme` (rule R153). -/
def execPmul (rd ra rb : RegIdx) (cv : Scheme) (s : State) : Result :=
  whenLegal s (affineBase rd && affineBase ra)
    ((fromJ cv (jMul cv (s.affine ra).toJacobian (s.val rb))).map (affineDest rd))

end Sys2Proof.Machine
end

