-- ==== Sys2Proof/Machine/Modular.lean ====
section
/-! DEFINITION. The modular commands: `MULMOD` and `MODP` (rules R131 to R134). Both are given by their
result; there is no Montgomery domain (rules R12, R132). -/

namespace Sys2Proof.Machine

/-- `MULMOD rd, ra, rb, rc` (rule R131): the product is internal and never overflows. -/
def execMulmod (rd ra rb rc : RegIdx) (s : State) : Result :=
  commit s ((remainderValue (s.val ra * s.val rb) (s.val rc)).map fun r => [(rd, r)])

/-- `MODP rd, ra, scheme` (rule R133). -/
def execModp (rd ra : RegIdx) (cv : Scheme) (s : State) : Result :=
  commit s (.ok [(rd, modp cv (s.val ra))])

end Sys2Proof.Machine
end

