-- ==== Sys2Proof/Machine/Transfer.lean ====
section
/-! DEFINITION. The transfer commands: `LDI`, `LDBE`, `STBE`, `MOV`, `LDC` (rules R92 to R96). -/

namespace Sys2Proof.Machine

/-- `LDI rd, #imm16` (rule R92). -/
def execLdi (rd : RegIdx) (imm : BitVec 16) (s : State) : Result :=
  commit s (.ok [(rd, immediate imm)])

/-- `LDBE rd` (rule R93): `BUFLEN` is checked before the buffer is read. -/
def execLdbe (rd : RegIdx) (s : State) : Result :=
  if s.buflen.toNat = 0 ∨ Config.bufBytes < s.buflen.toNat then raise s .invalidLength
  else
    match memRead s.buf 0 s.buflen.toNat with
    | .error f => .fault f
    | .ok bs => commit s (.ok [(rd, bytesValue bs)])

/-- `STBE ra` (rule R94): the magnitude's minimal big-endian form, and `BUFLEN`; no sign. -/
def execStbe (ra : RegIdx) (s : State) : Result :=
  match memWrite s.buf 0 (magnitudeBytes (s.val ra).natAbs) with
  | .error f => .fault f
  | .ok m => .next
      { s with buf := m, buflen := BitVec.ofNat 8 (byteLength (s.val ra).natAbs) }.finish

/-- `MOV rd, ra` (rule R95). -/
def execMov (rd ra : RegIdx) (s : State) : Result :=
  commit s (.ok [(rd, s.val ra)])

/-- `LDC rd, scheme.sel` (rule R96). -/
def execLdc (rd : RegIdx) (cv : Scheme) (sel : CurveConst) (s : State) : Result :=
  commit s (.ok [(rd, romConst cv sel)])

end Sys2Proof.Machine
end

