-- ==== Sys2Proof/Machine/Dispatch.lean ====
section
/-! DEFINITION. The engine's atomic step on a command (rule R226), one arm per command. -/

namespace Sys2Proof.Machine

def exec (i : Instr) (s : State) : Host.Outcome State Fault Refusal :=
  match i with
  | .ldi rd imm => Sys2Proof.Machine.execLdi rd imm s
  | .ldbe rd => Sys2Proof.Machine.execLdbe rd s
  | .stbe ra => Sys2Proof.Machine.execStbe ra s
  | .mov rd ra => Sys2Proof.Machine.execMov rd ra s
  | .ldc rd cv sel => Sys2Proof.Machine.execLdc rd cv sel s
  | .add rd ra rb => Sys2Proof.Machine.execAdd rd ra rb s
  | .sub rd ra rb => Sys2Proof.Machine.execSub rd ra rb s
  | .mul rd ra rb => Sys2Proof.Machine.execMul rd ra rb s
  | .cmp ra rb => Sys2Proof.Machine.execCmp ra rb s
  | .lsh rd ra sh => Sys2Proof.Machine.execLsh rd ra sh s
  | .rsh rd ra sh => Sys2Proof.Machine.execRsh rd ra sh s
  | .div rd ra rb => Sys2Proof.Machine.execDiv rd ra rb s
  | .mod rd ra rb => Sys2Proof.Machine.execMod rd ra rb s
  | .inv rd ra rb => Sys2Proof.Machine.execInv rd ra rb s
  | .mulmod rd ra rb rc => Sys2Proof.Machine.execMulmod rd ra rb rc s
  | .modp rd ra cv => Sys2Proof.Machine.execModp rd ra cv s
  | .jdbl rd ra cv => Sys2Proof.Machine.execJdbl rd ra cv s
  | .jadd rd ra rb cv => Sys2Proof.Machine.execJadd rd ra rb cv s
  | .jmul rd ra rb cv => Sys2Proof.Machine.execJmul rd ra rb cv s
  | .fromj rd ra cv => Sys2Proof.Machine.execFromj rd ra cv s
  | .pmul rd ra rb cv => Sys2Proof.Machine.execPmul rd ra rb cv s
  | .padd rd ra rb cv => Sys2Proof.Machine.execPadd rd ra rb cv s
  | .pdbl rd ra cv => Sys2Proof.Machine.execPdbl rd ra cv s
  | .pmulti rd ra rb cv => Sys2Proof.Machine.execPmulti rd ra rb cv s
  | .shamir rd ra rb rc cv => Sys2Proof.Machine.execShamir rd ra rb rc cv s

end Sys2Proof.Machine
end

