-- ==== Sys2Proof/Machine/Engine.lean ====
section
/-! DEFINITION. The engine's step and the effect of each event (rules R59, R80, R206, R216, R226). -/

namespace Sys2Proof.Machine

/-- The engine's one atomic step on the word latched in `CMD` (rules R80, R226). -/
def engineStep (s : State) : Result :=
  match decode s.cmd with
  | .command i => exec i s
  | .illegal _ => raise s .illegalCommand
  | .unsupportedScheme => raise s .unsupportedScheme

/-- The engine's turn: it moves only while `BUSY = 1`; an idle core holds its state (rules R13, R206). -/
def engineTurn (s : State) : Result := if s.status.busy then engineStep s else .next s

/-- One event takes effect, as one atomic change of state (rules R46, R59, R216, R226). -/
def takeEvent (e : Event) (s : State) : Result :=
  match e with
  | .read addr => .next (hostRead addr s)
  | .write addr d => .next (hostWrite addr d s)
  | .engine => engineTurn s
  | .reset => .next (resetEvent s)

end Sys2Proof.Machine
end

