-- ==== Sys2Proof/Machine/Step.lean ====
section
/-! DEFINITION. One step of the machine: the next event takes effect (rules R46, R59, R216, R226). -/

namespace Sys2Proof.Machine

/-- One step. -/
def step (s : State) : Host.Outcome State Fault Refusal :=
  takeEvent (nextEvent s).1 (nextEvent s).2

/-- The state with a command word where the next step takes it from: latched in `CMD` with `BUSY = 1`
(DESIGN CHOICE, log 4). The row's bits are the low bits of the word; the bits above them are zero. -/
def State.withFetchWord (s : State) (nbits w : Nat) : State :=
  loadCommand s (BitVec.ofNat 32 (w % 2 ^ nbits))

end Sys2Proof.Machine
end

