-- ==== Sys2Proof/Machine/Datapath.lean ====
section
/-! DEFINITION. The algorithms that the spec transcribes from the source as datapath notes (rules R98, R100,
R102, R106, R108, R110) and the loop of rule R150. None is observable and no meaning calls them: the
meanings follow the result rules, and the obligations compare the two. Limbs stand least significant
first. -/

namespace Sys2Proof.Machine

/-- Grade-school addition of limbs with a carry; a final carry extends the result by one limb (rule
R98). -/
def addLimbs : List Word → List Word → Nat → List Word
  | [], [], c => if c = 0 then [] else [BitVec.ofNat 32 c]
  | x :: xs, [], c =>
    BitVec.ofNat 32 (x.toNat + c) :: addLimbs xs [] ((x.toNat + c) / 2 ^ 32)
  | [], y :: ys, c =>
    BitVec.ofNat 32 (y.toNat + c) :: addLimbs [] ys ((y.toNat + c) / 2 ^ 32)
  | x :: xs, y :: ys, c =>
    BitVec.ofNat 32 (x.toNat + y.toNat + c) :: addLimbs xs ys ((x.toNat + y.toNat + c) / 2 ^ 32)

/-- One limb of a subtraction with the bias: `t = 0x100000000 + a - b - c` (rule R100). -/
def biasedDifference (a b : Word) (borrow : Nat) : Nat := 0x100000000 + a.toNat - b.toNat - borrow

/-- Subtraction of limbs: the result limb is `t mod 2^32`, the borrow is 1 if `t < 0x100000000` (rule
R100). The limbs of the subtrahend beyond the minuend's are not looked at. -/
def subLimbs : List Word → List Word → Nat → List Word
  | [], _, _ => []
  | x :: xs, ys, c =>
    let t := biasedDifference x (ys.headD 0) c
    BitVec.ofNat 32 t :: subLimbs xs ys.tail (if t < 0x100000000 then 1 else 0)

/-- The sign-magnitude case analysis of addition (rule R98): equal signs add the magnitudes, unequal
signs subtract the smaller from the larger and take the larger's sign. -/
def addSigned (a b : Bool × List Word) : Bool × List Word :=
  if a.1 = b.1 then (a.1, addLimbs a.2 b.2 0)
  else if limbsValue b.2 ≤ limbsValue a.2 then (a.1, subLimbs a.2 b.2 0)
  else (b.1, subLimbs b.2 a.2 0)

/-- Add a value into column `k` and every carry out of a column into the next (rule R102). -/
def addColumn : List Word → Nat → Nat → List Word
  | [], _, _ => []
  | w :: ws, 0, v => BitVec.ofNat 32 (w.toNat + v) :: addColumn ws 0 ((w.toNat + v) / 2 ^ 32)
  | w :: ws, k + 1, v => w :: addColumn ws k v

/-- The products of one limb with every limb of `ys`, each 64-bit product added into columns `k` (low 32
bits) and `k + 1` (high 32 bits), `k` rising with the limb of `ys` (rule R102). -/
def mulRow (x : Word) : List Word → Nat → List Word → List Word
  | [], _, cols => cols
  | y :: ys, k, cols =>
    mulRow x ys (k + 1)
      (addColumn (addColumn cols k (x.toNat * y.toNat % 2 ^ 32)) (k + 1) (x.toNat * y.toNat / 2 ^ 32))

/-- Schoolbook multiplication into given columns: the rows of the limbs of `xs`, from column `k` on (rule
R102). -/
def mulRows : List Word → List Word → Nat → List Word → List Word
  | [], _, _, cols => cols
  | x :: xs, ys, k, cols => mulRows xs ys (k + 1) (mulRow x ys k cols)

/-- Schoolbook multiplication of limbs (rule R102). -/
def mulLimbs (xs ys : List Word) : List Word :=
  mulRows xs ys 0 (List.replicate (xs.length + ys.length) 0)

/-- Left shift of limbs with the bits carried into the next limb; a final carry extends the result by
one limb (rule R106). -/
def shiftLeftLimbs (sh : Nat) : List Word → Nat → List Word
  | [], c => if c = 0 then [] else [BitVec.ofNat 32 c]
  | w :: ws, c =>
    BitVec.ofNat 32 (w.toNat * 2 ^ sh + c) :: shiftLeftLimbs sh ws ((w.toNat * 2 ^ sh + c) / 2 ^ 32)

/-- Right shift of limbs, each taking in the low bits of the next (rule R106). -/
def shiftRightLimbs (sh : Nat) : List Word → List Word
  | [] => []
  | w :: ws =>
    ((w >>> sh) ||| ((ws.headD 0) <<< (32 - sh))) :: shiftRightLimbs sh ws

/-- The doubling phase of rule R108: trial divisor and unit quotient double while the divisor is below
the dividend. -/
def doublingPhase (a : Nat) : Nat → Nat → Nat → Nat × Nat
  | 0, d, u => (d, u)
  | fuel + 1, d, u => if d < a then doublingPhase a fuel (2 * d) (2 * u) else (d, u)

/-- The halving phase of rule R108 on `d, u, rem, q`; it answers `(q, rem)`. -/
def halvingPhase : Nat → Nat → Nat → Nat → Nat → Nat × Nat
  | 0, _, _, rem, q => (q, rem)
  | fuel + 1, d, u, rem, q =>
    if u = 0 then (q, rem)
    else if d ≤ rem then halvingPhase fuel (d / 2) (u / 2) (rem - d) (q + u)
    else halvingPhase fuel (d / 2) (u / 2) rem q

/-- Binary long division (rule R108), within the rounds of rule R228: at most `bitlen(a)` doublings, and
one halving more. -/
def divideDatapath (a b : Nat) : Nat × Nat :=
  match doublingPhase a (bitlen a) b 1 with
  | (d, u) => halvingPhase (bitlen a + 1) d u a 0

/-- The remainder's correction for a negative dividend (rule R110). -/
def moduloDatapath (a : Int) (m : Nat) : Nat :=
  let r := (divideDatapath a.natAbs m).2
  if a < 0 ∧ r ≠ 0 then m - r else r

/-- The loop of rule R150 from bit `i - 1` of `n` down to bit 0. -/
def jMulLoop (cv : Scheme) (q : JPoint) (n : Nat) : Nat → JPoint → JPoint
  | 0, acc => acc
  | i + 1, acc =>
    let d := jDouble cv acc
    jMulLoop cv q n i (if n.testBit i then jAdd cv d q else d)

/-- `JMul` by the iterative form of rule R150: the range reduction, the two early returns, and the loop
from bit `L - 2` down. -/
def jMulIterative (cv : Scheme) (q : JPoint) (n : Int) : JPoint :=
  let k := reduceScalar cv n
  if k = 0 ∨ q.y = 0 then jInf else jMulLoop cv q k (bitlen k - 1) q

end Sys2Proof.Machine
end

