-- ==== Sys2Proof/Safety.lean ====
section
/-! DEFINITION. What the claims are stated in: the invariant of the reachable states, how a command ends,
what it leaves unchanged, and which registers it reads and writes and which faults it can raise. -/

namespace Sys2Proof

namespace Machine

/-! ### The invariant -/

/-- What holds in every reachable state, by the spec's own words. -/
structure State.Inv (s : State) : Prop where
  /-- every register is in canonical form (rule R16) -/
  registers : ∀ r : RegIdx, (s.reg r).canonical = true
  /-- the buffer is in the model's canonical form: indices rise and stay below 128 (rule R21) -/
  buffer : s.buf.wf
  /-- `FLAGS.CMP` is never `0b10` (rule R24) -/
  flags : s.flags ≠ 0b10
  /-- at most one of `BUSY`, `DONE`, `ERR` is 1 (rule R25) -/
  status : ¬(s.status.busy ∧ s.status.done) ∧ ¬(s.status.busy ∧ s.status.err)
    ∧ ¬(s.status.done ∧ s.status.err)
  /-- `ERRCODE` is 0 when `ERR = 0` (rule R26) and the code of a fault, `0x01` to `0x08`, when `ERR = 1`
  (rule R188) -/
  errcode : if s.status.err then 1 ≤ s.errcode.toNat ∧ s.errcode.toNat ≤ 8 else s.errcode = 0

/-! ### How a command ends -/

/-- Everything but the registers is as before: every byte of `BUF`, `BUFLEN`, `FLAGS`, `CMD`, `ERRCODE`,
the agenda and the answers. -/
structure SameOutsideRegisters (s t : State) : Prop where
  buf : ∀ k, t.buf.read k = s.buf.read k
  buflen : t.buflen = s.buflen
  flags : t.flags = s.flags
  cmd : t.cmd = s.cmd
  errcode : t.errcode = s.errcode
  agenda : t.agenda = s.agenda
  answers : t.answers = s.answers

/-- A command ended well: `BUSY = 0`, `DONE = 1`, and `ERR` as before (rules R25, R226). -/
def EndedWell (s t : State) : Prop :=
  t.status = { busy := false, done := true, err := s.status.err }

/-- A command ended well and did nothing but write these registers: each holds its value in canonical
form, every other register is unchanged, and so is everything outside the registers. -/
structure WroteExactly (s t : State) (ws : List (RegIdx × Int)) : Prop where
  written : ∀ w ∈ ws, t.val w.1 = w.2 ∧ (t.reg w.1).canonical = true
  others : ∀ r : RegIdx, r ∉ ws.map Prod.fst → t.reg r = s.reg r
  rest : SameOutsideRegisters s t
  ended : EndedWell s t

/-- The state after fault entry with a code, in the words of rule R187: `ERR = 1`, `ERRCODE` the code,
`BUSY = 0`, `DONE` as it was, and nothing else changed. -/
def afterFault (code : Byte) (s : State) : State :=
  { s with status := { busy := false, done := s.status.done, err := true }, errcode := code }

/-- The Jacobian result `q` at base `b`. -/
def tripleAt (b : RegIdx) (q : JPoint) : List (RegIdx × Int) :=
  [(b, q.x), (b + 1, q.y), (b + 2, q.z)]

/-- The affine result `q` at base `b`. -/
def pairAt (b : RegIdx) (q : APoint) : List (RegIdx × Int) :=
  [(b, q.x), (b + 1, q.y)]

/-! ### What each command may touch -/

end Machine

/-- The registers a command writes when it ends well (rule R34). -/
def Instr.writes : Instr → List RegIdx
  | .ldi rd _ => [rd]
  | .ldbe rd => [rd]
  | .stbe _ => []
  | .mov rd _ => [rd]
  | .ldc rd _ _ => [rd]
  | .add rd _ _ => [rd]
  | .sub rd _ _ => [rd]
  | .mul rd _ _ => [rd]
  | .cmp _ _ => []
  | .lsh rd _ _ => [rd]
  | .rsh rd _ _ => [rd]
  | .div rd _ _ => [rd]
  | .mod rd _ _ => [rd]
  | .inv rd _ _ => [rd]
  | .mulmod rd _ _ _ => [rd]
  | .modp rd _ _ => [rd]
  | .jdbl rd _ _ => [rd, rd + 1, rd + 2]
  | .jadd rd _ _ _ => [rd, rd + 1, rd + 2]
  | .jmul rd _ _ _ => [rd, rd + 1, rd + 2]
  | .fromj rd _ _ => [rd, rd + 1]
  | .pmul rd _ _ _ => [rd, rd + 1]
  | .padd rd _ _ _ => [rd, rd + 1]
  | .pdbl rd _ _ => [rd, rd + 1]
  | .pmulti rd _ _ _ => [rd, rd + 1]
  | .shamir rd _ _ _ _ => [rd, rd + 1]

/-- The registers a command reads (rules R9, R75): its source registers, and for a point operand the two or
three from its base on. -/
def Instr.reads : Instr → List RegIdx
  | .ldi _ _ => []
  | .ldbe _ => []
  | .stbe ra => [ra]
  | .mov _ ra => [ra]
  | .ldc _ _ _ => []
  | .add _ ra rb => [ra, rb]
  | .sub _ ra rb => [ra, rb]
  | .mul _ ra rb => [ra, rb]
  | .cmp ra rb => [ra, rb]
  | .lsh _ ra _ => [ra]
  | .rsh _ ra _ => [ra]
  | .div _ ra rb => [ra, rb]
  | .mod _ ra rb => [ra, rb]
  | .inv _ ra rb => [ra, rb]
  | .mulmod _ ra rb rc => [ra, rb, rc]
  | .modp _ ra _ => [ra]
  | .jdbl _ ra _ => [ra, ra + 1, ra + 2]
  | .jadd _ ra rb _ => [ra, ra + 1, ra + 2, rb, rb + 1, rb + 2]
  | .jmul _ ra rb _ => [ra, ra + 1, ra + 2, rb]
  | .fromj _ ra _ => [ra, ra + 1, ra + 2]
  | .pmul _ ra rb _ => [ra, ra + 1, rb]
  | .padd _ ra rb _ => [ra, ra + 1, rb, rb + 1]
  | .pdbl _ ra _ => [ra, ra + 1]
  | .pmulti _ ra rb _ => [ra, ra + 1, rb]
  | .shamir _ ra rb rc _ => [ra, rb, rc, rc + 1]

/-- The codes of the faults a decoded command can raise (rule R188, column "raised by", less the two
that decoding raises). -/
def Instr.faultCodes : Instr → List Byte
  | .ldi _ _ => []
  | .ldbe _ => [0x03]
  | .stbe _ => []
  | .mov _ _ => []
  | .ldc _ _ _ => []
  | .add _ _ _ => [0x04]
  | .sub _ _ _ => [0x04]
  | .mul _ _ _ => [0x04]
  | .cmp _ _ => []
  | .lsh _ _ _ => [0x04]
  | .rsh _ _ _ => []
  | .div _ _ _ => [0x05]
  | .mod _ _ _ => [0x06]
  | .inv _ _ _ => [0x06, 0x07]
  | .mulmod _ _ _ _ => [0x06]
  | .modp _ _ _ => []
  | .jdbl _ _ _ => []
  | .jadd _ _ _ _ => []
  | .jmul _ _ _ _ => []
  | .fromj _ _ _ => [0x07]
  | .pmul _ _ _ _ => [0x07]
  | .padd _ _ _ _ => []
  | .pdbl _ _ _ => []
  | .pmulti _ _ _ _ => [0x08]
  | .shamir _ _ _ _ _ => [0x08]

namespace Machine

/-! ### The opcode table, as the spec prints it -/

/-- The `op` values of the 25 commands (rule R75). -/
def commandOpcodes : List (BitVec 8) :=
  [0x01, 0x02, 0x03, 0x04, 0x05, 0x10, 0x11, 0x12, 0x13, 0x14, 0x15, 0x16, 0x17, 0x18, 0x20, 0x21, 0x30,
    0x31, 0x32, 0x33, 0x34, 0x40, 0x41, 0x42, 0x43]

/-- One row of opcode_table.json (rule R77): `mask` has a 1 in `op` and in every must-be-zero bit, `value`
is the file's `match`. -/
structure OpcodeRow where
  mask  : Word
  value : Word
  deriving DecidableEq, Repr

end Machine

/-- The row of a command, the numbers as opcode_table.json prints them (rule R77). -/
def Instr.row : Instr → Machine.OpcodeRow
  | .ldi _ _ => ⟨0xFF000007, 0x01000000⟩
  | .ldbe _ => ⟨0xFF07FFFF, 0x02000000⟩
  | .stbe _ => ⟨0xFFF83FFF, 0x03000000⟩
  | .mov _ _ => ⟨0xFF003FFF, 0x04000000⟩
  | .ldc _ _ _ => ⟨0xFF07FF83, 0x05000000⟩
  | .add _ _ _ => ⟨0xFF0001FF, 0x10000000⟩
  | .sub _ _ _ => ⟨0xFF0001FF, 0x11000000⟩
  | .mul _ _ _ => ⟨0xFF0001FF, 0x12000000⟩
  | .cmp _ _ => ⟨0xFFF801FF, 0x13000000⟩
  | .lsh _ _ _ => ⟨0xFF0001FF, 0x14000000⟩
  | .rsh _ _ _ => ⟨0xFF0001FF, 0x15000000⟩
  | .div _ _ _ => ⟨0xFF0001FF, 0x16000000⟩
  | .mod _ _ _ => ⟨0xFF0001FF, 0x17000000⟩
  | .inv _ _ _ => ⟨0xFF0001FF, 0x18000000⟩
  | .mulmod _ _ _ _ => ⟨0xFF00000F, 0x20000000⟩
  | .modp _ _ _ => ⟨0xFF003FF3, 0x21000000⟩
  | .jdbl _ _ _ => ⟨0xFF003FF3, 0x30000000⟩
  | .jadd _ _ _ _ => ⟨0xFF0001F3, 0x31000000⟩
  | .jmul _ _ _ _ => ⟨0xFF0001F3, 0x32000000⟩
  | .fromj _ _ _ => ⟨0xFF003FF3, 0x33000000⟩
  | .pmul _ _ _ _ => ⟨0xFF0001F3, 0x34000000⟩
  | .padd _ _ _ _ => ⟨0xFF0001F3, 0x40000000⟩
  | .pdbl _ _ _ => ⟨0xFF003FF3, 0x41000000⟩
  | .pmulti _ _ _ _ => ⟨0xFF0001F3, 0x42000000⟩
  | .shamir _ _ _ _ _ => ⟨0xFF000003, 0x43000000⟩

/-- The commands whose format uses `cv` (rule R73: `C1`, `C2`, `C3`, `C4`). -/
def Instr.usesScheme : Instr → Bool
  | .ldi _ _ => false
  | .ldbe _ => false
  | .stbe _ => false
  | .mov _ _ => false
  | .ldc _ _ _ => true
  | .add _ _ _ => false
  | .sub _ _ _ => false
  | .mul _ _ _ => false
  | .cmp _ _ => false
  | .lsh _ _ _ => false
  | .rsh _ _ _ => false
  | .div _ _ _ => false
  | .mod _ _ _ => false
  | .inv _ _ _ => false
  | .mulmod _ _ _ _ => false
  | .modp _ _ _ => true
  | .jdbl _ _ _ => true
  | .jadd _ _ _ _ => true
  | .jmul _ _ _ _ => true
  | .fromj _ _ _ => true
  | .pmul _ _ _ _ => true
  | .padd _ _ _ _ => true
  | .pdbl _ _ _ => true
  | .pmulti _ _ _ _ => true
  | .shamir _ _ _ _ _ => true

namespace Machine

/-! ### The address map, as the spec prints it -/

/-- A word-aligned offset that rule R48 maps: the five control registers, the 32 words of the buffer
window, and of each register's 256 bytes the 32 limbs and the header. -/
abbrev Mapped (a : Offset) : Prop :=
  a.toNat % 4 = 0
    ∧ (a.toNat ≤ 0x10 ∨ (0x100 ≤ a.toNat ∧ a.toNat < 0x180)
      ∨ (0x1000 ≤ a.toNat ∧ a.toNat < 0x3000 ∧ a.toNat % 0x100 ≤ 0x80))

/-- A location whose host access is "read, write" or write-1-to-clear (rules R48, R55). -/
abbrev Writable (a : Offset) : Prop :=
  a = 0x0000 ∨ a = 0x0004 ∨ a = 0x0010 ∨ (a.toNat % 4 = 0 ∧ 0x100 ≤ a.toNat ∧ a.toNat < 0x180)

/-- The offset of `BUFW[w]` (rule R48). -/
def bufwOffset (w : Nat) : Offset := BitVec.ofNat 14 (0x100 + 4 * w)

/-- The offset of `LIMB[r][k]` (rule R48). -/
def limbOffset (r : RegIdx) (k : Nat) : Offset := BitVec.ofNat 14 (0x1000 + 0x100 * r.toNat + 4 * k)

/-- The offset of `HDR[r]` (rule R48). -/
def hdrOffset (r : RegIdx) : Offset := BitVec.ofNat 14 (0x1000 + 0x100 * r.toNat + 0x80)

/-- The state after a transaction that did nothing but answer. -/
def State.answered (s : State) (es : List Event) (a : Answer) : State :=
  { s with agenda := es, answers := a :: s.answers }

/-- The core's own state, all of rule R13's list: everything but the agenda and the answers. -/
structure SameCore (s t : State) : Prop where
  regs : t.regs = s.regs
  buf : t.buf = s.buf
  buflen : t.buflen = s.buflen
  cmd : t.cmd = s.cmd
  flags : t.flags = s.flags
  status : t.status = s.status
  errcode : t.errcode = s.errcode

/-! ### Signed limb sequences -/

/-- The value of a sign and limbs (rule R15). -/
def signedValue (a : Bool × List Word) : Int := if a.1 then -(limbsValue a.2 : Int) else limbsValue a.2

/-! ### Whose turn it is -/

/-- The next event is the engine's turn: it stands first on the agenda, or nothing stands there. -/
def EngineIsNext (s : State) : Prop := s.agenda = [] ∨ ∃ es, s.agenda = .engine :: es

/-- The state a step's event acts on: the agenda without its first event. -/
def State.popped (s : State) : State := { s with agenda := s.agenda.tail }

end Machine

end Sys2Proof
end

