-- ==== Sys2Proof/Certificates/Slice0/Obligations.lean ====
section
/-! DEFINITION. The statements for the provers, each from the spec's numbered rules. `exec i s` is the
engine's atomic step on a decoded command; `step s` takes the next event of the agenda (log 1). A command
is written in the bits of its format beside the constructor it decodes to, so that the encoding its rule
gives is part of the statement. -/

open Sys2Proof Sys2Proof.Machine

/-! ### Encoding -/

/-- Every well-formed command survives encoding (rules R72 to R76). -/
def Obligations.DecodeOfEncode : Prop :=
  ∀ i : Instr, i.wellFormed = true → decode (encode i) = .command i

/-- A word that decodes to a command is that command's word, and the command is well formed: no two words
share a meaning (rule R80). -/
def Obligations.EncodeOfDecode : Prop :=
  ∀ (w : Word) (i : Instr), decode w = .command i → encode i = w ∧ i.wellFormed = true

/-- Words printed by the spec, decoded (rule R81 and 95_test_vectors.md section 2.1). -/
def Obligations.SpecWordsDecode : Prop :=
  decode 0x01FFFFF8 = .command (.ldi 31 65535) ∧ decode 0x02480000 = .command (.ldbe 9)
    ∧ decode 0x03030000 = .command (.stbe 12) ∧ decode 0x04388000 = .command (.mov 7 2)
    ∧ decode 0x05000020 = .command (.ldc 0 .p256 .p) ∧ decode 0x05400054 = .command (.ldc 8 .p384 .n)
    ∧ decode 0x10184400 = .command (.add 3 1 2) ∧ decode 0x1304D800 = .command (.cmp 19 12)
    ∧ decode 0x14107E00 = .command (.lsh 2 1 31) ∧ decode 0x207B5C80 = .command (.mulmod 15 13 14 8)
    ∧ decode 0x2118C000 = .command (.modp 3 3 .p256) ∧ decode 0x30180000 = .command (.jdbl 3 0 .p256)
    ∧ decode 0x32181204 = .command (.jmul 3 0 9 .p384) ∧ decode 0x3330C000 = .command (.fromj 6 3 .p256)
    ∧ decode 0x43346440 = .command (.shamir 6 17 18 4 .p256)

/-- A reserved opcode: the host's write is accepted, and the engine's step is the fault (rule R78). -/
def Obligations.ReservedOpcodeFaults : Prop :=
  ∀ (s : State) (w : Word) (es : List Event), w.extractLsb' 24 8 ∉ commandOpcodes →
    s.status.busy = false → s.status.err = false → s.agenda = .write 0x0000 w :: .engine :: es →
    ∃ t, step s = .next t ∧ t.answers = .ok :: s.answers ∧ t.cmd = w ∧ t.status.busy = true
      ∧ step t = .next (afterFault 0x01 t.popped)

/-- A set must-be-zero bit: the engine raises ILLEGAL_COMMAND and does nothing else. `row` runs over the
rows of opcode_table.json (rule R77). -/
def Obligations.MustBeZeroBitsFault : Prop :=
  ∀ (i : Instr) (s : State) (es : List Event), s.status.busy = true → s.agenda = .engine :: es →
    s.cmd.extractLsb' 24 8 = i.row.value.extractLsb' 24 8 → s.cmd &&& i.row.mask ≠ i.row.value →
    step s = .next (afterFault 0x01 s.popped)

/-- `cv` 2 and 3 are UNSUPPORTED_SCHEME exactly where the word is otherwise a command that uses `cv`; if it
is not, illegal wins (rule R79). -/
def Obligations.UnsupportedSchemeOnlyWhenLegal : Prop :=
  (∀ w : Word, decode w = .unsupportedScheme ↔
    2 ≤ (w.extractLsb' 2 2).toNat ∧ ∃ i, decode (w &&& 0xFFFFFFF3) = .command i ∧ i.usesScheme = true)
  ∧ ∀ (s : State) (es : List Event), s.status.busy = true → s.agenda = .engine :: es →
      decode s.cmd = .unsupportedScheme → step s = .next (afterFault 0x02 s.popped)

/-- The point base limits, command by command (rule R76). -/
def Obligations.PointBaseLimits : Prop :=
  (∀ (rd ra rb rc : RegIdx) (cv : Scheme),
    decode (encode (.jdbl rd ra cv)) = (if rd.toNat ≤ 29 ∧ ra.toNat ≤ 29
      then .command (.jdbl rd ra cv) else .illegal .pointBase)
    ∧ decode (encode (.jadd rd ra rb cv)) = (if rd.toNat ≤ 29 ∧ ra.toNat ≤ 29 ∧ rb.toNat ≤ 29
      then .command (.jadd rd ra rb cv) else .illegal .pointBase)
    ∧ decode (encode (.jmul rd ra rb cv)) = (if rd.toNat ≤ 29 ∧ ra.toNat ≤ 29
      then .command (.jmul rd ra rb cv) else .illegal .pointBase)
    ∧ decode (encode (.fromj rd ra cv)) = (if rd.toNat ≤ 30 ∧ ra.toNat ≤ 29
      then .command (.fromj rd ra cv) else .illegal .pointBase)
    ∧ decode (encode (.pmul rd ra rb cv)) = (if rd.toNat ≤ 30 ∧ ra.toNat ≤ 30
      then .command (.pmul rd ra rb cv) else .illegal .pointBase)
    ∧ decode (encode (.padd rd ra rb cv)) = (if rd.toNat ≤ 30 ∧ ra.toNat ≤ 30 ∧ rb.toNat ≤ 30
      then .command (.padd rd ra rb cv) else .illegal .pointBase)
    ∧ decode (encode (.pdbl rd ra cv)) = (if rd.toNat ≤ 30 ∧ ra.toNat ≤ 30
      then .command (.pdbl rd ra cv) else .illegal .pointBase)
    ∧ decode (encode (.pmulti rd ra rb cv)) = (if rd.toNat ≤ 30 ∧ ra.toNat ≤ 30
      then .command (.pmulti rd ra rb cv) else .illegal .pointBase)
    ∧ decode (encode (.shamir rd ra rb rc cv)) = (if rd.toNat ≤ 30 ∧ rc.toNat ≤ 30
      then .command (.shamir rd ra rb rc cv) else .illegal .pointBase))
  ∧ ∀ (s : State) (es : List Event), s.status.busy = true → s.agenda = .engine :: es →
      decode s.cmd = .illegal .pointBase → step s = .next (afterFault 0x01 s.popped)

/-! ### The step -/

/-- A step with the engine's turn runs the command latched in `CMD`, and takes the engine's event off the
agenda if one stands there; with no command running it changes nothing else. That the turn is the
engine's when the agenda is empty is the model's convention (log 1). -/
def Obligations.StepRunsDecodedInstruction : Prop :=
  ∀ s : State, EngineIsNext s →
    (∀ i, s.status.busy = true → decode s.cmd = .command i → step s = exec i s.popped)
    ∧ (s.status.busy = false → step s = .next s.popped)

/-- The two verdicts that are no commands become their faults (rules R80, R189, R190); an empty agenda
gives the engine the turn by the model's convention (log 1). -/
def Obligations.StepRaisesDecodingFaults : Prop :=
  ∀ s : State, EngineIsNext s → s.status.busy = true →
    (∀ why, decode s.cmd = .illegal why → step s = .next (afterFault 0x01 s.popped))
    ∧ (decode s.cmd = .unsupportedScheme → step s = .next (afterFault 0x02 s.popped))

/-- An accepted `CMD` write, then the engine's step: the host sees exactly these three moments (rules R23,
R226). -/
def Obligations.CommandLifecycle : Prop :=
  ∀ (s : State) (w : Word) (es : List Event), s.status.busy = false → s.status.err = false →
    s.agenda = .write 0x0000 w :: .engine :: es →
    ∃ t u, step s = .next t ∧ step t = .next u
      ∧ t = { s with
          cmd := w
          status := { busy := true, done := false, err := false }
          agenda := .engine :: es
          answers := .ok :: s.answers }
      ∧ (∀ i, decode w = .command i → exec i t.popped = .next u)
      ∧ u.cmd = w ∧ u.agenda = es ∧ u.answers = t.answers
      ∧ (u.status = { busy := false, done := true, err := false }
        ∨ (u.status = { busy := false, done := false, err := true } ∧ u.regs = s.regs ∧ u.buf = s.buf
          ∧ u.buflen = s.buflen ∧ u.flags = s.flags))

/-- From every state whatever a step answers a next state: no command and no transaction stops the machine
(rules R186, R226, R228). -/
def Obligations.EveryStepAnswersANextState : Prop :=
  ∀ s : State, ∃ t, step s = .next t

/-! ### Reset and the invariant -/

/-- The state after reset, the spec's values (rule R33). -/
def Obligations.ResetValues : Prop :=
  (∀ r : RegIdx, (State.reset.reg r).neg = false ∧ (State.reset.reg r).len = 1
    ∧ (∀ (k : Nat) (h : k < 32), (State.reset.reg r).limbs[k] = 0) ∧ State.reset.val r = 0
    ∧ (State.reset.reg r).header = 0x50000001)
  ∧ (∀ k < 128, State.reset.buf.read k = 0x00) ∧ State.reset.buflen = 0 ∧ State.reset.cmd = 0x00000000
  ∧ State.reset.flags = 0 ∧ State.reset.status = { busy := false, done := false, err := false }
  ∧ State.reset.errcode = 0
  ∧ rom .p256 =
    { a  := 0xFFFFFFFF00000001000000000000000000000000FFFFFFFFFFFFFFFFFFFFFFFC
      b  := 0x5AC635D8AA3A93E7B3EBBD55769886BC651D06B0CC53B0F63BCE3C3E27D2604B
      p  := 0xFFFFFFFF00000001000000000000000000000000FFFFFFFFFFFFFFFFFFFFFFFF
      gx := 0x6B17D1F2E12C4247F8BCE6E563A440F277037D812DEB33A0F4A13945D898C296
      gy := 0x4FE342E2FE1A7F9B8EE7EB4A7C0F9E162BCE33576B315ECECBB6406837BF51F5
      n  := 0xFFFFFFFF00000000FFFFFFFFFFFFFFFFBCE6FAADA7179E84F3B9CAC2FC632551 }
  ∧ rom .p384 =
    { a  := 0xFFFFFFFFFFFFFFFFFFFFFFFFFFFFFFFFFFFFFFFFFFFFFFFFFFFFFFFFFFFFFFFEFFFFFFFF0000000000000000FFFFFFFC
      b  := 0xB3312FA7E23EE7E4988E056BE3F82D19181D9C6EFE8141120314088F5013875AC656398D8A2ED19D2A85C8EDD3EC2AEF
      p  := 0xFFFFFFFFFFFFFFFFFFFFFFFFFFFFFFFFFFFFFFFFFFFFFFFFFFFFFFFFFFFFFFFEFFFFFFFF0000000000000000FFFFFFFF
      gx := 0xAA87CA22BE8B05378EB1C71EF320AD746E1D3B628BA79B9859F741E082542A385502F25DBF55296C3A545E3872760AB7
      gy := 0x3617DE4A96262C6F5D9E98BF9292DC29F8F41DBD289A147CE9DA3113B5F0B8C00A60B1CE1D7E819D7A431D7C90EA0E5F
      n  := 0xFFFFFFFFFFFFFFFFFFFFFFFFFFFFFFFFFFFFFFFFFFFFFFFFC7634D81F4372DDF581A0DB248B0A77AECEC196ACCC52973 }

/-- A reset event at any moment, also while a command runs: every piece of the core's state takes its reset
value, and no result of the command is written (rules R216, R218). That the rest of the agenda stands
(`t.agenda = es`) is the model's choice (DESIGN CHOICE, log 1), no rule of the spec. -/
def Obligations.ResetEventFromAnyState : Prop :=
  ∀ (s : State) (es : List Event), s.agenda = .reset :: es →
    ∃ t, step s = .next t ∧ SameCore State.reset t ∧ t.agenda = es

/-- The invariant holds after reset. -/
def Obligations.ResetMeetsInvariant : Prop := State.reset.Inv

/-- Every step keeps the invariant: canonical registers, canonical buffer, `FLAGS.CMP` never `0b10`, at
most one of `BUSY`, `DONE`, `ERR`, and `ERRCODE` in step with `ERR` (rules R16, R24, R25, R26, R188). -/
def Obligations.StepKeepsInvariant : Prop :=
  ∀ s t : State, s.Inv → step s = .next t → t.Inv

/-- Canonical form by its clauses, kept by every step whatever the rest of the state, and the bijection
between register contents and integers (rules R15, R16). -/
def Obligations.RegisterContentsAreTheIntegers : Prop :=
  (∀ b : BigInt, b.canonical = true ↔
    1 ≤ b.len ∧ b.len ≤ 32 ∧ (b.len = 1 ∨ b.limbs.toList.getD (b.len - 1) 0 ≠ 0)
      ∧ (∀ (k : Nat) (h : k < 32), b.len ≤ k → b.limbs[k] = 0) ∧ (b.mag = 0 → b.neg = false))
  ∧ (∀ r : RegIdx, (State.reset.reg r).canonical = true)
  ∧ (∀ s t : State, (∀ r : RegIdx, (s.reg r).canonical = true) → step s = .next t →
      ∀ r : RegIdx, (t.reg r).canonical = true)
  ∧ (∀ b : BigInt, b.val.natAbs < 2 ^ 1024)
  ∧ ∀ v : Int, v.natAbs < 2 ^ 1024 → ∃ b : BigInt, (b.canonical = true ∧ b.val = v)
      ∧ ∀ c : BigInt, c.canonical = true → c.val = v → c = b

/-! ### Faults and frames -/

/-- Fault entry: whatever command faults, exactly this changes (rule R187). -/
def Obligations.FaultEntryChangesNothingElse : Prop :=
  ∀ (i : Instr) (s t : State), exec i s = .next t → s.status.err = false → t.status.err = true →
    1 ≤ t.errcode.toNat ∧ t.errcode.toNat ≤ 8
      ∧ t = { s with
          status := { busy := false, done := s.status.done, err := true }
          errcode := t.errcode }

/-- Every legal command ends well or with one of the faults that rule R188 lists for it, from every state;
the two decoding faults are those of `StepRaisesDecodingFaults`. -/
def Obligations.CommandEndsWellOrFaultsByTable : Prop :=
  ∀ (i : Instr) (s : State), i.wellFormed = true → ∃ t, exec i s = .next t
    ∧ (EndedWell s t ∨ ∃ c ∈ i.faultCodes, t = afterFault c s)

/-- What each command leaves unchanged: all registers but its destinations, `FLAGS` but for `CMP`, `BUF`
and `BUFLEN` but for `STBE`, and always `CMD`; and how `STATUS` and `ERRCODE` end (rule R34). -/
def Obligations.CommandFrame : Prop :=
  ∀ (i : Instr) (s t : State), exec i s = .next t →
    (∀ r : RegIdx, r ∉ i.writes → t.reg r = s.reg r)
    ∧ ((∀ ra rb, i ≠ .cmp ra rb) → t.flags = s.flags)
    ∧ ((∀ ra, i ≠ .stbe ra) → t.buflen = s.buflen ∧ ∀ k, t.buf.read k = s.buf.read k)
    ∧ t.cmd = s.cmd ∧ t.agenda = s.agenda ∧ t.answers = s.answers
    ∧ ((t.status = { busy := false, done := true, err := s.status.err } ∧ t.errcode = s.errcode)
      ∨ ∃ c, t = afterFault c s)

/-- No command reads a register that is none of its source operands, nor `FLAGS`, `STATUS`, `ERRCODE`,
`CMD` or anything of the host's, and only `LDBE` reads the buffer: two states whose source registers hold
the same values give the same outcome and the same results, whatever else they hold (rules R10, R31,
R34). -/
def Obligations.CommandsReadOnlyTheirOperands : Prop :=
  ∀ (i : Instr) (s s' t t' : State), (∀ r ∈ i.reads, s'.val r = s.val r) →
    ((∃ rd, i = .ldbe rd) → s'.buf = s.buf ∧ s'.buflen = s.buflen) →
    s.status.err = false → s'.status.err = false → exec i s = .next t → exec i s' = .next t' →
    t'.status.err = t.status.err
      ∧ (t.status.err = true → t'.errcode = t.errcode)
      ∧ (t.status.err = false → ∀ r ∈ i.writes, t'.reg r = t.reg r)
      ∧ ((∃ ra rb, i = .cmp ra rb) → t'.flags = t.flags)
      ∧ ((∃ ra, i = .stbe ra) → t'.buflen = t.buflen
          ∧ ∀ k < t.buflen.toNat, s.buf.wf → s'.buf.wf → t'.buf.read k = t.buf.read k)

/-! ### The host's transactions -/

/-- The control registers as the host reads them: `CMD`, `STATUS`, `ERRCODE`, `FLAGS` at any time, `BUFLEN`
while no command runs (rules R22 to R26, R48). -/
def Obligations.ControlRegisterReads : Prop :=
  ∀ (s : State) (es : List Event) (a : Offset), s.agenda = .read a :: es →
    (a = 0x0000 → step s = .next (s.answered es (.data s.cmd)))
    ∧ (a = 0x0004 → step s = .next (s.answered es (.data
        (BitVec.ofNat 32 (s.status.busy.toNat + 2 * s.status.done.toNat + 4 * s.status.err.toNat)))))
    ∧ (a = 0x0008 → step s = .next (s.answered es (.data (BitVec.ofNat 32 s.errcode.toNat))))
    ∧ (a = 0x000C → step s = .next (s.answered es (.data (BitVec.ofNat 32 s.flags.toNat))))
    ∧ (a = 0x0010 → s.status.busy = false →
        step s = .next (s.answered es (.data (BitVec.ofNat 32 s.buflen.toNat))))

/-- The register window: limb `k` at its offset, zero from `len` on, the low `n` limbs the value modulo
`2^(32 n)`, and no write (rule R49). -/
def Obligations.LimbWindow : Prop :=
  ∀ (s : State) (r : RegIdx) (es : List Event),
    (∀ (k : Nat) (h : k < 32), s.status.busy = false → s.agenda = .read (limbOffset r k) :: es →
      step s = .next (s.answered es (.data (s.reg r).limbs[k])))
    ∧ ((s.reg r).canonical = true →
        (∀ (k : Nat) (h : k < 32), (s.reg r).len ≤ k → (s.reg r).limbs[k] = 0)
        ∧ ∀ n ≤ 32, limbsValue ((s.reg r).limbs.toList.take n) = (s.val r).natAbs % 2 ^ (32 * n))
    ∧ (∀ (k : Nat) (d : Word), k ≤ 32 → s.agenda = .write (limbOffset r k) d :: es →
        step s = .next (s.answered es .busError))

/-- The header word, bit by bit, of a register in canonical form (rules R17, R50). -/
def Obligations.HeaderWord : Prop :=
  ∀ (s : State) (r : RegIdx) (es : List Event), (s.reg r).canonical = true → s.status.busy = false →
    s.agenda = .read (hdrOffset r) :: es →
    ∃ w : Word, step s = .next (s.answered es (.data w))
      ∧ w.getLsbD 31 = decide (s.val r < 0) ∧ w.getLsbD 30 = decide (s.val r = 0)
      ∧ w.getLsbD 29 = decide (s.val r = 1) ∧ w.getLsbD 28 = decide (s.val r % 2 = 0)
      ∧ w.extractLsb' 8 20 = 0 ∧ (w.extractLsb' 0 8).toNat = (s.reg r).len
      ∧ 1 ≤ (s.reg r).len ∧ (s.reg r).len ≤ 32

/-- The buffer window: four bytes in little-endian lanes; a write replaces all four and nothing else (rule
R51). -/
def Obligations.BufferWindow : Prop :=
  ∀ (s : State) (w : Nat) (es : List Event) (d : Word), w < 32 → s.status.busy = false → s.buf.wf →
    (s.agenda = .read (bufwOffset w) :: es →
      ∃ x : Word, step s = .next (s.answered es (.data x))
        ∧ x.extractLsb' 0 8 = s.buf.read (4 * w) ∧ x.extractLsb' 8 8 = s.buf.read (4 * w + 1)
        ∧ x.extractLsb' 16 8 = s.buf.read (4 * w + 2) ∧ x.extractLsb' 24 8 = s.buf.read (4 * w + 3))
    ∧ (s.agenda = .write (bufwOffset w) d :: es →
      ∃ m : Memory, step s = .next { s with buf := m, agenda := es, answers := .ok :: s.answers } ∧ m.wf
        ∧ ∀ k, m.read k =
          if k = 4 * w then d.extractLsb' 0 8
          else if k = 4 * w + 1 then d.extractLsb' 8 8
          else if k = 4 * w + 2 then d.extractLsb' 16 8
          else if k = 4 * w + 3 then d.extractLsb' 24 8
          else s.buf.read k)

/-- Misaligned and unmapped offsets, writes to read-only locations, and everything that a running command
shuts out: `bus_error`, and nothing changes (rules R53, R54, R57, R202). -/
def Obligations.RefusedTransactionsChangeNothing : Prop :=
  ∀ (s : State) (es : List Event) (a : Offset) (d : Word),
    (s.agenda = .read a :: es →
      ¬Mapped a ∨ (s.status.busy = true ∧ a ≠ 0x0000 ∧ a ≠ 0x0004 ∧ a ≠ 0x0008 ∧ a ≠ 0x000C) →
      step s = .next (s.answered es .busError))
    ∧ (s.agenda = .write a d :: es → ¬Mapped a ∨ ¬Writable a ∨ s.status.busy = true →
      step s = .next (s.answered es .busError))

/-- While a command runs: the four registers answer with their values, every other transaction is refused
(rule R57). -/
def Obligations.BusyCoreAnswers : Prop :=
  ∀ (s : State) (es : List Event) (a : Offset), s.status.busy = true →
    (s.agenda = .read a :: es → step s = .next (s.answered es
      (if a = 0x0000 then .data s.cmd
       else if a = 0x0004 then .data (BitVec.ofNat 32
         (1 + 2 * s.status.done.toNat + 4 * s.status.err.toNat))
       else if a = 0x0008 then .data (BitVec.ofNat 32 s.errcode.toNat)
       else if a = 0x000C then .data (BitVec.ofNat 32 s.flags.toNat)
       else .busError)))
    ∧ ∀ d : Word, s.agenda = .write a d :: es → step s = .next (s.answered es .busError)

/-- Side effects of accesses: reads have none; a `CMD` write is accepted exactly while neither `BUSY` nor
`ERR` is set; a `STATUS` write clears what is written as 1; a `BUFLEN` write stores its low byte and a
`BUFW` write its four bytes from index `4 * w` on, and nothing else (rule R56). -/
def Obligations.HostAccessSideEffects : Prop :=
  ∀ (s : State) (es : List Event) (a : Offset) (d : Word),
    (s.agenda = .read a :: es → ∃ ans, step s = .next (s.answered es ans))
    ∧ (s.agenda = .write 0x0000 d :: es →
        step s = .next
          (if s.status.busy = false ∧ s.status.err = false then
            { s with
              cmd := d
              status := { busy := true, done := false, err := false }
              agenda := es
              answers := .ok :: s.answers }
          else s.answered es .busError))
    ∧ (s.agenda = .write 0x0004 d :: es → s.status.busy = false →
        step s = .next
          { s with
            status :=
              { busy := false
                done := s.status.done && !d.getLsbD 1
                err := s.status.err && !d.getLsbD 2 }
            errcode := if d.getLsbD 2 then 0 else s.errcode
            agenda := es
            answers := .ok :: s.answers })
    ∧ (s.agenda = .write 0x0010 d :: es → s.status.busy = false →
        step s = .next
          { s with
            buflen := BitVec.ofNat 8 (d.toNat % 256)
            agenda := es
            answers := .ok :: s.answers })
    ∧ (∀ w < 32, s.agenda = .write (bufwOffset w) d :: es → s.status.busy = false →
        step s = .next
          { s with
            buf := s.buf.writeBytes (4 * w) (wordBytes d)
            agenda := es
            answers := .ok :: s.answers })

/-- The host cannot write a BigInteger register, nor `FLAGS`, nor raise a fault: whatever transaction comes
next, those stay, and an accepted write went to a location that the host may write (rule R55). -/
def Obligations.HostNeverWritesARegister : Prop :=
  ∀ (s t : State) (es : List Event) (e : Event), s.agenda = e :: es → e ≠ .engine → e ≠ .reset →
    step s = .next t →
    t.regs = s.regs ∧ t.flags = s.flags ∧ (t.status.err = true → s.status.err = true)
      ∧ (∀ a d, e = .write a d → t.answers ≠ .busError :: s.answers → Writable a)
      ∧ (∀ a, e = .read a → Mapped a → s.status.busy = false →
          ∃ w, t.answers = .data w :: s.answers)

/-- A command that faults, and the host's clear after it: the core is as before the command, apart from
`CMD` and `DONE = 0`; until the clear no command is accepted (rule R198). -/
def Obligations.ClearedFaultRestoresState : Prop :=
  ∀ (s t u : State) (w d x : Word) (es : List Event), s.Inv → s.status.busy = false →
    s.status.err = false → s.agenda = .write 0x0000 w :: .engine :: .write 0x0000 x :: .write 0x0004 d :: es →
    step s = .next t → step t = .next u → u.status.err = true → d.getLsbD 2 = true →
    ∃ v y, step u = .next v ∧ v = u.answered (.write 0x0004 d :: es) .busError ∧ step v = .next y
      ∧ y = { s with
          cmd := w
          status := { busy := false, done := false, err := false }
          agenda := es
          answers := .ok :: .busError :: .ok :: s.answers }

/-! ### Transfer commands -/

/-- `LDI` (rule R92). -/
def Obligations.LdiLoadsImmediate : Prop :=
  ∀ (rd : RegIdx) (imm : BitVec 16) (s : State),
    decode (0x01#8 ++ rd ++ imm ++ 0#3) = .command (.ldi rd imm)
    ∧ ∃ t, exec (.ldi rd imm) s = .next t ∧ WroteExactly s t [(rd, (imm.toNat : Int))]

/-- `LDBE` (rule R93). -/
def Obligations.LdbeLoadsBuffer : Prop :=
  ∀ (rd : RegIdx) (s : State),
    decode (0x02#8 ++ rd ++ 0#19) = .command (.ldbe rd)
    ∧ (s.buflen.toNat = 0 ∨ 128 < s.buflen.toNat → exec (.ldbe rd) s = .next (afterFault 0x03 s))
    ∧ (1 ≤ s.buflen.toNat → s.buflen.toNat ≤ 128 →
        ∃ t, exec (.ldbe rd) s = .next t
          ∧ WroteExactly s t [(rd, ((∑ k ∈ Finset.range s.buflen.toNat,
              (s.buf.read k).toNat * 256 ^ (s.buflen.toNat - 1 - k) : Nat) : Int))])

/-- `STBE`: the minimal big-endian magnitude from `BUF[0]` on, `BUFLEN` its length, and nothing else (rules
R65, R94). -/
def Obligations.StbeStoresMagnitude : Prop :=
  ∀ (ra : RegIdx) (s : State) (m n : Nat), s.buf.wf → m = (s.val ra).natAbs →
    n = max 1 ((bitlen m + 7) / 8) →
    decode (0x03#8 ++ 0#5 ++ ra ++ 0#14) = .command (.stbe ra)
    ∧ 1 ≤ n ∧ n ≤ 128
    ∧ ∃ t, exec (.stbe ra) s = .next t
      ∧ (∀ k < n, (t.buf.read k).toNat = m / 256 ^ (n - 1 - k) % 256)
      ∧ (∀ k, n ≤ k → t.buf.read k = s.buf.read k)
      ∧ t.buflen.toNat = n ∧ t.buf.wf ∧ t.regs = s.regs ∧ t.flags = s.flags ∧ t.cmd = s.cmd
      ∧ t.errcode = s.errcode ∧ t.agenda = s.agenda ∧ t.answers = s.answers ∧ EndedWell s t

/-- `STBE` and then `LDBE` give the magnitude back (rules R93, R94). -/
def Obligations.StbeThenLdbeGivesMagnitude : Prop :=
  ∀ (ra rd : RegIdx) (s : State), s.buf.wf →
    ∃ t u, exec (.stbe ra) s = .next t ∧ exec (.ldbe rd) t = .next u ∧ u.val rd = ((s.val ra).natAbs : Int)
      ∧ (∀ r : RegIdx, r ≠ rd → u.reg r = s.reg r)

/-- `MOV` (rule R95). -/
def Obligations.MovCopies : Prop :=
  ∀ (rd ra : RegIdx) (s : State),
    decode (0x04#8 ++ rd ++ ra ++ 0#14) = .command (.mov rd ra)
    ∧ ∃ t, exec (.mov rd ra) s = .next t ∧ WroteExactly s t [(rd, s.val ra)]

/-- `LDC`: the constant that `sel` selects, 6 and 7 illegal, `cv` 2 and 3 unsupported (rules R74, R96). -/
def Obligations.LdcLoadsConstant : Prop :=
  ∀ (rd : RegIdx) (cv : Scheme) (s : State),
    (∀ x ∈ [((0 : BitVec 3), CurveConst.a, (rom cv).a), (1, .b, (rom cv).b), (2, .p, (rom cv).p),
        (3, .gx, (rom cv).gx), (4, .gy, (rom cv).gy), (5, .n, (rom cv).n)],
      decode (0x05#8 ++ rd ++ 0#12 ++ x.1 ++ cv.bits ++ 0#2) = .command (.ldc rd cv x.2.1)
      ∧ ∃ t, exec (.ldc rd cv x.2.1) s = .next t ∧ WroteExactly s t [(rd, x.2.2)])
    ∧ ∀ (sel : BitVec 3) (c : BitVec 2),
      (6 ≤ sel.toNat → decode (0x05#8 ++ rd ++ 0#12 ++ sel ++ c ++ 0#2) = .illegal .constSelector)
      ∧ (sel.toNat < 6 → 2 ≤ c.toNat →
          decode (0x05#8 ++ rd ++ 0#12 ++ sel ++ c ++ 0#2) = .unsupportedScheme)

/-! ### BigInteger arithmetic -/

/-- `ADD` (rule R97). -/
def Obligations.AddComputesSum : Prop :=
  ∀ (rd ra rb : RegIdx) (s : State),
    decode (0x10#8 ++ rd ++ ra ++ rb ++ 0#9) = .command (.add rd ra rb)
    ∧ ((s.val ra + s.val rb).natAbs < 2 ^ 1024 →
        ∃ t, exec (.add rd ra rb) s = .next t ∧ WroteExactly s t [(rd, s.val ra + s.val rb)])
    ∧ (2 ^ 1024 ≤ (s.val ra + s.val rb).natAbs → exec (.add rd ra rb) s = .next (afterFault 0x04 s))

/-- `SUB` (rule R99). -/
def Obligations.SubComputesDifference : Prop :=
  ∀ (rd ra rb : RegIdx) (s : State),
    decode (0x11#8 ++ rd ++ ra ++ rb ++ 0#9) = .command (.sub rd ra rb)
    ∧ ((s.val ra - s.val rb).natAbs < 2 ^ 1024 →
        ∃ t, exec (.sub rd ra rb) s = .next t ∧ WroteExactly s t [(rd, s.val ra - s.val rb)])
    ∧ (2 ^ 1024 ≤ (s.val ra - s.val rb).natAbs → exec (.sub rd ra rb) s = .next (afterFault 0x04 s))

/-- `MUL` (rule R101). -/
def Obligations.MulComputesProduct : Prop :=
  ∀ (rd ra rb : RegIdx) (s : State),
    decode (0x12#8 ++ rd ++ ra ++ rb ++ 0#9) = .command (.mul rd ra rb)
    ∧ ((s.val ra * s.val rb).natAbs < 2 ^ 1024 →
        ∃ t, exec (.mul rd ra rb) s = .next t ∧ WroteExactly s t [(rd, s.val ra * s.val rb)])
    ∧ (2 ^ 1024 ≤ (s.val ra * s.val rb).natAbs → exec (.mul rd ra rb) s = .next (afterFault 0x04 s))

/-- `CMP`: the flag is -1, 0 or +1 as two's complement, and nothing else is written (rules R24, R103). -/
def Obligations.CmpSetsFlags : Prop :=
  ∀ (ra rb : RegIdx) (s : State),
    decode (0x13#8 ++ 0#5 ++ ra ++ rb ++ 0#9) = .command (.cmp ra rb)
    ∧ ∃ t, exec (.cmp ra rb) s = .next t
      ∧ t.flags.toInt = (if s.val ra < s.val rb then -1 else if s.val ra = s.val rb then 0 else 1)
      ∧ t = { s with
          flags := t.flags
          status := { busy := false, done := true, err := s.status.err } }

/-- `LSH` (rule R104). -/
def Obligations.LshMultiplies : Prop :=
  ∀ (rd ra : RegIdx) (sh : BitVec 5) (s : State),
    decode (0x14#8 ++ rd ++ ra ++ sh ++ 0#9) = .command (.lsh rd ra sh)
    ∧ ((s.val ra * 2 ^ sh.toNat).natAbs < 2 ^ 1024 →
        ∃ t, exec (.lsh rd ra sh) s = .next t ∧ WroteExactly s t [(rd, s.val ra * 2 ^ sh.toNat)])
    ∧ (2 ^ 1024 ≤ (s.val ra * 2 ^ sh.toNat).natAbs → exec (.lsh rd ra sh) s = .next (afterFault 0x04 s))

/-- `RSH`: the magnitude shifted, the sign kept (rule R105). -/
def Obligations.RshShiftsMagnitude : Prop :=
  ∀ (rd ra : RegIdx) (sh : BitVec 5) (s : State),
    decode (0x15#8 ++ rd ++ ra ++ sh ++ 0#9) = .command (.rsh rd ra sh)
    ∧ ∃ t, exec (.rsh rd ra sh) s = .next t
      ∧ WroteExactly s t [(rd, if s.val ra < 0 then -(((s.val ra).natAbs / 2 ^ sh.toNat : Nat) : Int)
          else (((s.val ra).natAbs / 2 ^ sh.toNat : Nat) : Int))]

/-- `DIV`: the quotient truncated toward zero (rule R107). -/
def Obligations.DivTruncates : Prop :=
  ∀ (rd ra rb : RegIdx) (s : State),
    decode (0x16#8 ++ rd ++ ra ++ rb ++ 0#9) = .command (.div rd ra rb)
    ∧ (s.val rb ≤ 0 → exec (.div rd ra rb) s = .next (afterFault 0x05 s))
    ∧ (0 < s.val rb → ∃ t, exec (.div rd ra rb) s = .next t
        ∧ WroteExactly s t [(rd, if s.val ra < 0 then -(((s.val ra).natAbs / (s.val rb).natAbs : Nat) : Int)
            else (((s.val ra).natAbs / (s.val rb).natAbs : Nat) : Int))])

/-- `MOD`: the `r` with `0 <= r < m` and `m` dividing `a - r` (rules R8, R109). -/
def Obligations.ModIsEuclidean : Prop :=
  ∀ (rd ra rb : RegIdx) (s : State),
    decode (0x17#8 ++ rd ++ ra ++ rb ++ 0#9) = .command (.mod rd ra rb)
    ∧ (s.val rb ≤ 0 → exec (.mod rd ra rb) s = .next (afterFault 0x06 s))
    ∧ (0 < s.val rb → ∃ t r, exec (.mod rd ra rb) s = .next t ∧ 0 ≤ r ∧ r < s.val rb
        ∧ s.val rb ∣ s.val ra - r ∧ WroteExactly s t [(rd, r)])

/-- `INV`: the one inverse in `[1, m)`, or the fault that rule R197 puts first (rules R111, R197). -/
def Obligations.InvIsTheInverse : Prop :=
  ∀ (rd ra rb : RegIdx) (s : State),
    decode (0x18#8 ++ rd ++ ra ++ rb ++ 0#9) = .command (.inv rd ra rb)
    ∧ (s.val rb < 2 → exec (.inv rd ra rb) s = .next (afterFault 0x06 s))
    ∧ (2 ≤ s.val rb → Int.gcd (s.val ra % s.val rb) (s.val rb) ≠ 1 →
        exec (.inv rd ra rb) s = .next (afterFault 0x07 s))
    ∧ (2 ≤ s.val rb → Int.gcd (s.val ra % s.val rb) (s.val rb) = 1 →
        ∃ t v, exec (.inv rd ra rb) s = .next t ∧ 1 ≤ v ∧ v < s.val rb ∧ s.val ra * v % s.val rb = 1
          ∧ (∀ x, 1 ≤ x → x < s.val rb → s.val ra * x % s.val rb = 1 → x = v)
          ∧ WroteExactly s t [(rd, v)])

/-! ### Modular commands -/

/-- `MULMOD`: the residue of the unbounded product, equal to `MUL` and then `MOD` where `MUL` does not
overflow (rule R131). -/
def Obligations.MulmodIsTheResidue : Prop :=
  ∀ (rd ra rb rc : RegIdx) (s : State),
    decode (0x20#8 ++ rd ++ ra ++ rb ++ rc ++ 0#4) = .command (.mulmod rd ra rb rc)
    ∧ (s.val rc ≤ 0 → exec (.mulmod rd ra rb rc) s = .next (afterFault 0x06 s))
    ∧ (0 < s.val rc → ∃ t r, exec (.mulmod rd ra rb rc) s = .next t ∧ 0 ≤ r ∧ r < s.val rc
        ∧ s.val rc ∣ s.val ra * s.val rb - r ∧ WroteExactly s t [(rd, r)])
    ∧ ((s.val ra * s.val rb).natAbs < 2 ^ 1024 → 0 < s.val rc → rc ≠ rd →
        ∃ t u v, exec (.mul rd ra rb) s = .next t ∧ exec (.mod rd rd rc) t = .next u
          ∧ exec (.mulmod rd ra rb rc) s = .next v ∧ v.regs = u.regs)

/-- `MODP`: the residue by the field prime, equal to `LDC` of `P` and then `MOD`; `cv` 2 and 3 unsupported
(rule R133). -/
def Obligations.ModpIsTheFieldResidue : Prop :=
  ∀ (rd ra : RegIdx) (cv : Scheme) (s : State),
    decode (0x21#8 ++ rd ++ ra ++ 0#10 ++ cv.bits ++ 0#2) = .command (.modp rd ra cv)
    ∧ (∃ t r, exec (.modp rd ra cv) s = .next t ∧ 0 ≤ r ∧ r < (rom cv).p ∧ (rom cv).p ∣ s.val ra - r
        ∧ WroteExactly s t [(rd, r)])
    ∧ (∀ rt : RegIdx, rt ≠ ra → ∃ t u v, exec (.ldc rt cv .p) s = .next t
        ∧ exec (.mod rd ra rt) t = .next u ∧ exec (.modp rd ra cv) s = .next v ∧ u.val rd = v.val rd)
    ∧ (∀ c : BitVec 2, 2 ≤ c.toNat →
        decode (0x21#8 ++ rd ++ ra ++ 0#10 ++ c ++ 0#2) = .unsupportedScheme)

/-! ### Jacobian commands -/

/-- `JDBL`: the lines of `JDouble` on the coordinates that the operand's registers hold (rules R141, R143,
R144). -/
def Obligations.JdblDoubles : Prop :=
  ∀ (rd ra : RegIdx) (cv : Scheme) (s : State) (p x y z : Int), rd.toNat ≤ 29 → ra.toNat ≤ 29 →
    p = (rom cv).p → x = s.val ra → y = s.val (ra + 1) → z = s.val (ra + 2) →
    decode (0x30#8 ++ rd ++ ra ++ 0#10 ++ cv.bits ++ 0#2) = .command (.jdbl rd ra cv)
    ∧ (y = 0 → ∃ t, exec (.jdbl rd ra cv) s = .next t
        ∧ WroteExactly s t [(rd, 0), (rd + 1, 0), (rd + 2, 1)])
    ∧ (y ≠ 0 → ∀ ysq sx m x3 : Int, ysq = y * y % p → sx = 4 * x * ysq % p →
        m = (3 * x * x + (rom cv).a * z ^ 4) % p → x3 = (m * m - 2 * sx) % p →
        ∃ t, exec (.jdbl rd ra cv) s = .next t
          ∧ WroteExactly s t [(rd, x3), (rd + 1, (m * (sx - x3) - 8 * ysq * ysq) % p),
              (rd + 2, 2 * y * z % p)])

/-- `JADD`: the lines of `JAdd`, in their order; in the coincide branch the result is the double of the
first operand (rules R145 to R147). -/
def Obligations.JaddAdds : Prop :=
  ∀ (rd ra rb : RegIdx) (cv : Scheme) (s : State) (p x1 y1 z1 x2 y2 z2 : Int),
    rd.toNat ≤ 29 → ra.toNat ≤ 29 → rb.toNat ≤ 29 → p = (rom cv).p →
    x1 = s.val ra → y1 = s.val (ra + 1) → z1 = s.val (ra + 2) →
    x2 = s.val rb → y2 = s.val (rb + 1) → z2 = s.val (rb + 2) →
    decode (0x31#8 ++ rd ++ ra ++ rb ++ 0#5 ++ cv.bits ++ 0#2) = .command (.jadd rd ra rb cv)
    ∧ (y1 = 0 → ∃ t, exec (.jadd rd ra rb cv) s = .next t
        ∧ WroteExactly s t [(rd, x2), (rd + 1, y2), (rd + 2, z2)])
    ∧ (y1 ≠ 0 → y2 = 0 → ∃ t, exec (.jadd rd ra rb cv) s = .next t
        ∧ WroteExactly s t [(rd, x1), (rd + 1, y1), (rd + 2, z1)])
    ∧ (y1 ≠ 0 → y2 ≠ 0 → ∀ u1 u2 s1 s2 : Int, u1 = x1 * z2 * z2 % p → u2 = x2 * z1 * z1 % p →
        s1 = y1 * z2 ^ 3 % p → s2 = y2 * z1 ^ 3 % p →
        (u1 = u2 → s1 ≠ s2 → ∃ t, exec (.jadd rd ra rb cv) s = .next t
          ∧ WroteExactly s t [(rd, 0), (rd + 1, 0), (rd + 2, 1)])
        ∧ (u1 = u2 → s1 = s2 → exec (.jadd rd ra rb cv) s = exec (.jdbl rd ra cv) s)
        ∧ (u1 ≠ u2 → ∀ h rr h2 h3 u1h2 x3 : Int, h = u2 - u1 → rr = s2 - s1 → h2 = h * h % p →
          h3 = h * h2 % p → u1h2 = u1 * h2 % p → x3 = (rr * rr - h3 - 2 * u1h2) % p →
          ∃ t, exec (.jadd rd ra rb cv) s = .next t
            ∧ WroteExactly s t [(rd, x3), (rd + 1, (rr * (u1h2 - x3) - s1 * h3) % p),
                (rd + 2, h * z1 * z2 % p)]))

/-- `JMUL`: the result is `JMul` of the operand and the scalar, and `JMul` is the function that the
recursion of rule R148 defines (rules R148, R149). -/
def Obligations.JmulIsRecursive : Prop :=
  (∀ (rd ra rb : RegIdx) (cv : Scheme) (s : State), rd.toNat ≤ 29 → ra.toNat ≤ 29 →
    decode (0x32#8 ++ rd ++ ra ++ rb ++ 0#5 ++ cv.bits ++ 0#2) = .command (.jmul rd ra rb cv)
    ∧ ∃ t, exec (.jmul rd ra rb cv) s = .next t
      ∧ WroteExactly s t (tripleAt rd
          (jMul cv { x := s.val ra, y := s.val (ra + 1), z := s.val (ra + 2) } (s.val rb))))
  ∧ ∀ (cv : Scheme) (q : JPoint) (n : Int),
    (n < 0 ∨ (rom cv).n ≤ n → jMul cv q n = jMul cv q (n % (rom cv).n))
    ∧ (0 ≤ n → n < (rom cv).n →
        (n = 0 ∨ q.y = 0 → jMul cv q n = { x := 0, y := 0, z := 1 })
        ∧ (n = 1 → q.y ≠ 0 → jMul cv q n = q)
        ∧ (2 ≤ n → q.y ≠ 0 → n % 2 = 0 → jMul cv q n = jDouble cv (jMul cv q (n / 2)))
        ∧ (2 ≤ n → q.y ≠ 0 → n % 2 = 1 → jMul cv q n = jAdd cv (jDouble cv (jMul cv q (n / 2))) q))

/-- The loop from the most significant bit down returns the same triple as the recursion (rule R150). -/
def Obligations.JmulIterativeForm : Prop :=
  ∀ (cv : Scheme) (q : JPoint) (n : Int), jMul cv q n = jMulIterative cv q n

/-- `FROMJ`: division by `Z`, or the fault where `Z` is zero modulo the prime (rules R151, R152). -/
def Obligations.FromjDividesByZ : Prop :=
  ∀ (rd ra : RegIdx) (cv : Scheme) (s : State) (p : Int), rd.toNat ≤ 30 → ra.toNat ≤ 29 →
    p = (rom cv).p →
    decode (0x33#8 ++ rd ++ ra ++ 0#10 ++ cv.bits ++ 0#2) = .command (.fromj rd ra cv)
    ∧ (s.val (ra + 2) % p = 0 → exec (.fromj rd ra cv) s = .next (afterFault 0x07 s))
    ∧ (s.val (ra + 2) % p ≠ 0 → ∃ t z, exec (.fromj rd ra cv) s = .next t
        ∧ 1 ≤ z ∧ z < p ∧ s.val (ra + 2) * z % p = 1
        ∧ WroteExactly s t [(rd, s.val ra * z * z % p), (rd + 1, s.val (ra + 1) * z * z * z % p)])

/-- `PMUL`: `JMul` of `(x, y, 1)` and then `FromJ` (rule R153). -/
def Obligations.PmulMultiplies : Prop :=
  ∀ (rd ra rb : RegIdx) (cv : Scheme) (s : State) (p : Int) (q : JPoint), rd.toNat ≤ 30 →
    ra.toNat ≤ 30 → p = (rom cv).p →
    q = jMul cv { x := s.val ra, y := s.val (ra + 1), z := 1 } (s.val rb) →
    decode (0x34#8 ++ rd ++ ra ++ rb ++ 0#5 ++ cv.bits ++ 0#2) = .command (.pmul rd ra rb cv)
    ∧ (q.z % p = 0 → exec (.pmul rd ra rb cv) s = .next (afterFault 0x07 s))
    ∧ (q.z % p ≠ 0 → ∃ t z, exec (.pmul rd ra rb cv) s = .next t
        ∧ 1 ≤ z ∧ z < p ∧ q.z * z % p = 1
        ∧ WroteExactly s t [(rd, q.x * z * z % p), (rd + 1, q.y * z * z * z % p)])
    ∧ (s.val rb % (rom cv).n = 0 ∨ s.val (ra + 1) = 0 → ∃ t, exec (.pmul rd ra rb cv) s = .next t
        ∧ WroteExactly s t [(rd, 0), (rd + 1, 0)])
    ∧ (s.val rb % (rom cv).n = 1 → s.val (ra + 1) ≠ 0 → ∃ t, exec (.pmul rd ra rb cv) s = .next t
        ∧ WroteExactly s t [(rd, s.val ra % p), (rd + 1, s.val (ra + 1) % p)])

/-- The Jacobian formulas and the affine ones compute the same points: `FromJ` of a double, and of a sum in
every branch of `JAdd`, is the affine double and sum (rules R143, R145, R151, R155, R168, R170). -/
def Obligations.JacobianAgreesWithAffine : Prop :=
  ∀ (cv : Scheme) (q r : JPoint) (a b : APoint), q.y % (rom cv).p ≠ 0 → r.y % (rom cv).p ≠ 0 →
    fromJ cv q = .ok a → fromJ cv r = .ok b →
    fromJ cv (jDouble cv q) = aDouble cv a ∧ fromJ cv (jAdd cv q r) = aAdd cv a b

/-! ### Affine commands -/

/-- `PDBL`: the tangent formulas on reduced coordinates, infinity where `y` reduces to zero; never a fault
(rules R166 to R169, R177). -/
def Obligations.PdblDoubles : Prop :=
  ∀ (rd ra : RegIdx) (cv : Scheme) (s : State) (p x y : Int), rd.toNat ≤ 30 → ra.toNat ≤ 30 →
    p = (rom cv).p → x = s.val ra % p → y = s.val (ra + 1) % p →
    decode (0x41#8 ++ rd ++ ra ++ 0#10 ++ cv.bits ++ 0#2) = .command (.pdbl rd ra cv)
    ∧ (y = 0 → ∃ t, exec (.pdbl rd ra cv) s = .next t ∧ WroteExactly s t [(rd, 0), (rd + 1, 0)])
    ∧ (y ≠ 0 → ∃ t i l x3, exec (.pdbl rd ra cv) s = .next t
        ∧ 1 ≤ i ∧ i < p ∧ 2 * y * i % p = 1 ∧ l = (3 * x * x + (rom cv).a) * i % p
        ∧ x3 = (l * l - 2 * x) % p ∧ WroteExactly s t [(rd, x3), (rd + 1, (l * (x - x3) - y) % p)])

/-- `PADD`: the lines of `AAdd` on reduced coordinates, in their order; never a fault (rules R166, R167,
R170, R171, R177). -/
def Obligations.PaddAdds : Prop :=
  ∀ (rd ra rb : RegIdx) (cv : Scheme) (s : State) (p x1 y1 x2 y2 : Int),
    rd.toNat ≤ 30 → ra.toNat ≤ 30 → rb.toNat ≤ 30 → p = (rom cv).p →
    x1 = s.val ra % p → y1 = s.val (ra + 1) % p → x2 = s.val rb % p → y2 = s.val (rb + 1) % p →
    decode (0x40#8 ++ rd ++ ra ++ rb ++ 0#5 ++ cv.bits ++ 0#2) = .command (.padd rd ra rb cv)
    ∧ (x1 = 0 ∧ y1 = 0 → ∃ t, exec (.padd rd ra rb cv) s = .next t
        ∧ WroteExactly s t [(rd, x2), (rd + 1, y2)])
    ∧ (¬(x1 = 0 ∧ y1 = 0) → x2 = 0 ∧ y2 = 0 → ∃ t, exec (.padd rd ra rb cv) s = .next t
        ∧ WroteExactly s t [(rd, x1), (rd + 1, y1)])
    ∧ (¬(x1 = 0 ∧ y1 = 0) → ¬(x2 = 0 ∧ y2 = 0) →
        (x1 = x2 → y1 = y2 → exec (.padd rd ra rb cv) s = exec (.pdbl rd ra cv) s)
        ∧ (x1 = x2 → y1 ≠ y2 → ∃ t, exec (.padd rd ra rb cv) s = .next t
          ∧ WroteExactly s t [(rd, 0), (rd + 1, 0)])
        ∧ (x1 ≠ x2 → ∃ t i l x3, exec (.padd rd ra rb cv) s = .next t
          ∧ 1 ≤ i ∧ i < p ∧ (x2 - x1) * i % p = 1 ∧ l = (y2 - y1) * i % p
          ∧ x3 = (l * l - x1 - x2) % p
          ∧ WroteExactly s t [(rd, x3), (rd + 1, (l * (x1 - x3) - y1) % p)]))

/-- `PMULTI`: the double-and-add of `AMulti`, from the most significant bit down, for a scalar that is not
reduced; a negative one is a fault (rules R172, R173, R177). -/
def Obligations.PmultiMultiplies : Prop :=
  (∀ (rd ra rb : RegIdx) (cv : Scheme) (s : State), rd.toNat ≤ 30 → ra.toNat ≤ 30 →
    decode (0x42#8 ++ rd ++ ra ++ rb ++ 0#5 ++ cv.bits ++ 0#2) = .command (.pmulti rd ra rb cv)
    ∧ (s.val rb < 0 → exec (.pmulti rd ra rb cv) s = .next (afterFault 0x08 s))
    ∧ (0 ≤ s.val rb → ∃ t q, exec (.pmulti rd ra rb cv) s = .next t
        ∧ aMulti cv { x := s.val ra, y := s.val (ra + 1) } (s.val rb).toNat = .ok q
        ∧ WroteExactly s t (pairAt rd q)))
  ∧ ∀ (cv : Scheme) (q : APoint),
    aMulti cv q 0 = .ok { x := 0, y := 0 }
    ∧ aMulti cv q 1 = .ok { x := q.x % (rom cv).p, y := q.y % (rom cv).p }
    ∧ ∀ n : Nat, n ≠ 0 → ∃ acc d, aMulti cv q (n / 2) = .ok acc ∧ aDouble cv acc = .ok d
        ∧ aMulti cv q n = (if n % 2 = 1 then aAdd cv d q else .ok d)

/-- `SHAMIR`: the joint double-and-add of `Shamir` for scalars that are not reduced; a negative one is a
fault (rules R174, R175, R177). -/
def Obligations.ShamirMultiplies : Prop :=
  (∀ (rd ra rb rc : RegIdx) (cv : Scheme) (s : State), rd.toNat ≤ 30 → rc.toNat ≤ 30 →
    decode (0x43#8 ++ rd ++ ra ++ rb ++ rc ++ cv.bits ++ 0#2) = .command (.shamir rd ra rb rc cv)
    ∧ (s.val ra < 0 ∨ s.val rb < 0 → exec (.shamir rd ra rb rc cv) s = .next (afterFault 0x08 s))
    ∧ (0 ≤ s.val ra → 0 ≤ s.val rb → ∃ t q, exec (.shamir rd ra rb rc cv) s = .next t
        ∧ shamir cv (s.val ra).toNat (s.val rb).toNat { x := s.val rc, y := s.val (rc + 1) } = .ok q
        ∧ WroteExactly s t (pairAt rd q)))
  ∧ ∀ (cv : Scheme) (q g : APoint), g = { x := (rom cv).gx, y := (rom cv).gy } →
    shamir cv 0 0 q = .ok { x := 0, y := 0 }
    ∧ ∀ u1 u2 : Nat, ¬(u1 = 0 ∧ u2 = 0) →
        ∃ t acc d, aAdd cv g q = .ok t ∧ shamir cv (u1 / 2) (u2 / 2) q = .ok acc
          ∧ aDouble cv acc = .ok d
          ∧ shamir cv u1 u2 q =
            (if u1 % 2 = 1 ∧ u2 % 2 = 1 then aAdd cv d t
             else if u1 % 2 = 1 then aAdd cv d g
             else if u2 % 2 = 1 then aAdd cv d q
             else .ok d)

/-! ### The datapath notes -/

/-- The limb-wise addition and subtraction, and the case analysis on signs, compute the signed sum. The
functions are the model's reading (DEDUCED, log 13) of the notes of rules R98 and R100, which are not
observable and which no meaning calls: that the minuend is the magnitude that is not smaller and that a
final carry adds one limb; and the biased formula is R100's own reading of its source. -/
def Obligations.AddSubDatapath : Prop :=
  (∀ (xs ys : List Word) (c : Nat), c ≤ 1 →
    limbsValue (addLimbs xs ys c) = limbsValue xs + limbsValue ys + c)
  ∧ (∀ xs ys : List Word, limbsValue ys ≤ limbsValue xs →
      limbsValue (subLimbs xs ys 0) = limbsValue xs - limbsValue ys)
  ∧ ∀ a b : Bool × List Word, signedValue (addSigned a b) = signedValue a + signedValue b

/-- The schoolbook multiplication and the two limb-wise shifts compute product and shifts. The functions
are the model's reading (DEDUCED, log 13) of the notes of rules R102 and R106, which are not observable and
which no meaning calls: that multiplication starts from a zero column for each limb of both operands, and
that a right shift takes in the low bits of the next limb. -/
def Obligations.MulShiftDatapath : Prop :=
  (∀ xs ys : List Word, limbsValue (mulLimbs xs ys) = limbsValue xs * limbsValue ys)
  ∧ (∀ (xs : List Word) (sh : Nat), sh ≤ 31 →
      limbsValue (shiftLeftLimbs sh xs 0) = limbsValue xs * 2 ^ sh
      ∧ limbsValue (shiftRightLimbs sh xs) = limbsValue xs / 2 ^ sh)

/-- The doubling and halving division computes quotient and remainder, and with the correction for a
negative dividend the Euclidean remainder: `divideDatapath` and `moduloDatapath` are the model's reading
(DEDUCED, logs 7 and 13) of the notes of rules R108 and R110, which are not observable and which no meaning
calls, and their numbers of rounds (`bitlen(a)` doublings and one halving more) are the model's deduction,
within the total of rule R228. After them the inversion engine (rule R112), which `INV` does run: its
rounds keep the invariants of rule R113 and make `low` fall, and within the rounds of rule R228 it stops
with `low = 1` and an inverse, or with `low = 0`, as the gcd says; that the loop's fuel is enough for that
is the model's deduction (DEDUCED, log 7). -/
def Obligations.DivModInvDatapath : Prop :=
  (∀ a b : Nat, 0 < b → divideDatapath a b = (a / b, a % b))
  ∧ (∀ (a : Int) (m : Nat), 0 < m → (moduloDatapath a m : Int) = a % m)
  ∧ ∀ a m : Int, 2 ≤ m →
    (invStart a m).Invariant a m
    ∧ (∀ s : InvState, s.Invariant a m → 1 < s.low →
        (invRound s).Invariant a m ∧ (invRound s).low = s.high % s.low ∧ (invRound s).low < s.low)
    ∧ ∃ k : Nat, k ≤ 2 * bitlen m.toNat ∧ (∀ j < k, 1 < (invRound^[j] (invStart a m)).low)
      ∧ invLoop (a % m).toNat (invStart a m) = invRound^[k] (invStart a m)
      ∧ (Int.gcd (a % m) m = 1 → (invRound^[k] (invStart a m)).low = 1
          ∧ (invRound^[k] (invStart a m)).lm * a ≡ 1 [ZMOD m])
      ∧ (Int.gcd (a % m) m ≠ 1 → (invRound^[k] (invStart a m)).low = 0)
end

