-- ==== Sys2Proof/Laws/State.lean ====
section
/-! SUPPORT. What each update of the state does to each field, so that no later proof unfolds a record
update. -/

namespace Sys2Proof.Machine

/-! ### Replacing a register -/

@[simp] theorem State.setReg_regs (s : State) (r : RegIdx) (b : BigInt) :
    (s.setReg r b).regs = s.regs.set r.toNat b r.isLt := rfl
@[simp] theorem State.setReg_buf (s : State) (r : RegIdx) (b : BigInt) :
    (s.setReg r b).buf = s.buf := rfl
@[simp] theorem State.setReg_buflen (s : State) (r : RegIdx) (b : BigInt) :
    (s.setReg r b).buflen = s.buflen := rfl
@[simp] theorem State.setReg_cmd (s : State) (r : RegIdx) (b : BigInt) :
    (s.setReg r b).cmd = s.cmd := rfl
@[simp] theorem State.setReg_flags (s : State) (r : RegIdx) (b : BigInt) :
    (s.setReg r b).flags = s.flags := rfl
@[simp] theorem State.setReg_status (s : State) (r : RegIdx) (b : BigInt) :
    (s.setReg r b).status = s.status := rfl
@[simp] theorem State.setReg_errcode (s : State) (r : RegIdx) (b : BigInt) :
    (s.setReg r b).errcode = s.errcode := rfl
@[simp] theorem State.setReg_agenda (s : State) (r : RegIdx) (b : BigInt) :
    (s.setReg r b).agenda = s.agenda := rfl
@[simp] theorem State.setReg_answers (s : State) (r : RegIdx) (b : BigInt) :
    (s.setReg r b).answers = s.answers := rfl

/-! ### Ending a command well (rule R226) -/

@[simp] theorem State.finish_regs (s : State) :
    s.finish.regs = s.regs := rfl
@[simp] theorem State.finish_buf (s : State) :
    s.finish.buf = s.buf := rfl
@[simp] theorem State.finish_buflen (s : State) :
    s.finish.buflen = s.buflen := rfl
@[simp] theorem State.finish_cmd (s : State) :
    s.finish.cmd = s.cmd := rfl
@[simp] theorem State.finish_flags (s : State) :
    s.finish.flags = s.flags := rfl
@[simp] theorem State.finish_status (s : State) :
    s.finish.status = { busy := false, done := true, err := s.status.err } := rfl
@[simp] theorem State.finish_errcode (s : State) :
    s.finish.errcode = s.errcode := rfl
@[simp] theorem State.finish_agenda (s : State) :
    s.finish.agenda = s.agenda := rfl
@[simp] theorem State.finish_answers (s : State) :
    s.finish.answers = s.answers := rfl

/-! ### Fault entry (rule R187) -/

@[simp] theorem State.faultEntry_regs (s : State) (c : FaultCode) :
    (s.faultEntry c).regs = s.regs := rfl
@[simp] theorem State.faultEntry_buf (s : State) (c : FaultCode) :
    (s.faultEntry c).buf = s.buf := rfl
@[simp] theorem State.faultEntry_buflen (s : State) (c : FaultCode) :
    (s.faultEntry c).buflen = s.buflen := rfl
@[simp] theorem State.faultEntry_cmd (s : State) (c : FaultCode) :
    (s.faultEntry c).cmd = s.cmd := rfl
@[simp] theorem State.faultEntry_flags (s : State) (c : FaultCode) :
    (s.faultEntry c).flags = s.flags := rfl
@[simp] theorem State.faultEntry_status (s : State) (c : FaultCode) :
    (s.faultEntry c).status = { busy := false, done := s.status.done, err := true } := rfl
@[simp] theorem State.faultEntry_errcode (s : State) (c : FaultCode) :
    (s.faultEntry c).errcode = c.code := rfl
@[simp] theorem State.faultEntry_agenda (s : State) (c : FaultCode) :
    (s.faultEntry c).agenda = s.agenda := rfl
@[simp] theorem State.faultEntry_answers (s : State) (c : FaultCode) :
    (s.faultEntry c).answers = s.answers := rfl

/-! ### Clearing a fault (rule R198) -/

@[simp] theorem State.clearFault_regs (s : State) :
    s.clearFault.regs = s.regs := rfl
@[simp] theorem State.clearFault_buf (s : State) :
    s.clearFault.buf = s.buf := rfl
@[simp] theorem State.clearFault_buflen (s : State) :
    s.clearFault.buflen = s.buflen := rfl
@[simp] theorem State.clearFault_cmd (s : State) :
    s.clearFault.cmd = s.cmd := rfl
@[simp] theorem State.clearFault_flags (s : State) :
    s.clearFault.flags = s.flags := rfl
@[simp] theorem State.clearFault_status (s : State) :
    s.clearFault.status = { busy := s.status.busy, done := s.status.done, err := false } := rfl
@[simp] theorem State.clearFault_errcode (s : State) :
    s.clearFault.errcode = 0 := rfl
@[simp] theorem State.clearFault_agenda (s : State) :
    s.clearFault.agenda = s.agenda := rfl
@[simp] theorem State.clearFault_answers (s : State) :
    s.clearFault.answers = s.answers := rfl

/-! ### An answer of the port -/

@[simp] theorem State.answer_regs (s : State) (a : Answer) :
    (s.answer a).regs = s.regs := rfl
@[simp] theorem State.answer_buf (s : State) (a : Answer) :
    (s.answer a).buf = s.buf := rfl
@[simp] theorem State.answer_buflen (s : State) (a : Answer) :
    (s.answer a).buflen = s.buflen := rfl
@[simp] theorem State.answer_cmd (s : State) (a : Answer) :
    (s.answer a).cmd = s.cmd := rfl
@[simp] theorem State.answer_flags (s : State) (a : Answer) :
    (s.answer a).flags = s.flags := rfl
@[simp] theorem State.answer_status (s : State) (a : Answer) :
    (s.answer a).status = s.status := rfl
@[simp] theorem State.answer_errcode (s : State) (a : Answer) :
    (s.answer a).errcode = s.errcode := rfl
@[simp] theorem State.answer_agenda (s : State) (a : Answer) :
    (s.answer a).agenda = s.agenda := rfl
@[simp] theorem State.answer_answers (s : State) (a : Answer) :
    (s.answer a).answers = a :: s.answers := rfl

/-! ### An accepted write to `CMD` (rule R23) -/

@[simp] theorem State.startCommand_regs (s : State) (w : Word) :
    (s.startCommand w).regs = s.regs := rfl
@[simp] theorem State.startCommand_buf (s : State) (w : Word) :
    (s.startCommand w).buf = s.buf := rfl
@[simp] theorem State.startCommand_buflen (s : State) (w : Word) :
    (s.startCommand w).buflen = s.buflen := rfl
@[simp] theorem State.startCommand_cmd (s : State) (w : Word) :
    (s.startCommand w).cmd = w := rfl
@[simp] theorem State.startCommand_flags (s : State) (w : Word) :
    (s.startCommand w).flags = s.flags := rfl
@[simp] theorem State.startCommand_status (s : State) (w : Word) :
    (s.startCommand w).status = { busy := true, done := false, err := s.status.err } := rfl
@[simp] theorem State.startCommand_errcode (s : State) (w : Word) :
    (s.startCommand w).errcode = s.errcode := rfl
@[simp] theorem State.startCommand_agenda (s : State) (w : Word) :
    (s.startCommand w).agenda = s.agenda := rfl
@[simp] theorem State.startCommand_answers (s : State) (w : Word) :
    (s.startCommand w).answers = s.answers := rfl

/-! ### Taking the next event off the agenda -/

@[simp] theorem State.popped_regs (s : State) :
    s.popped.regs = s.regs := rfl
@[simp] theorem State.popped_buf (s : State) :
    s.popped.buf = s.buf := rfl
@[simp] theorem State.popped_buflen (s : State) :
    s.popped.buflen = s.buflen := rfl
@[simp] theorem State.popped_cmd (s : State) :
    s.popped.cmd = s.cmd := rfl
@[simp] theorem State.popped_flags (s : State) :
    s.popped.flags = s.flags := rfl
@[simp] theorem State.popped_status (s : State) :
    s.popped.status = s.status := rfl
@[simp] theorem State.popped_errcode (s : State) :
    s.popped.errcode = s.errcode := rfl
@[simp] theorem State.popped_agenda (s : State) :
    s.popped.agenda = s.agenda.tail := rfl
@[simp] theorem State.popped_answers (s : State) :
    s.popped.answers = s.answers := rfl

end Sys2Proof.Machine
end

