-- ==== Sys2Proof/Laws/Memory.lean ====
section
/-! SUPPORT. The laws of the byte buffer: a read after a write, the canonical form, and that equal
contents are equal data (rules R9, R21, R65). -/

namespace Sys2Proof.Machine

/-! ### Reads after writes -/

/-- A write leaves every other byte alone. -/
theorem Memory.read_write_ne (m : Memory) {a c : Nat} (b : Byte) (h : c ≠ a) :
    (m.write a b).read c = m.read c := by
  induction m with
  | nil => unfold Memory.write; split <;> simp [Memory.read, h]
  | cons x m ih =>
    obtain ⟨a', b'⟩ := x
    unfold Memory.write
    split
    · split <;> simp [Memory.read, h]
    · split
      · next e => subst e; split <;> simp [Memory.read, h]
      · simp [Memory.read, ih]

/-- A byte below every listed index reads as zero. -/
theorem Memory.read_of_lt (m : Memory) {a : Nat} (h : ∀ c ∈ m, a < c.1) : m.read a = 0 := by
  induction m with
  | nil => rfl
  | cons x m ih =>
    have hx := h x (by simp)
    rw [Memory.read, if_neg (by omega)]
    exact ih fun c hc => h c (by simp [hc])

/-- A read after a write to the same index gives the byte written. -/
theorem Memory.read_write_same (m : Memory) (a : Nat) (b : Byte)
    (h : m.Pairwise fun c d => c.1 < d.1) : (m.write a b).read a = b := by
  induction m with
  | nil => unfold Memory.write; split <;> simp_all [Memory.read]
  | cons x m ih =>
    obtain ⟨a', b'⟩ := x
    rw [List.pairwise_cons] at h
    unfold Memory.write
    split
    · next hlt =>
      split
      · next hb =>
        rw [hb, Memory.read_of_lt]
        intro c hc
        rcases List.mem_cons.mp hc with rfl | hc
        · exact hlt
        · exact hlt.trans (h.1 c hc)
      · simp [Memory.read]
    · split
      · next e =>
        subst e
        split
        · next hb => rw [hb]; exact Memory.read_of_lt _ h.1
        · simp [Memory.read]
      · next hne => simp [Memory.read, hne, ih h.2]

/-! ### The canonical form -/

/-- What a write lists was listed, or is the byte written. -/
theorem Memory.mem_write {m : Memory} {a : Nat} {b : Byte} {c : Host.Cell} (h : c ∈ m.write a b) :
    c ∈ m ∨ c = (a, b) ∧ b ≠ 0 := by
  induction m with
  | nil => unfold Memory.write at h; split at h <;> simp_all
  | cons x m ih =>
    obtain ⟨a', b'⟩ := x
    unfold Memory.write at h
    split at h
    · split at h <;> simp_all; tauto
    · split at h
      · split at h <;> simp_all; tauto
      · rcases List.mem_cons.mp h with rfl | h
        · simp
        · rcases ih h with h | h
          · exact Or.inl (List.mem_cons_of_mem _ h)
          · exact Or.inr h

theorem Memory.sorted_write (m : Memory) (a : Nat) (b : Byte)
    (h : m.Pairwise fun c d => c.1 < d.1) : (m.write a b).Pairwise fun c d => c.1 < d.1 := by
  induction m with
  | nil => unfold Memory.write; split <;> simp
  | cons x m ih =>
    obtain ⟨a', b'⟩ := x
    have hx := List.pairwise_cons.mp h
    unfold Memory.write
    split
    · next hlt =>
      split
      · exact h
      · refine List.pairwise_cons.mpr ⟨fun c hc => ?_, h⟩
        rcases List.mem_cons.mp hc with rfl | hc
        · exact hlt
        · exact hlt.trans (hx.1 c hc)
    · split
      · next e => subst e; split
                  · exact hx.2
                  · exact List.pairwise_cons.mpr ⟨hx.1, hx.2⟩
      · next hge hne =>
        refine List.pairwise_cons.mpr ⟨fun c hc => ?_, ih hx.2⟩
        rcases Memory.mem_write hc with hc | ⟨rfl, -⟩
        · exact hx.1 c hc
        · show a' < a; omega

/-- A write inside the buffer keeps the canonical form. -/
theorem Memory.wf_write {m : Memory} (h : m.wf) {a : Nat} (ha : a < Config.bufBytes) (b : Byte) :
    (m.write a b).wf := by
  refine ⟨Memory.sorted_write m a b h.1, fun c hc => ?_⟩
  rcases Memory.mem_write hc with hc | ⟨rfl, hb⟩
  · exact h.2 c hc
  · exact ⟨ha, hb⟩

/-- Writing bytes inside the buffer keeps the canonical form. -/
theorem Memory.wf_writeBytes (bs : List Byte) {m : Memory} (h : m.wf) {k : Nat}
    (hk : k + bs.length ≤ Config.bufBytes) : (m.writeBytes k bs).wf := by
  induction bs generalizing m k with
  | nil => exact h
  | cons b bs ih =>
    simp only [List.length_cons] at hk
    exact ih (Memory.wf_write h (by omega) b) (by omega)

/-- The buffer after reset is in the canonical form. -/
theorem Memory.wf_reset : State.reset.buf.wf := by decide

/-- Bytes outside those written keep their value. -/
theorem Memory.read_writeBytes_other (bs : List Byte) (m : Memory) {k a : Nat}
    (h : a < k ∨ k + bs.length ≤ a) : (m.writeBytes k bs).read a = m.read a := by
  induction bs generalizing m k with
  | nil => rfl
  | cons b bs ih =>
    simp only [List.length_cons] at h
    rw [Memory.writeBytes, ih _ (by omega), Memory.read_write_ne _ _ (by omega)]

theorem Memory.sorted_writeBytes (bs : List Byte) (m : Memory) (k : Nat)
    (h : m.Pairwise fun c d => c.1 < d.1) : (m.writeBytes k bs).Pairwise fun c d => c.1 < d.1 := by
  induction bs generalizing m k with
  | nil => exact h
  | cons b bs ih => exact ih _ _ (Memory.sorted_write _ _ _ h)

/-- The bytes written are read back. -/
theorem Memory.read_writeBytes_in (bs : List Byte) (m : Memory) {k i : Nat}
    (h : m.Pairwise fun c d => c.1 < d.1) (hi : i < bs.length) :
    (m.writeBytes k bs).read (k + i) = bs[i] := by
  induction bs generalizing m k i with
  | nil => simp at hi
  | cons b bs ih =>
    rw [Memory.writeBytes]
    cases i with
    | zero =>
      rw [Memory.read_writeBytes_other _ _ (by omega)]
      simpa using Memory.read_write_same m k b h
    | succ i =>
      have := ih (m.write k b) (k := k + 1) (i := i) (Memory.sorted_write _ _ _ h) (by simpa using hi)
      rw [show k + (i + 1) = k + 1 + i by omega, this]; simp

/-- Two canonical buffers with the same bytes are the same list. -/
theorem Memory.ext_of_read {m n : Memory} (hm : m.wf) (hn : n.wf) (h : ∀ a, m.read a = n.read a) :
    m = n := by
  induction m generalizing n with
  | nil =>
    cases n with
    | nil => rfl
    | cons y n =>
      have := h y.1
      simp [Memory.read] at this
      exact absurd this.symm (hn.2 y (by simp)).2
  | cons x m ih =>
    have hxs := List.pairwise_cons.mp hm.1
    cases n with
    | nil =>
      have := h x.1
      simp [Memory.read] at this
      exact absurd this (hm.2 x (by simp)).2
    | cons y n =>
      have hys := List.pairwise_cons.mp hn.1
      have hx0 := (hm.2 x (by simp)).2
      have hy0 := (hn.2 y (by simp)).2
      have e1 : x.1 = y.1 := by
        rcases Nat.lt_trichotomy x.1 y.1 with hlt | he | hlt
        · have := h x.1
          rw [Memory.read_of_lt (y :: n)] at this
          · simp [Memory.read] at this; exact absurd this hx0
          · intro c hc
            rcases List.mem_cons.mp hc with rfl | hc
            · exact hlt
            · exact hlt.trans (hys.1 c hc)
        · exact he
        · have := h y.1
          rw [Memory.read_of_lt (x :: m)] at this
          · simp [Memory.read] at this; exact absurd this.symm hy0
          · intro c hc
            rcases List.mem_cons.mp hc with rfl | hc
            · exact hlt
            · exact hlt.trans (hxs.1 c hc)
      have e2 : x.2 = y.2 := by
        have := h x.1
        simpa [Memory.read, e1] using this
      have e : x = y := Prod.ext e1 e2
      subst e
      congr 1
      refine ih ⟨hxs.2, fun c hc => hm.2 c (by simp [hc])⟩ ⟨hys.2, fun c hc => hn.2 c (by simp [hc])⟩ ?_
      intro a
      by_cases ha : a = x.1
      · rw [ha, Memory.read_of_lt m hxs.1, Memory.read_of_lt n hys.1]
      · have := h a
        simpa [Memory.read, ha] using this

/-! ### The engine's accesses (rule R53) -/

/-- `MemRead` inside the buffer answers the bytes; it does nothing else. -/
theorem memRead_eq {m : Memory} {k n : Nat} (h : k + n ≤ Config.bufBytes) :
    memRead m k n = .ok (m.readBytes k n) := by
  simp [memRead, h]

/-- `MemWrite` inside the buffer answers the buffer with the bytes written. -/
theorem memWrite_eq {m : Memory} {k : Nat} {bs : List Byte} (h : k + bs.length ≤ Config.bufBytes) :
    memWrite m k bs = .ok (m.writeBytes k bs) := by
  simp [memWrite, h]

/-- A canonical buffer lists no index outside 0 to 127: such an index reads as zero. -/
theorem Memory.read_outside {m : Memory} (h : m.wf) {a : Nat} (ha : Config.bufBytes ≤ a) : m.read a = 0 := by
  obtain ⟨-, h2⟩ := h
  induction m with
  | nil => rfl
  | cons x m ih =>
    have hx := (h2 x (by simp)).1
    rw [Memory.read, if_neg (by omega)]
    exact ih fun c hc => h2 c (by simp [hc])

end Sys2Proof.Machine
end

