-- ==== Sys2Proof/Laws/Registers.lean ====
section
/-! SUPPORT. What a register holds and what a register write leaves in it (rules R15, R16, R18). -/

namespace Sys2Proof.Machine

/-! ### Bit lengths -/

theorem bitlen_le_iff (v k : Nat) : bitlen v ≤ k ↔ v < 2 ^ k := by
  unfold bitlen
  split
  · next h => simp [h]
  · next h => rw [← Nat.log2_lt h]; omega

theorem lt_two_pow_bitlen (v : Nat) : v < 2 ^ bitlen v := (bitlen_le_iff v _).mp le_rfl

theorem bitlen_pos {v : Nat} (h : v ≠ 0) : 0 < bitlen v := by
  unfold bitlen; simp [h]

theorem two_pow_le_of_bitlen {v : Nat} (h : v ≠ 0) : 2 ^ (bitlen v - 1) ≤ v := by
  by_contra hc
  have := (bitlen_le_iff v (bitlen v - 1)).mpr (by omega)
  have := bitlen_pos h
  omega

/-! ### Limbs -/

theorem two_pow_limbs_succ (k : Nat) : 2 ^ (32 * (k + 1)) = 2 ^ 32 * 2 ^ (32 * k) := by
  rw [Nat.mul_succ, pow_add, Nat.mul_comm]

theorem limbsValue_lt (ws : List Word) : limbsValue ws < 2 ^ (32 * ws.length) := by
  induction ws with
  | nil => simp [limbsValue]
  | cons w ws ih =>
    have hw := w.isLt
    have : 2 ^ (32 * (ws.length + 1)) = 2 ^ 32 * 2 ^ (32 * ws.length) :=
      two_pow_limbs_succ ws.length
    simp only [limbsValue, List.length_cons, this]
    have : 2 ^ 32 * limbsValue ws + 2 ^ 32 ≤ 2 ^ 32 * 2 ^ (32 * ws.length) := by
      rw [← Nat.mul_succ]; exact Nat.mul_le_mul_left _ ih
    omega

/-- The first `k` limbs are the value modulo `2^(32k)`. -/
theorem limbsValue_take (ws : List Word) (k : Nat) :
    limbsValue (ws.take k) = limbsValue ws % 2 ^ (32 * k) := by
  induction ws generalizing k with
  | nil => simp [limbsValue]
  | cons w ws ih =>
    cases k with
    | zero => simp [limbsValue, Nat.mod_one]
    | succ k =>
      have hw := w.isLt
      have e : 2 ^ (32 * (k + 1)) = 2 ^ 32 * 2 ^ (32 * k) := two_pow_limbs_succ k
      simp only [List.take_succ_cons, limbsValue, ih, e]
      rw [Nat.mod_mul, Nat.add_mul_mod_self_left, Nat.mod_eq_of_lt hw,
        Nat.add_mul_div_left _ _ (by positivity), Nat.div_eq_of_lt hw, Nat.zero_add]

/-- The limbs from `k` on are the value divided by `2^(32k)`. -/
theorem limbsValue_drop (ws : List Word) (k : Nat) :
    limbsValue (ws.drop k) = limbsValue ws / 2 ^ (32 * k) := by
  induction ws generalizing k with
  | nil => simp [limbsValue]
  | cons w ws ih =>
    cases k with
    | zero => simp
    | succ k =>
      have hw := w.isLt
      have e : 2 ^ (32 * (k + 1)) = 2 ^ 32 * 2 ^ (32 * k) := two_pow_limbs_succ k
      simp only [List.drop_succ_cons, limbsValue, ih, e]
      rw [← Nat.div_div_eq_div_mul, Nat.add_mul_div_left _ _ (by positivity),
        Nat.div_eq_of_lt hw, Nat.zero_add]

theorem limbsValue_eq_zero {ws : List Word} : limbsValue ws = 0 ↔ ∀ w ∈ ws, w = 0 := by
  induction ws with
  | nil => simp [limbsValue]
  | cons w ws ih =>
    have : w.toNat = 0 ↔ w = 0 := ⟨fun h => BitVec.eq_of_toNat_eq (by simpa using h), fun h => by simp [h]⟩
    simp only [limbsValue, List.mem_cons, forall_eq_or_imp]
    rw [← ih, ← this]
    omega

/-- Limb `k` is the value's digit `k` to base `2^32`. -/
theorem limbsValue_getD (ws : List Word) (k : Nat) :
    (ws.getD k 0).toNat = limbsValue ws / 2 ^ (32 * k) % 2 ^ 32 := by
  rw [← limbsValue_drop]
  rcases h : ws.drop k with _ | ⟨w, r⟩
  · have := List.drop_eq_nil_iff.mp h
    rw [List.getD_eq_default _ _ this]; simp [limbsValue]
  · have hk : ws[k]? = some w := by
      rw [← List.head?_drop, h]; rfl
    have hw := w.isLt
    simp only [List.getD_eq_getElem?_getD, hk, Option.getD_some, limbsValue]
    omega

/-- The base-`2^32` digits of a number, read back. -/
theorem limbsValue_digits (m n : Nat) :
    limbsValue ((List.range n).map fun k => BitVec.ofNat 32 (m / 2 ^ (32 * k))) = m % 2 ^ (32 * n) := by
  induction n generalizing m with
  | zero => simp [limbsValue, Nat.mod_one]
  | succ n ih =>
    have e : 2 ^ (32 * (n + 1)) = 2 ^ 32 * 2 ^ (32 * n) := two_pow_limbs_succ n
    have hd : ∀ k, m / 2 ^ (32 * (k + 1)) = m / 2 ^ 32 / 2 ^ (32 * k) := by
      intro k
      rw [two_pow_limbs_succ, Nat.div_div_eq_div_mul]
    rw [List.range_succ_eq_map, List.map_cons, List.map_map]
    simp only [limbsValue, Function.comp_def, Nat.succ_eq_add_one, hd]
    rw [ih (m / 2 ^ 32), e, Nat.mod_mul]
    simp

/-! ### A register's value -/

theorem BigInt.mag_lt (b : BigInt) : b.mag < 2 ^ (32 * Config.limbCap) := by
  refine (limbsValue_lt _).trans_le (Nat.pow_le_pow_right (by decide) ?_)
  simp

theorem BigInt.natAbs_val (b : BigInt) : b.val.natAbs = b.mag := by
  unfold BigInt.val; split <;> simp

/-- Every register holds a value that fits, whatever its contents (rule R16). -/
theorem BigInt.fits_val (b : BigInt) : fits b.val = true := by
  simpa [fits, BigInt.natAbs_val] using b.mag_lt

theorem State.fits_val (s : State) (r : RegIdx) : fits (s.val r) = true := (s.reg r).fits_val

theorem fits_iff (v : Int) : fits v = true ↔ v.natAbs < 2 ^ (32 * Config.limbCap) := by
  simp [fits]

/-- A value no larger in magnitude than one that fits fits. -/
theorem fits_of_natAbs_le {v w : Int} (h : v.natAbs ≤ w.natAbs) (hw : fits w = true) :
    fits v = true := by
  rw [fits_iff] at *; omega

theorem BigInt.ofInt_limbs (v : Int) :
    (BigInt.ofInt v).limbs.toList
      = (List.range Config.limbCap).map fun k => BitVec.ofNat 32 (v.natAbs / 2 ^ (32 * k)) := by
  apply List.ext_getElem
  · simp
  · intro i h1 h2
    simp [BigInt.ofInt]

/-- The limbs' number that rule R18 writes covers the magnitude. -/
theorem natAbs_lt_len (v : Int) : v.natAbs < 2 ^ (32 * (BigInt.ofInt v).len) := by
  refine (lt_two_pow_bitlen _).trans_le (Nat.pow_le_pow_right (by decide) ?_)
  simp only [BigInt.ofInt]; omega

theorem BigInt.mag_ofInt {v : Int} (h : fits v = true) : (BigInt.ofInt v).mag = v.natAbs := by
  unfold BigInt.mag
  rw [limbsValue_take, BigInt.ofInt_limbs, limbsValue_digits,
    Nat.mod_eq_of_lt ((fits_iff v).mp h), Nat.mod_eq_of_lt (natAbs_lt_len v)]

/-- A register written with a value that fits holds that value (rule R18). -/
theorem BigInt.val_ofInt {v : Int} (h : fits v = true) : (BigInt.ofInt v).val = v := by
  unfold BigInt.val
  rw [BigInt.mag_ofInt h]
  have : (BigInt.ofInt v).neg = decide (v < 0) := rfl
  rw [this]
  by_cases hv : v < 0
  · simp only [hv, decide_true, if_true]; omega
  · simp only [hv, decide_false, Bool.false_eq_true, if_false]; omega

/-- A register written with a value that fits is in canonical form (rules R16, R18). -/
theorem BigInt.canonical_ofInt {v : Int} (h : fits v = true) : (BigInt.ofInt v).canonical = true := by
  have hb : bitlen v.natAbs ≤ 32 * Config.limbCap := (bitlen_le_iff _ _).mpr ((fits_iff v).mp h)
  simp only [Config.limbCap] at hb
  have hlen : (BigInt.ofInt v).len = max 1 ((bitlen v.natAbs + 31) / 32) := rfl
  have hneg : (BigInt.ofInt v).neg = decide (v < 0) := rfl
  unfold BigInt.canonical
  simp only [Bool.and_eq_true, Bool.or_eq_true, decide_eq_true_eq, ne_eq,
    List.all_eq_true, Bool.not_eq_true', decide_not]
  refine ⟨⟨⟨⟨?_, ?_⟩, ?_⟩, ?_⟩, ?_⟩
  · rw [hlen]; omega
  · rw [hlen]; show _ ≤ 32; omega
  · by_cases h1 : (BigInt.ofInt v).len = 1
    · exact Or.inl h1
    · right
      have h0 : v.natAbs ≠ 0 := by
        intro h0; rw [hlen, h0] at h1; simp [bitlen] at h1
      simp only [decide_eq_false_iff_not]
      intro hz
      have hd := limbsValue_getD (BigInt.ofInt v).limbs.toList ((BigInt.ofInt v).len - 1)
      rw [hz, BigInt.ofInt_limbs, limbsValue_digits, Nat.mod_eq_of_lt ((fits_iff v).mp h)] at hd
      have hlt := natAbs_lt_len v
      have hlow := two_pow_le_of_bitlen h0
      have hpow : 2 ^ (32 * ((BigInt.ofInt v).len - 1)) ≤ 2 ^ (bitlen v.natAbs - 1) :=
        Nat.pow_le_pow_right (by decide) (by rw [hlen] at *; omega)
      have hge : 1 ≤ v.natAbs / 2 ^ (32 * ((BigInt.ofInt v).len - 1)) :=
        (Nat.one_le_div_iff (by positivity)).mpr (hpow.trans hlow)
      have hup : v.natAbs / 2 ^ (32 * ((BigInt.ofInt v).len - 1)) < 2 ^ 32 := by
        rw [Nat.div_lt_iff_lt_mul (by positivity), ← pow_add]
        refine hlt.trans_le (Nat.pow_le_pow_right (by decide) ?_)
        omega
      rw [Nat.mod_eq_of_lt hup] at hd
      simp at hd
      omega
  · have : limbsValue ((BigInt.ofInt v).limbs.toList.drop (BigInt.ofInt v).len) = 0 := by
      rw [limbsValue_drop, BigInt.ofInt_limbs, limbsValue_digits,
        Nat.mod_eq_of_lt ((fits_iff v).mp h), Nat.div_eq_of_lt (natAbs_lt_len v)]
    intro w hw
    exact limbsValue_eq_zero.mp this w hw
  · rw [BigInt.mag_ofInt h, hneg]
    by_cases h0 : v.natAbs = 0
    · right; simp; omega
    · left; simpa using h0

/-! ### Register reads after register writes -/

@[simp] theorem State.reg_setReg_same (s : State) (r : RegIdx) (b : BigInt) :
    (s.setReg r b).reg r = b := by
  simp [State.reg]

theorem State.reg_setReg_ne (s : State) {r q : RegIdx} (b : BigInt) (h : q ≠ r) :
    (s.setReg r b).reg q = s.reg q := by
  have : r.toNat ≠ q.toNat := fun e => h (BitVec.eq_of_toNat_eq e.symm)
  simp [State.reg, Vector.getElem_set_ne _ _ this]

/-- The register file is read back from the fields alone. -/
theorem State.reg_congr {s t : State} (h : t.regs = s.regs) (r : RegIdx) : t.reg r = s.reg r := by
  simp [State.reg, h]

theorem State.val_congr {s t : State} {r : RegIdx} (h : t.reg r = s.reg r) : t.val r = s.val r := by
  simp [State.val, h]

/-- Writing registers changes nothing but the register file. -/
theorem State.writeRegs_rest (ws : List (RegIdx × Int)) (s : State) :
    ((s.writeRegs ws).buf = s.buf ∧ (s.writeRegs ws).buflen = s.buflen
      ∧ (s.writeRegs ws).cmd = s.cmd ∧ (s.writeRegs ws).flags = s.flags
      ∧ (s.writeRegs ws).status = s.status ∧ (s.writeRegs ws).errcode = s.errcode
      ∧ (s.writeRegs ws).agenda = s.agenda ∧ (s.writeRegs ws).answers = s.answers) := by
  induction ws generalizing s with
  | nil => simp [State.writeRegs]
  | cons w ws ih => simpa [State.writeRegs] using ih (s.setReg w.1 (BigInt.ofInt w.2))

/-- A register that is no destination keeps its contents. -/
theorem State.reg_writeRegs_other (ws : List (RegIdx × Int)) (s : State) {r : RegIdx}
    (h : r ∉ ws.map Prod.fst) : (s.writeRegs ws).reg r = s.reg r := by
  induction ws generalizing s with
  | nil => rfl
  | cons w ws ih =>
    simp only [List.map_cons, List.mem_cons, not_or] at h
    rw [State.writeRegs, ih _ h.2, State.reg_setReg_ne _ _ h.1]

/-- A destination named once holds what rule R18 writes for its value. -/
theorem State.reg_writeRegs_dest (ws : List (RegIdx × Int)) (s : State)
    (hn : (ws.map Prod.fst).Nodup) : ∀ w ∈ ws, (s.writeRegs ws).reg w.1 = BigInt.ofInt w.2 := by
  induction ws generalizing s with
  | nil => simp
  | cons w ws ih =>
    simp only [List.map_cons, List.nodup_cons] at hn
    intro x hx
    rcases List.mem_cons.mp hx with rfl | hx
    · rw [State.writeRegs, State.reg_writeRegs_other _ _ hn.1, State.reg_setReg_same]
    · exact ih _ hn.2 x hx

end Sys2Proof.Machine
end

