-- ==== Sys2Proof/Laws/Commands.lean ====
section
/-! SUPPORT. How a command ends: everything the shared operations `commit` and `whenLegal` can do, and the
buffer commands, which never stop the model (rules R10, R18, R53, R187, R226). -/

namespace Sys2Proof.Machine

/-! ### Fault entry -/

theorem State.faultEntry_eq (s : State) (c : FaultCode) : s.faultEntry c = afterFault c.code s := rfl

theorem raise_eq (s : State) (c : FaultCode) : raise s c = .next (afterFault c.code s) := rfl

/-- A fault's code is one of `0x01` to `0x08` (rule R188). -/
theorem FaultCode.code_range (c : FaultCode) : 1 ≤ c.code.toNat ∧ c.code.toNat ≤ 8 := by
  cases c <;> decide

/-! ### Writing registers and ending -/

/-- What a command that ends well after writing registers once each has done. -/
theorem wroteExactly_finish {s : State} {ws : List (RegIdx × Int)} (hn : (ws.map Prod.fst).Nodup)
    (hf : ws.all (fun w => fits w.2) = true) : WroteExactly s (s.writeRegs ws).finish ws := by
  obtain ⟨h1, h2, h3, h4, h5, h6, h7, h8⟩ := State.writeRegs_rest ws s
  have hreg : ∀ r, ((s.writeRegs ws).finish).reg r = (s.writeRegs ws).reg r := fun r => rfl
  have hfit := List.all_eq_true.mp hf
  refine ⟨fun w hw => ?_, fun r hr => ?_, ?_, ?_⟩
  · have e : ((s.writeRegs ws).finish).reg w.1 = BigInt.ofInt w.2 := by
      rw [hreg, State.reg_writeRegs_dest ws s hn w hw]
    exact ⟨by rw [State.val, e, BigInt.val_ofInt (hfit w hw)],
      by rw [e, BigInt.canonical_ofInt (hfit w hw)]⟩
  · rw [hreg, State.reg_writeRegs_other ws s hr]
  · constructor <;> simp_all
  · simp [EndedWell, h5]

/-- Everything `commit` can do: write all destinations and end well, or take one fault. -/
theorem commit_cases {s : State} {r : Except FaultCode (List (RegIdx × Int))} {t : State}
    (h : commit s r = .next t) :
    (∃ ws, r = .ok ws ∧ ws.all (fun w => fits w.2) = true ∧ t = (s.writeRegs ws).finish)
      ∨ (∃ c, r = .error c ∧ t = afterFault c.code s)
      ∨ (∃ ws, r = .ok ws ∧ ws.all (fun w => fits w.2) = false ∧ t = afterFault 0x04 s) := by
  unfold commit at h
  split at h
  · next c =>
    rw [raise_eq] at h; injection h with h
    exact Or.inr (Or.inl ⟨c, rfl, h.symm⟩)
  · next ws =>
    split at h
    · next hf => injection h with h; exact Or.inl ⟨ws, rfl, hf, h.symm⟩
    · next hf =>
      rw [raise_eq] at h; injection h with h
      exact Or.inr (Or.inr ⟨ws, rfl, by simpa using hf, h.symm⟩)

theorem commit_ok {s : State} {ws : List (RegIdx × Int)} (hf : ws.all (fun w => fits w.2) = true) :
    commit s (.ok ws) = .next (s.writeRegs ws).finish := by
  unfold commit; simp only [hf, if_true]

theorem commit_overflow {s : State} {ws : List (RegIdx × Int)}
    (hf : ws.all (fun w => fits w.2) = false) : commit s (.ok ws) = .next (afterFault 0x04 s) := by
  unfold commit; simp only [hf, Bool.false_eq_true, if_false]; rfl

theorem commit_error (s : State) (c : FaultCode) : commit s (.error c) = .next (afterFault c.code s) := rfl

/-- A command whose destinations are named once each and whose values fit completes with exactly that
effect. -/
theorem commit_wrote {s : State} {ws : List (RegIdx × Int)} (hn : (ws.map Prod.fst).Nodup)
    (hf : ws.all (fun w => fits w.2) = true) :
    ∃ t, commit s (.ok ws) = .next t ∧ WroteExactly s t ws :=
  ⟨_, commit_ok hf, wroteExactly_finish hn hf⟩

/-- The case of one destination. -/
theorem commit_wrote_one {s : State} (rd : RegIdx) {v : Int} (hf : fits v = true) :
    ∃ t, commit s (.ok [(rd, v)]) = .next t ∧ WroteExactly s t [(rd, v)] :=
  commit_wrote (by simp) (by simpa using hf)

theorem commit_next (s : State) (r : Except FaultCode (List (RegIdx × Int))) :
    ∃ t, commit s r = .next t := by
  unfold commit
  split
  · exact ⟨_, rfl⟩
  · split <;> exact ⟨_, rfl⟩

theorem whenLegal_true (s : State) (r : Except FaultCode (List (RegIdx × Int))) :
    whenLegal s true r = commit s r := rfl

theorem whenLegal_false (s : State) (r : Except FaultCode (List (RegIdx × Int))) :
    whenLegal s false r = .next (afterFault 0x01 s) := rfl

theorem whenLegal_next (s : State) (b : Bool) (r : Except FaultCode (List (RegIdx × Int))) :
    ∃ t, whenLegal s b r = .next t := by
  cases b
  · exact ⟨_, whenLegal_false s r⟩
  · rw [whenLegal_true]; exact commit_next s r

/-! ### Points as destinations: the three, or two, registers are different ones -/

theorem jacobianDest_nodup (b : RegIdx) (q : JPoint) : ((jacobianDest b q).map Prod.fst).Nodup := by
  simp [jacobianDest]

theorem affineDest_nodup (b : RegIdx) (q : APoint) : ((affineDest b q).map Prod.fst).Nodup := by
  simp [affineDest]

/-! ### The buffer commands never stop the model (rule R53) -/

theorem byteLength_le {m : Nat} (h : m < 2 ^ (32 * Config.limbCap)) : byteLength m ≤ Config.bufBytes := by
  have hb : bitlen m ≤ 32 * Config.limbCap := (bitlen_le_iff _ _).mpr h
  simp only [Config.limbCap, Config.bufBytes, byteLength] at *
  omega

theorem magnitudeBytes_length (m : Nat) : (magnitudeBytes m).length = byteLength m := by
  simp [magnitudeBytes]

/-- The serialisation of any register fits the buffer. -/
theorem magnitudeBytes_le (s : State) (r : RegIdx) :
    0 + (magnitudeBytes (s.val r).natAbs).length ≤ Config.bufBytes := by
  rw [magnitudeBytes_length, Nat.zero_add]
  exact byteLength_le ((fits_iff _).mp (s.fits_val r))

end Sys2Proof.Machine
end

