-- ==== Sys2Proof/Laws/Steps.lean ====
section
/-! SUPPORT. What one step can do, said once: which event it takes (log 1), and everything that a host
transaction can do (rules R46, R54 to R57). -/

namespace Sys2Proof.Machine

/-! ### The next event -/

theorem State.popped_of_nil {s : State} (h : s.agenda = []) : s.popped = s := by
  unfold State.popped; rw [h]; cases s; simp_all

theorem nextEvent_cons {s : State} {e : Event} {es : List Event} (h : s.agenda = e :: es) :
    nextEvent s = (e, s.popped) := by
  unfold nextEvent State.popped; rw [h]; rfl

theorem nextEvent_nil {s : State} (h : s.agenda = []) : nextEvent s = (.engine, s) := by
  unfold nextEvent; rw [h]

/-- A step takes the first event of the agenda. -/
theorem step_cons {s : State} {e : Event} {es : List Event} (h : s.agenda = e :: es) :
    step s = takeEvent e s.popped := by
  unfold step; rw [nextEvent_cons h]

/-- The engine's turn comes when its event stands first, and when none stands there. -/
theorem step_engine {s : State} (h : EngineIsNext s) : step s = engineTurn s.popped := by
  rcases h with h | ⟨es, h⟩
  · unfold step; rw [nextEvent_nil h, State.popped_of_nil h]; rfl
  · rw [step_cons h]; rfl

/-- Everything a step can do: it takes one event, on the state without it. -/
theorem step_cases (s : State) : ∃ e, step s = takeEvent e s.popped := by
  rcases h : s.agenda with _ | ⟨e, es⟩
  · exact ⟨.engine, step_engine (Or.inl h)⟩
  · exact ⟨e, step_cons h⟩

/-! ### Host transactions -/

/-- A read does nothing but answer. -/
theorem hostRead_answer (addr : Offset) (s : State) : ∃ a, hostRead addr s = s.answer a := by
  unfold hostRead
  split
  · exact ⟨_, rfl⟩
  · split <;> exact ⟨_, rfl⟩

/-- A write is refused, with nothing done but the answer, or reaches a location while no command runs. -/
theorem hostWrite_cases (addr : Offset) (d : Word) (s : State) :
    hostWrite addr d s = s.answer .busError
      ∨ ∃ l t, locate addr = some l ∧ s.status.busy = false ∧ s.writeLocation l d = some t
        ∧ hostWrite addr d s = t.answer .ok := by
  unfold hostWrite
  split
  · exact Or.inl rfl
  · next l hl =>
    split
    · exact Or.inl rfl
    · next hb =>
      split
      · exact Or.inl rfl
      · next t ht => exact Or.inr ⟨l, t, hl, by simpa using hb, ht, rfl⟩

/-- What the four writable locations do (rules R22, R23, R25, R51, R55). -/
theorem writeLocation_cases {s t : State} {l : Location} {d : Word} (h : s.writeLocation l d = some t) :
    (l = .cmd ∧ s.status.err = false ∧ t = s.startCommand d)
      ∨ (l = .status ∧ t = s.clearStatus d)
      ∨ (l = .buflen ∧ t = { s with buflen := d.extractLsb' 0 8 })
      ∨ ∃ w, l = .bufw w ∧ t = { s with buf := s.buf.writeBytes (4 * w) (wordBytes d) } := by
  cases l with
  | cmd =>
    simp only [State.writeLocation] at h
    split at h
    · exact absurd h (by simp)
    · next he => exact Or.inl ⟨rfl, by simpa using he, by simpa using h.symm⟩
  | status => exact Or.inr (Or.inl ⟨rfl, by simpa [State.writeLocation] using h.symm⟩)
  | errcode => simp [State.writeLocation] at h
  | flags => simp [State.writeLocation] at h
  | buflen => exact Or.inr (Or.inr (Or.inl ⟨rfl, by simpa [State.writeLocation] using h.symm⟩))
  | bufw w => exact Or.inr (Or.inr (Or.inr ⟨w, rfl, by simpa [State.writeLocation] using h.symm⟩))
  | limb r k => simp [State.writeLocation] at h
  | hdr r => simp [State.writeLocation] at h

/-- A word of the buffer window lies in the buffer. -/
theorem locate_bufw {addr : Offset} {w : Nat} (h : locate addr = some (.bufw w)) : w < 32 := by
  unfold locate locationAt registerLocation at h
  split at h
  · dsimp only at h
    split_ifs at h <;> simp at h
    omega
  · simp at h

end Sys2Proof.Machine
end

