-- ==== Sys2Proof/Laws/Bus.lean ====
section
/-! SUPPORT. The address map, location by location (rule R48), which offsets are mapped and which the host
may write (rules R53 to R55), and what the two transactions do at a location. -/

namespace Sys2Proof.Machine

/-! ### Where each name of rule R48 lies -/

theorem locate_cmd : locate 0x0000 = some .cmd := rfl
theorem locate_status : locate 0x0004 = some .status := rfl
theorem locate_errcode : locate 0x0008 = some .errcode := rfl
theorem locate_flags : locate 0x000C = some .flags := rfl
theorem locate_buflen : locate 0x0010 = some .buflen := rfl

/-- The register window: limb `k` or the header of register `r`. -/
theorem registerLocation_at {r : Nat} (hr : r < 32) {k : Nat} (hk : k < 64) :
    registerLocation (0x1000 + 0x100 * r + 4 * k)
      = if k < 32 then some (.limb (BitVec.ofNat 5 r) k)
        else if k = 32 then some (.hdr (BitVec.ofNat 5 r)) else none := by
  unfold registerLocation
  rw [show (0x1000 + 0x100 * r + 4 * k - 0x1000) / 0x100 = r by omega,
    show (0x1000 + 0x100 * r + 4 * k) % 0x100 / 4 = k by omega]

theorem locate_of_toNat {a : Offset} {n : Nat} (h : a.toNat = n) (h4 : n % 4 = 0) :
    locate a = locationAt n := by
  unfold locate; rw [h, if_pos h4]

theorem locationAt_register {n : Nat} (h1 : 0x1000 ≤ n) (h2 : n < 0x3000) :
    locationAt n = registerLocation n := by
  unfold locationAt
  rw [if_neg (by omega), if_neg (by omega), if_neg (by omega), if_neg (by omega), if_neg (by omega),
    if_neg (by omega), if_pos ⟨h1, h2⟩]

theorem locationAt_buffer {w : Nat} (h : w < 32) : locationAt (0x100 + 4 * w) = some (.bufw w) := by
  unfold locationAt
  rw [if_neg (by omega), if_neg (by omega), if_neg (by omega), if_neg (by omega), if_neg (by omega),
    if_pos (by omega), show (0x100 + 4 * w - 0x100) / 4 = w by omega]

theorem locate_limbOffset (r : RegIdx) {k : Nat} (h : k < 32) :
    locate (limbOffset r k) = some (.limb r k) := by
  have hr := r.isLt
  rw [locate_of_toNat (n := 0x1000 + 0x100 * r.toNat + 4 * k)
    (by rw [limbOffset, BitVec.toNat_ofNat]; exact Nat.mod_eq_of_lt (by omega)) (by omega),
    locationAt_register (by omega) (by omega), registerLocation_at hr (by omega), if_pos h,
    BitVec.ofNat_toNat, BitVec.setWidth_eq]

theorem locate_hdrOffset (r : RegIdx) : locate (hdrOffset r) = some (.hdr r) := by
  have hr := r.isLt
  rw [locate_of_toNat (n := 0x1000 + 0x100 * r.toNat + 4 * 32)
    (by rw [hdrOffset, BitVec.toNat_ofNat]; exact Nat.mod_eq_of_lt (by omega)) (by omega),
    locationAt_register (by omega) (by omega), registerLocation_at hr (by omega), if_neg (by omega),
    if_pos rfl, BitVec.ofNat_toNat, BitVec.setWidth_eq]

theorem locate_bufwOffset {w : Nat} (h : w < 32) : locate (bufwOffset w) = some (.bufw w) := by
  rw [locate_of_toNat (n := 0x100 + 4 * w)
    (by rw [bufwOffset, BitVec.toNat_ofNat]; exact Nat.mod_eq_of_lt (by omega)) (by omega),
    locationAt_buffer h]

/-- Every way an offset can have a location. -/
theorem locationAt_cases {n : Nat} {l : Location} (h : locationAt n = some l) :
    (l = .cmd ∧ n = 0x0000) ∨ (l = .status ∧ n = 0x0004) ∨ (l = .errcode ∧ n = 0x0008)
      ∨ (l = .flags ∧ n = 0x000C) ∨ (l = .buflen ∧ n = 0x0010)
      ∨ (∃ w, l = .bufw w ∧ 0x100 ≤ n ∧ n < 0x180)
      ∨ ((∃ r k, l = .limb r k ∨ l = .hdr r) ∧ 0x1000 ≤ n ∧ n < 0x3000 ∧ n % 0x100 / 4 ≤ 32) := by
  unfold locationAt at h
  split at h
  · next g => injection h with h; exact Or.inl ⟨h.symm, g⟩
  right
  split at h
  · next g => injection h with h; exact Or.inl ⟨h.symm, g⟩
  right
  split at h
  · next g => injection h with h; exact Or.inl ⟨h.symm, g⟩
  right
  split at h
  · next g => injection h with h; exact Or.inl ⟨h.symm, g⟩
  right
  split at h
  · next g => injection h with h; exact Or.inl ⟨h.symm, g⟩
  right
  split at h
  · next g => injection h with h; exact Or.inl ⟨_, h.symm, g⟩
  right
  split at h
  · next g =>
    unfold registerLocation at h
    dsimp only at h
    split at h
    · next g2 => injection h with h; exact ⟨⟨_, _, Or.inl h.symm⟩, g.1, g.2, by omega⟩
    · split at h
      · next g2 => injection h with h; exact ⟨⟨_, 0, Or.inr h.symm⟩, g.1, g.2, by omega⟩
      · simp at h
  · simp at h

theorem locate_cases {a : Offset} {l : Location} (h : locate a = some l) :
    a.toNat % 4 = 0 ∧ locationAt a.toNat = some l := by
  unfold locate at h
  split at h
  · next g => exact ⟨g, h⟩
  · simp at h

/-- The offsets with a location are those that rule R48 maps. -/
theorem mapped_iff (a : Offset) : Mapped a ↔ ∃ l, locate a = some l := by
  constructor
  · rintro ⟨h4, h⟩
    rw [locate_of_toNat rfl h4]
    unfold locationAt registerLocation
    dsimp only
    split_ifs <;> first | exact ⟨_, rfl⟩ | omega
  · rintro ⟨l, hl⟩
    obtain ⟨h4, h⟩ := locate_cases hl
    refine ⟨h4, ?_⟩
    rcases locationAt_cases h with h | h | h | h | h | ⟨w, -, h⟩ | ⟨-, h⟩ <;> omega

theorem locate_none {a : Offset} (h : ¬Mapped a) : locate a = none := by
  rcases hl : locate a with _ | l
  · rfl
  · exact absurd ((mapped_iff a).mpr ⟨l, hl⟩) h

/-- A location that takes a write lies where the host may write (rule R55). -/
theorem writable_of {a : Offset} {l : Location} {s t : State} {d : Word} (h : locate a = some l)
    (h2 : s.writeLocation l d = some t) : Writable a := by
  obtain ⟨h4, h⟩ := locate_cases h
  rcases locationAt_cases h with ⟨-, h⟩ | ⟨-, h⟩ | ⟨rfl, -⟩ | ⟨rfl, -⟩ | ⟨-, h⟩ | ⟨w, -, h⟩
    | ⟨⟨r, k, rfl | rfl⟩, -⟩
  · exact Or.inl (BitVec.eq_of_toNat_eq h)
  · exact Or.inr (Or.inl (BitVec.eq_of_toNat_eq h))
  · simp [State.writeLocation] at h2
  · simp [State.writeLocation] at h2
  · exact Or.inr (Or.inr (Or.inl (BitVec.eq_of_toNat_eq h)))
  · exact Or.inr (Or.inr (Or.inr ⟨h4, h⟩))
  · simp [State.writeLocation] at h2
  · simp [State.writeLocation] at h2

/-- The four locations that may be read while a command runs (rule R57). -/
theorem readableWhileBusy_iff {a : Offset} {l : Location} (h : locate a = some l) :
    l.readableWhileBusy = true ↔ a = 0x0000 ∨ a = 0x0004 ∨ a = 0x0008 ∨ a = 0x000C := by
  constructor
  · intro hb
    rcases locationAt_cases (locate_cases h).2 with ⟨-, h⟩ | ⟨-, h⟩ | ⟨-, h⟩ | ⟨-, h⟩ | ⟨rfl, -⟩
      | ⟨w, rfl, -⟩ | ⟨⟨r, k, rfl | rfl⟩, -⟩
    · exact Or.inl (BitVec.eq_of_toNat_eq h)
    · exact Or.inr (Or.inl (BitVec.eq_of_toNat_eq h))
    · exact Or.inr (Or.inr (Or.inl (BitVec.eq_of_toNat_eq h)))
    · exact Or.inr (Or.inr (Or.inr (BitVec.eq_of_toNat_eq h)))
    all_goals simp [Location.readableWhileBusy] at hb
  · rintro (rfl | rfl | rfl | rfl)
    · rw [locate_cmd] at h; injection h with h; subst h; rfl
    · rw [locate_status] at h; injection h with h; subst h; rfl
    · rw [locate_errcode] at h; injection h with h; subst h; rfl
    · rw [locate_flags] at h; injection h with h; subst h; rfl

/-! ### Transactions at a location -/

theorem popped_answer {s : State} {e : Event} {es : List Event} (h : s.agenda = e :: es) (a : Answer) :
    s.popped.answer a = s.answered es a := by
  unfold State.popped State.answer State.answered; rw [h]; rfl

theorem wordAt_popped (s : State) (l : Location) : s.popped.wordAt l = s.wordAt l := by
  cases l <;> rfl

/-- A read that is answered. -/
theorem step_read {s : State} {a : Offset} {es : List Event} {l : Location} (h : s.agenda = .read a :: es)
    (hl : locate a = some l) (hb : s.status.busy = false ∨ l.readableWhileBusy = true) :
    step s = .next (s.answered es (.data (s.wordAt l))) := by
  rw [step_cons h]
  simp only [takeEvent, hostRead, hl]
  rw [if_neg (by rcases hb with hb | hb <;> simp [hb]), popped_answer h, wordAt_popped]

/-- A read that is refused. -/
theorem step_read_refused {s : State} {a : Offset} {es : List Event} (h : s.agenda = .read a :: es)
    (hr : ∀ l, locate a = some l → s.status.busy = true ∧ l.readableWhileBusy = false) :
    step s = .next (s.answered es .busError) := by
  rw [step_cons h]
  simp only [takeEvent, hostRead]
  rcases hl : locate a with _ | l
  · simp only [popped_answer h]
  · obtain ⟨h1, h2⟩ := hr l hl
    simp only [State.popped_status, h1, h2, Bool.not_false, Bool.and_self, if_true, popped_answer h]

/-- A write that is accepted. -/
theorem step_write {s t : State} {a : Offset} {d : Word} {es : List Event} {l : Location}
    (h : s.agenda = .write a d :: es) (hl : locate a = some l) (hb : s.status.busy = false)
    (hw : s.popped.writeLocation l d = some t) : step s = .next (t.answer .ok) := by
  rw [step_cons h]
  simp only [takeEvent, hostWrite, hl, State.popped_status, hb, Bool.false_eq_true, if_false, hw]

/-- A write that is refused. -/
theorem step_write_refused {s : State} {a : Offset} {d : Word} {es : List Event}
    (h : s.agenda = .write a d :: es)
    (hr : ∀ l, locate a = some l → s.status.busy = true ∨ s.popped.writeLocation l d = none) :
    step s = .next (s.answered es .busError) := by
  rw [step_cons h]
  rcases hostWrite_cases a d s.popped with h1 | ⟨l, t, hl, hb, hw, -⟩
  · simp only [takeEvent, h1, popped_answer h]
  · rcases hr l hl with h2 | h2
    · rw [State.popped_status, h2] at hb; simp at hb
    · rw [h2] at hw; simp at hw

end Sys2Proof.Machine
end

