-- ==== Sys2Proof/Laws/Bytes.lean ====
section
/-! SUPPORT. Big-endian bytes: the value of a byte string and the minimal form of a magnitude undo each
other (rules R52, R93, R94). -/

namespace Sys2Proof.Machine

theorem bytesValue_append_one (bs : List Byte) (b : Byte) :
    bytesValue (bs ++ [b]) = bytesValue bs * 256 + b.toNat := by
  simp [bytesValue]

/-- The big-endian base-256 digits of a number, read back. -/
theorem bytesValue_digits (m n : Nat) :
    bytesValue ((List.range n).map fun k => BitVec.ofNat 8 (m / 256 ^ (n - 1 - k))) = m % 256 ^ n := by
  induction n generalizing m with
  | zero => simp [bytesValue, Nat.mod_one]
  | succ n ih =>
    have hd : (List.range n).map (fun k => BitVec.ofNat 8 (m / 256 ^ (n + 1 - 1 - k)))
        = (List.range n).map fun k => BitVec.ofNat 8 (m / 256 / 256 ^ (n - 1 - k)) := by
      apply List.map_congr_left
      intro k hk
      have : n + 1 - 1 - k = n - 1 - k + 1 := by have := List.mem_range.mp hk; omega
      rw [this, pow_succ, Nat.mul_comm, Nat.div_div_eq_div_mul]
    rw [List.range_succ, List.map_append, List.map_cons, List.map_nil, bytesValue_append_one, hd,
      ih (m / 256), pow_succ, Nat.mul_comm (256 ^ n) 256, Nat.mod_mul]
    simp
    omega

theorem lt_of_byteLength (m : Nat) : m < 256 ^ byteLength m := by
  have h := lt_two_pow_bitlen m
  have : (256 : Nat) ^ byteLength m = 2 ^ (8 * byteLength m) := by
    rw [show (256 : Nat) = 2 ^ 8 by rfl, ← pow_mul]
  rw [this]
  refine h.trans_le (Nat.pow_le_pow_right (by decide) ?_)
  unfold byteLength; omega

/-- Serialising a magnitude and reading the bytes back gives the magnitude. -/
theorem bytesValue_magnitudeBytes (m : Nat) : bytesValue (magnitudeBytes m) = m := by
  unfold magnitudeBytes
  rw [bytesValue_digits, Nat.mod_eq_of_lt (lt_of_byteLength m)]

/-- A byte string's value is below `256^n`. -/
theorem bytesValue_lt (bs : List Byte) : bytesValue bs < 256 ^ bs.length := by
  induction bs using List.reverseRecOn with
  | nil => simp [bytesValue]
  | append_singleton bs b ih =>
    rw [bytesValue_append_one, List.length_append, List.length_singleton, pow_succ]
    have := b.isLt
    omega

/-- What `LDBE` loads fits a register (rule R93). -/
theorem fits_bytesValue {bs : List Byte} (h : bs.length ≤ Config.bufBytes) :
    fits (bytesValue bs : Int) = true := by
  rw [fits_iff, Int.natAbs_natCast]
  refine (bytesValue_lt bs).trans_le ?_
  calc (256 : Nat) ^ bs.length ≤ 256 ^ Config.bufBytes := Nat.pow_le_pow_right (by decide) h
    _ = 2 ^ (32 * Config.limbCap) := by
      rw [show (256 : Nat) = 2 ^ 8 by rfl, ← pow_mul]
      exact congrArg (fun k => 2 ^ k) (by decide : 8 * Config.bufBytes = 32 * Config.limbCap)

theorem Memory.readBytes_length (m : Memory) (k n : Nat) : (m.readBytes k n).length = n := by
  simp [Memory.readBytes]

end Sys2Proof.Machine
end

