-- ==== Sys2Proof/Laws/Exec.lean ====
section
/-! SUPPORT. The engine's step on each command as one call of a shared operation: no later proof unfolds
`exec` or a meaning. -/

namespace Sys2Proof.Machine

theorem exec_ldi (rd : RegIdx) (imm : BitVec 16) (s : State) :
    exec (.ldi rd imm) s = commit s (.ok [(rd, (imm.toNat : Int))]) := rfl

theorem exec_ldbe (rd : RegIdx) (s : State) :
    exec (.ldbe rd) s =
      if s.buflen.toNat = 0 ∨ 128 < s.buflen.toNat then .next (afterFault 0x03 s)
      else commit s (.ok [(rd, (bytesValue (s.buf.readBytes 0 s.buflen.toNat) : Int))]) := by
  show execLdbe rd s = _
  unfold execLdbe
  simp only [Config.bufBytes]
  split
  · rfl
  · rw [memRead_eq (by simp only [Config.bufBytes]; omega)]

theorem exec_stbe (ra : RegIdx) (s : State) :
    exec (.stbe ra) s =
      .next { s with
        buf := s.buf.writeBytes 0 (magnitudeBytes (s.val ra).natAbs)
        buflen := BitVec.ofNat 8 (byteLength (s.val ra).natAbs) }.finish := by
  show execStbe ra s = _
  unfold execStbe
  rw [memWrite_eq (magnitudeBytes_le s ra)]

theorem exec_mov (rd ra : RegIdx) (s : State) :
    exec (.mov rd ra) s = commit s (.ok [(rd, s.val ra)]) := rfl

theorem exec_ldc (rd : RegIdx) (cv : Scheme) (sel : CurveConst) (s : State) :
    exec (.ldc rd cv sel) s = commit s (.ok [(rd, romConst cv sel)]) := rfl

theorem exec_add (rd ra rb : RegIdx) (s : State) :
    exec (.add rd ra rb) s = commit s (.ok [(rd, s.val ra + s.val rb)]) := rfl

theorem exec_sub (rd ra rb : RegIdx) (s : State) :
    exec (.sub rd ra rb) s = commit s (.ok [(rd, s.val ra - s.val rb)]) := rfl

theorem exec_mul (rd ra rb : RegIdx) (s : State) :
    exec (.mul rd ra rb) s = commit s (.ok [(rd, s.val ra * s.val rb)]) := rfl

theorem exec_cmp (ra rb : RegIdx) (s : State) :
    exec (.cmp ra rb) s = .next { s with flags := compareFlag (s.val ra) (s.val rb) }.finish := rfl

theorem exec_lsh (rd ra : RegIdx) (sh : BitVec 5) (s : State) :
    exec (.lsh rd ra sh) s = commit s (.ok [(rd, s.val ra * 2 ^ sh.toNat)]) := by
  show execLsh rd ra sh s = _
  simp [execLsh, shiftFactor]

theorem exec_rsh (rd ra : RegIdx) (sh : BitVec 5) (s : State) :
    exec (.rsh rd ra sh) s = commit s (.ok [(rd, shiftRightValue (s.val ra) sh)]) := rfl

theorem exec_div (rd ra rb : RegIdx) (s : State) :
    exec (.div rd ra rb) s = commit s ((divideValue (s.val ra) (s.val rb)).map fun q => [(rd, q)]) := rfl

theorem exec_mod (rd ra rb : RegIdx) (s : State) :
    exec (.mod rd ra rb) s =
      commit s ((remainderValue (s.val ra) (s.val rb)).map fun r => [(rd, r)]) := rfl

theorem exec_inv (rd ra rb : RegIdx) (s : State) :
    exec (.inv rd ra rb) s = commit s ((modInverse (s.val ra) (s.val rb)).map fun v => [(rd, v)]) := rfl

theorem exec_mulmod (rd ra rb rc : RegIdx) (s : State) :
    exec (.mulmod rd ra rb rc) s =
      commit s ((remainderValue (s.val ra * s.val rb) (s.val rc)).map fun r => [(rd, r)]) := rfl

theorem exec_modp (rd ra : RegIdx) (cv : Scheme) (s : State) :
    exec (.modp rd ra cv) s = commit s (.ok [(rd, modp cv (s.val ra))]) := rfl

theorem exec_jdbl (rd ra : RegIdx) (cv : Scheme) (s : State) :
    exec (.jdbl rd ra cv) s = whenLegal s (jacobianBase rd && jacobianBase ra)
      (.ok (jacobianDest rd (jDouble cv (s.jacobian ra)))) := rfl

theorem exec_jadd (rd ra rb : RegIdx) (cv : Scheme) (s : State) :
    exec (.jadd rd ra rb cv) s = whenLegal s (jacobianBase rd && jacobianBase ra && jacobianBase rb)
      (.ok (jacobianDest rd (jAdd cv (s.jacobian ra) (s.jacobian rb)))) := rfl

theorem exec_jmul (rd ra rb : RegIdx) (cv : Scheme) (s : State) :
    exec (.jmul rd ra rb cv) s = whenLegal s (jacobianBase rd && jacobianBase ra)
      (.ok (jacobianDest rd (jMul cv (s.jacobian ra) (s.val rb)))) := rfl

theorem exec_fromj (rd ra : RegIdx) (cv : Scheme) (s : State) :
    exec (.fromj rd ra cv) s = whenLegal s (affineBase rd && jacobianBase ra)
      ((fromJ cv (s.jacobian ra)).map (affineDest rd)) := rfl

theorem exec_pmul (rd ra rb : RegIdx) (cv : Scheme) (s : State) :
    exec (.pmul rd ra rb cv) s = whenLegal s (affineBase rd && affineBase ra)
      ((fromJ cv (jMul cv (s.affine ra).toJacobian (s.val rb))).map (affineDest rd)) := rfl

theorem exec_padd (rd ra rb : RegIdx) (cv : Scheme) (s : State) :
    exec (.padd rd ra rb cv) s = whenLegal s (affineBase rd && affineBase ra && affineBase rb)
      ((aAdd cv (s.affine ra) (s.affine rb)).map (affineDest rd)) := rfl

theorem exec_pdbl (rd ra : RegIdx) (cv : Scheme) (s : State) :
    exec (.pdbl rd ra cv) s = whenLegal s (affineBase rd && affineBase ra)
      ((aDouble cv (s.affine ra)).map (affineDest rd)) := rfl

theorem exec_pmulti (rd ra rb : RegIdx) (cv : Scheme) (s : State) :
    exec (.pmulti rd ra rb cv) s = whenLegal s (affineBase rd && affineBase ra)
      ((multiValue cv (s.affine ra) (s.val rb)).map (affineDest rd)) := rfl

theorem exec_shamir (rd ra rb rc : RegIdx) (cv : Scheme) (s : State) :
    exec (.shamir rd ra rb rc cv) s = whenLegal s (affineBase rd && affineBase rc)
      ((shamirValue cv (s.val ra) (s.val rb) (s.affine rc)).map (affineDest rd)) := rfl

/-- Faults of a command whose operand check fails. -/
theorem commit_map_error {α : Type} (s : State) {r : Except FaultCode α} {c : FaultCode}
    (f : α → List (RegIdx × Int)) (h : r = .error c) : commit s (r.map f) = .next (afterFault c.code s) := by
  rw [h]; rfl

/-- A command whose operand check passes. -/
theorem commit_map_ok {α : Type} (s : State) {r : Except FaultCode α} {v : α}
    (f : α → List (RegIdx × Int)) (h : r = .ok v) : commit s (r.map f) = commit s (.ok (f v)) := by
  rw [h]; rfl

/-- A Jacobian base within its limit (rule R76). -/
theorem jacobianBase_of_le {b : RegIdx} (h : b.toNat ≤ 29) : jacobianBase b = true := by
  simpa [jacobianBase] using h

/-- An affine base within its limit (rule R76). -/
theorem affineBase_of_le {b : RegIdx} (h : b.toNat ≤ 30) : affineBase b = true := by
  simpa [affineBase] using h

/-- What fits, in the number of rule R191. -/
theorem fits_of_lt {v : Int} (h : v.natAbs < 2 ^ 1024) : fits v = true := by
  rw [fits_iff, show 32 * Config.limbCap = 1024 from rfl]; exact h

theorem not_fits_of_le {v : Int} (h : 2 ^ 1024 ≤ v.natAbs) : fits v = false := by
  rcases hf : fits v with _ | _
  · rfl
  · rw [fits_iff, show 32 * Config.limbCap = 1024 from rfl] at hf
    exact absurd hf (Nat.not_lt.mpr h)

/-- The overflow of a command with one destination (rules R18, R191). -/
theorem commit_overflow_one {s : State} (rd : RegIdx) {v : Int} (h : 2 ^ 1024 ≤ v.natAbs) :
    commit s (.ok [(rd, v)]) = .next (afterFault 0x04 s) :=
  commit_overflow (by simp only [List.all_cons, not_fits_of_le h, Bool.false_and])

end Sys2Proof.Machine
end

