-- ==== Sys2Proof/Laws/Inverse.lean ====
section
/-! SUPPORT. The modular inversion engine: the loop of rule R112 computes the result of rule R111, by the
invariants of rule R113. -/

namespace Sys2Proof.Machine

/-- A round leaves `high mod low` in `low` (rule R113). -/
theorem invRound_low (s : InvState) : (invRound s).low = s.high % s.low := by
  have := Int.mul_ediv_add_emod s.high s.low
  simp only [invRound]; omega

/-- The invariants hold before the first round (rule R113). -/
theorem invStart_invariant (a : Int) {m : Int} (hm : 2 ≤ m) : (invStart a m).Invariant a m where
  low_eq := by simp [invStart, Int.ModEq]
  high_eq := by simp [invStart, Int.ModEq]
  gcd_eq := rfl
  nonneg := Int.emod_nonneg _ (by omega)
  lt := Int.emod_lt_of_pos _ (by omega)

/-- A round keeps the invariants (rule R113). -/
theorem invRound_invariant {a m : Int} {s : InvState} (h : s.Invariant a m) (h1 : 1 < s.low) :
    (invRound s).Invariant a m where
  low_eq := by
    have e := h.high_eq.sub (h.low_eq.mul_right (s.high / s.low))
    rwa [show s.hm * a - s.lm * a * (s.high / s.low) = (s.hm - s.lm * (s.high / s.low)) * a by ring] at e
  high_eq := h.low_eq
  gcd_eq := by
    rw [← h.gcd_eq, invRound_low, Int.gcd_comm s.low s.high]
    exact Int.gcd_emod ..
  nonneg := by rw [invRound_low]; exact Int.emod_nonneg _ (by omega)
  lt := by rw [invRound_low]; exact Int.emod_lt_of_pos _ (by omega)

/-- With fuel for `low` rounds the loop ends with `low` 1 or 0 and the invariants kept; `high` stays above
1, so `low` cannot pass from above 1 to 0 when the gcd is 1 (rule R113). -/
theorem invLoop_invariant {a m : Int} (fuel : Nat) {s : InvState} (h : s.Invariant a m)
    (h2 : 2 ≤ s.high) (hf : s.low.toNat ≤ fuel) : (invLoop fuel s).Invariant a m
      ∧ (invLoop fuel s).low ≤ 1 ∧ 2 ≤ (invLoop fuel s).high := by
  induction fuel generalizing s with
  | zero => exact ⟨h, by show s.low ≤ 1; omega, h2⟩
  | succ fuel ih =>
    unfold invLoop
    split
    · next h1 =>
      refine ih (invRound_invariant h h1) h1 ?_
      have : s.high % s.low < s.low := Int.emod_lt_of_pos _ (by omega)
      rw [invRound_low]; omega
    · next h1 => exact ⟨h, by omega, h2⟩

/-- Which of 1 and 0 the loop ends with says whether an inverse exists (rule R113). -/
theorem invLoop_start (a : Int) {m : Int} (hm : 2 ≤ m) :
    ((invLoop (a % m).toNat (invStart a m)).low = 1
        ∧ (invLoop (a % m).toNat (invStart a m)).lm * a ≡ 1 [ZMOD m] ∧ Int.gcd a m = 1)
      ∨ ((invLoop (a % m).toNat (invStart a m)).low = 0 ∧ Int.gcd a m ≠ 1) := by
  obtain ⟨h, h1, h2⟩ := invLoop_invariant _ (invStart_invariant a hm) hm (le_refl (a % m).toNat)
  generalize invLoop (a % m).toNat (invStart a m) = s at h h1 h2 ⊢
  have hg : Int.gcd s.low s.high = Int.gcd a m := by rw [h.gcd_eq, Int.gcd_emod]
  have hr := h.low_eq
  rcases (by have := h.nonneg; omega : s.low = 0 ∨ s.low = 1) with h0 | h0
  · right
    rw [h0, Int.gcd_zero_left] at hg
    exact ⟨h0, by omega⟩
  · left
    rw [h0] at hr hg
    exact ⟨h0, hr, by rw [← hg]; simp⟩

/-- A modulus below 2 is refused before anything else (rules R111, R197). -/
theorem modInverse_small {a m : Int} (h : m < 2) : modInverse a m = .error .modulusInvalid := by
  simp [modInverse, h]

/-- An operand with no common divisor has its inverse in `[1, m)` (rule R111). -/
theorem modInverse_ok {a m : Int} (hm : 2 ≤ m) (hg : Int.gcd a m = 1) :
    ∃ v, modInverse a m = .ok v ∧ 1 ≤ v ∧ v < m ∧ a * v % m = 1 := by
  obtain ⟨h1, h2, -⟩ | ⟨-, h2⟩ := invLoop_start a hm
  · have hres : modInverse a m = .ok ((invLoop (a % m).toNat (invStart a m)).lm % m) := by
      simp only [modInverse, if_neg (by omega : ¬m < 2), h1, one_ne_zero, if_false]
    generalize (invLoop (a % m).toNat (invStart a m)).lm = lm at h2 hres
    have hmul : a * (lm % m) % m = 1 := by
      rw [Int.mul_emod, Int.emod_emod, ← Int.mul_emod, mul_comm, h2]
      exact Int.emod_eq_of_lt (by omega) (by omega)
    have hnn : 0 ≤ lm % m := Int.emod_nonneg _ (by omega)
    refine ⟨_, hres, ?_, Int.emod_lt_of_pos _ (by omega), hmul⟩
    by_contra hc
    have : lm % m = 0 := by omega
    rw [this, mul_zero, Int.zero_emod] at hmul
    omega
  · exact absurd hg h2

/-- An operand with a common divisor has no inverse: a fault (rules R111, R195). -/
theorem modInverse_error {a m : Int} (hm : 2 ≤ m) (hg : Int.gcd a m ≠ 1) :
    modInverse a m = .error .notInvertible := by
  obtain ⟨-, -, h2⟩ | ⟨h1, -⟩ := invLoop_start a hm
  · exact absurd h2 hg
  · simp only [modInverse, if_neg (by omega : ¬m < 2), h1, if_true]

end Sys2Proof.Machine
end

