-- ==== Sys2Proof/Laws/PerInstr.lean ====
section
/-! SUPPORT. A statement made for every command, with one lemma per constructor: the word that the encoder
makes of a command matches the command's row of the opcode table (rule R77). -/

namespace Sys2Proof.Laws.EncodesItsRow

/-- The encoder's word has the row's opcode and zeros in the row's must-be-zero bits. -/
def Statement (i : Instr) : Prop := encode i &&& i.row.mask = i.row.value

/-- Masking a word field by field. -/
theorem packFields_and (op : BitVec 8) (rd ra rb rc : RegIdx) (cv : BitVec 2) (mo : BitVec 8)
    (md ma mb mc : RegIdx) (mv mz : BitVec 2) :
    packFields op rd ra rb rc cv &&& (mo ++ md ++ ma ++ mb ++ mc ++ mv ++ mz : BitVec 32)
      = packFields (op &&& mo) (rd &&& md) (ra &&& ma) (rb &&& mb) (rc &&& mc) (cv &&& mv) := by
  unfold packFields
  refine BitVec.eq_of_getLsbD_eq fun k _ => ?_
  simp only [BitVec.getLsbD_and, BitVec.getLsbD_append]
  split_ifs <;> simp

/-- The words of a format whose used fields are those that the table's mask leaves out. -/
theorem of_fields {op : BitVec 8} {rd ra rb rc : RegIdx} {cv : BitVec 2} {md ma mb mc : RegIdx}
    {mv mz : BitVec 2} {mask value : Word}
    (hm : mask = (0xFF#8 ++ md ++ ma ++ mb ++ mc ++ mv ++ mz : BitVec 32))
    (hd : rd &&& md = 0) (ha : ra &&& ma = 0) (hb : rb &&& mb = 0) (hc : rc &&& mc = 0)
    (hv : cv &&& mv = 0) (he : value = packFields op 0 0 0 0 0) :
    packFields op rd ra rb rc cv &&& mask = value := by
  rw [hm, packFields_and, hd, ha, hb, hc, hv, he]
  congr 1
  exact BitVec.and_allOnes

theorem ldi (rd : RegIdx) (imm : BitVec 16) : Statement (.ldi rd imm) := by
  unfold Statement encode Instr.row
  refine BitVec.eq_of_getLsbD_eq fun k hk => ?_
  rw [show (0xFF000007 : Word) = (0xFF#8 ++ 0#5 ++ 0#16 ++ 7#3 : BitVec 32) by rfl,
    show (0x01000000 : Word) = (0x01#8 ++ 0#5 ++ 0#16 ++ 0#3 : BitVec 32) by rfl]
  simp only [BitVec.getLsbD_and, BitVec.getLsbD_append]
  split_ifs <;> simp
  intro h
  rw [h]
  rfl

theorem ldbe (rd : RegIdx) : Statement (.ldbe rd) :=
  of_fields (md := 0) (ma := 31) (mb := 31) (mc := 31) (mv := 3) (mz := 3) rfl (BitVec.and_zero) (BitVec.zero_and)
    (BitVec.zero_and) (BitVec.zero_and) (BitVec.zero_and) rfl

theorem stbe (ra : RegIdx) : Statement (.stbe ra) :=
  of_fields (md := 31) (ma := 0) (mb := 31) (mc := 31) (mv := 3) (mz := 3) rfl (BitVec.zero_and) (BitVec.and_zero)
    (BitVec.zero_and) (BitVec.zero_and) (BitVec.zero_and) rfl

theorem mov (rd : RegIdx) (ra : RegIdx) : Statement (.mov rd ra) :=
  of_fields (md := 0) (ma := 0) (mb := 31) (mc := 31) (mv := 3) (mz := 3) rfl (BitVec.and_zero) (BitVec.and_zero)
    (BitVec.zero_and) (BitVec.zero_and) (BitVec.zero_and) rfl

theorem ldc (rd : RegIdx) (cv : Scheme) (sel : CurveConst) : Statement (.ldc rd cv sel) :=
  of_fields (md := 0) (ma := 31) (mb := 31) (mc := 24) (mv := 0) (mz := 3) rfl (BitVec.and_zero) (BitVec.zero_and)
    (BitVec.zero_and) (by cases sel <;> rfl) (BitVec.and_zero) rfl

theorem add (rd : RegIdx) (ra : RegIdx) (rb : RegIdx) : Statement (.add rd ra rb) :=
  of_fields (md := 0) (ma := 0) (mb := 0) (mc := 31) (mv := 3) (mz := 3) rfl (BitVec.and_zero) (BitVec.and_zero)
    (BitVec.and_zero) (BitVec.zero_and) (BitVec.zero_and) rfl

theorem sub (rd : RegIdx) (ra : RegIdx) (rb : RegIdx) : Statement (.sub rd ra rb) :=
  of_fields (md := 0) (ma := 0) (mb := 0) (mc := 31) (mv := 3) (mz := 3) rfl (BitVec.and_zero) (BitVec.and_zero)
    (BitVec.and_zero) (BitVec.zero_and) (BitVec.zero_and) rfl

theorem mul (rd : RegIdx) (ra : RegIdx) (rb : RegIdx) : Statement (.mul rd ra rb) :=
  of_fields (md := 0) (ma := 0) (mb := 0) (mc := 31) (mv := 3) (mz := 3) rfl (BitVec.and_zero) (BitVec.and_zero)
    (BitVec.and_zero) (BitVec.zero_and) (BitVec.zero_and) rfl

theorem cmp (ra : RegIdx) (rb : RegIdx) : Statement (.cmp ra rb) :=
  of_fields (md := 31) (ma := 0) (mb := 0) (mc := 31) (mv := 3) (mz := 3) rfl (BitVec.zero_and) (BitVec.and_zero)
    (BitVec.and_zero) (BitVec.zero_and) (BitVec.zero_and) rfl

theorem lsh (rd : RegIdx) (ra : RegIdx) (sh : BitVec 5) : Statement (.lsh rd ra sh) :=
  of_fields (md := 0) (ma := 0) (mb := 0) (mc := 31) (mv := 3) (mz := 3) rfl (BitVec.and_zero) (BitVec.and_zero)
    (BitVec.and_zero) (BitVec.zero_and) (BitVec.zero_and) rfl

theorem rsh (rd : RegIdx) (ra : RegIdx) (sh : BitVec 5) : Statement (.rsh rd ra sh) :=
  of_fields (md := 0) (ma := 0) (mb := 0) (mc := 31) (mv := 3) (mz := 3) rfl (BitVec.and_zero) (BitVec.and_zero)
    (BitVec.and_zero) (BitVec.zero_and) (BitVec.zero_and) rfl

theorem div (rd : RegIdx) (ra : RegIdx) (rb : RegIdx) : Statement (.div rd ra rb) :=
  of_fields (md := 0) (ma := 0) (mb := 0) (mc := 31) (mv := 3) (mz := 3) rfl (BitVec.and_zero) (BitVec.and_zero)
    (BitVec.and_zero) (BitVec.zero_and) (BitVec.zero_and) rfl

theorem mod (rd : RegIdx) (ra : RegIdx) (rb : RegIdx) : Statement (.mod rd ra rb) :=
  of_fields (md := 0) (ma := 0) (mb := 0) (mc := 31) (mv := 3) (mz := 3) rfl (BitVec.and_zero) (BitVec.and_zero)
    (BitVec.and_zero) (BitVec.zero_and) (BitVec.zero_and) rfl

theorem inv (rd : RegIdx) (ra : RegIdx) (rb : RegIdx) : Statement (.inv rd ra rb) :=
  of_fields (md := 0) (ma := 0) (mb := 0) (mc := 31) (mv := 3) (mz := 3) rfl (BitVec.and_zero) (BitVec.and_zero)
    (BitVec.and_zero) (BitVec.zero_and) (BitVec.zero_and) rfl

theorem mulmod (rd : RegIdx) (ra : RegIdx) (rb : RegIdx) (rc : RegIdx) : Statement (.mulmod rd ra rb rc) :=
  of_fields (md := 0) (ma := 0) (mb := 0) (mc := 0) (mv := 3) (mz := 3) rfl (BitVec.and_zero) (BitVec.and_zero)
    (BitVec.and_zero) (BitVec.and_zero) (BitVec.zero_and) rfl

theorem modp (rd : RegIdx) (ra : RegIdx) (cv : Scheme) : Statement (.modp rd ra cv) :=
  of_fields (md := 0) (ma := 0) (mb := 31) (mc := 31) (mv := 0) (mz := 3) rfl (BitVec.and_zero) (BitVec.and_zero)
    (BitVec.zero_and) (BitVec.zero_and) (BitVec.and_zero) rfl

theorem jdbl (rd : RegIdx) (ra : RegIdx) (cv : Scheme) : Statement (.jdbl rd ra cv) :=
  of_fields (md := 0) (ma := 0) (mb := 31) (mc := 31) (mv := 0) (mz := 3) rfl (BitVec.and_zero) (BitVec.and_zero)
    (BitVec.zero_and) (BitVec.zero_and) (BitVec.and_zero) rfl

theorem jadd (rd : RegIdx) (ra : RegIdx) (rb : RegIdx) (cv : Scheme) : Statement (.jadd rd ra rb cv) :=
  of_fields (md := 0) (ma := 0) (mb := 0) (mc := 31) (mv := 0) (mz := 3) rfl (BitVec.and_zero) (BitVec.and_zero)
    (BitVec.and_zero) (BitVec.zero_and) (BitVec.and_zero) rfl

theorem jmul (rd : RegIdx) (ra : RegIdx) (rb : RegIdx) (cv : Scheme) : Statement (.jmul rd ra rb cv) :=
  of_fields (md := 0) (ma := 0) (mb := 0) (mc := 31) (mv := 0) (mz := 3) rfl (BitVec.and_zero) (BitVec.and_zero)
    (BitVec.and_zero) (BitVec.zero_and) (BitVec.and_zero) rfl

theorem fromj (rd : RegIdx) (ra : RegIdx) (cv : Scheme) : Statement (.fromj rd ra cv) :=
  of_fields (md := 0) (ma := 0) (mb := 31) (mc := 31) (mv := 0) (mz := 3) rfl (BitVec.and_zero) (BitVec.and_zero)
    (BitVec.zero_and) (BitVec.zero_and) (BitVec.and_zero) rfl

theorem pmul (rd : RegIdx) (ra : RegIdx) (rb : RegIdx) (cv : Scheme) : Statement (.pmul rd ra rb cv) :=
  of_fields (md := 0) (ma := 0) (mb := 0) (mc := 31) (mv := 0) (mz := 3) rfl (BitVec.and_zero) (BitVec.and_zero)
    (BitVec.and_zero) (BitVec.zero_and) (BitVec.and_zero) rfl

theorem padd (rd : RegIdx) (ra : RegIdx) (rb : RegIdx) (cv : Scheme) : Statement (.padd rd ra rb cv) :=
  of_fields (md := 0) (ma := 0) (mb := 0) (mc := 31) (mv := 0) (mz := 3) rfl (BitVec.and_zero) (BitVec.and_zero)
    (BitVec.and_zero) (BitVec.zero_and) (BitVec.and_zero) rfl

theorem pdbl (rd : RegIdx) (ra : RegIdx) (cv : Scheme) : Statement (.pdbl rd ra cv) :=
  of_fields (md := 0) (ma := 0) (mb := 31) (mc := 31) (mv := 0) (mz := 3) rfl (BitVec.and_zero) (BitVec.and_zero)
    (BitVec.zero_and) (BitVec.zero_and) (BitVec.and_zero) rfl

theorem pmulti (rd : RegIdx) (ra : RegIdx) (rb : RegIdx) (cv : Scheme) : Statement (.pmulti rd ra rb cv) :=
  of_fields (md := 0) (ma := 0) (mb := 0) (mc := 31) (mv := 0) (mz := 3) rfl (BitVec.and_zero) (BitVec.and_zero)
    (BitVec.and_zero) (BitVec.zero_and) (BitVec.and_zero) rfl

theorem shamir (rd : RegIdx) (ra : RegIdx) (rb : RegIdx) (rc : RegIdx) (cv : Scheme) : Statement (.shamir rd ra rb rc cv) :=
  of_fields (md := 0) (ma := 0) (mb := 0) (mc := 0) (mv := 0) (mz := 3) rfl (BitVec.and_zero) (BitVec.and_zero)
    (BitVec.and_zero) (BitVec.and_zero) (BitVec.and_zero) rfl

end Sys2Proof.Laws.EncodesItsRow
end

