-- ==== Sys2Proof/Laws/Primes.lean ====
section
/-! SUPPORT. The two field primes are prime (rules R30, R135): Pocklington's test, with a certificate for
each prime factor it rests on. -/

namespace Sys2Proof.Machine

/-! ### The test -/

/-- `a^e mod n` by repeated squaring, for an exponent below `2^fuel`. -/
def powMod (n : Nat) : Nat → Nat → Nat → Nat
  | 0, _, _ => 1 % n
  | fuel + 1, a, e =>
    if e % 2 = 1 then a * powMod n fuel (a * a % n) (e / 2) % n
    else powMod n fuel (a * a % n) (e / 2)

theorem powMod_eq (n fuel a e : Nat) (h : e < 2 ^ fuel) : powMod n fuel a e = a ^ e % n := by
  induction fuel generalizing a e with
  | zero => simp at h; simp [powMod, h]
  | succ fuel ih =>
    have hh : e / 2 < 2 ^ fuel := by rw [pow_succ] at h; omega
    have hsq : (a * a % n) ^ (e / 2) % n = a ^ (2 * (e / 2)) % n := by
      rw [← Nat.pow_mod, ← pow_two, ← pow_mul]
    unfold powMod
    rw [ih _ _ hh, hsq]
    split
    · next h1 =>
      rw [Nat.mul_mod, Nat.mod_mod, ← Nat.mul_mod, ← pow_succ']
      congr 2; omega
    · next h1 => congr 2; omega

/-- A prime factor `q` of `n - 1` with a witness `a` divides `r - 1` for every prime `r` that divides
`n`. -/
theorem dvd_of_witness {n q a fuel : Nat} (hn0 : 0 < n) (hfuel : n - 1 < 2 ^ fuel) (hq : q.Prime) (hqn : q ∣ n - 1)
    (h1 : powMod n fuel a (n - 1) = 1)
    (h2 : Nat.gcd (powMod n fuel a ((n - 1) / q) + (n - 1)) n = 1)
    {r : Nat} (hr : r.Prime) (hrn : r ∣ n) : q ∣ r - 1 := by
  have : Fact r.Prime := ⟨hr⟩
  rw [powMod_eq _ _ _ _ hfuel] at h1
  rw [powMod_eq _ _ _ _ ((Nat.div_le_self _ _).trans_lt hfuel)] at h2
  have cast_mod : ∀ k : Nat, ((k % n : Nat) : ZMod r) = k := by
    intro k
    rw [ZMod.natCast_eq_natCast_iff]
    exact (Nat.mod_modEq k n).of_dvd hrn
  have hx1 : (a : ZMod r) ^ (n - 1) = 1 := by
    have := cast_mod (a ^ (n - 1)); rw [h1] at this; push_cast at this; exact this.symm
  have hx2 : (a : ZMod r) ^ ((n - 1) / q) ≠ 1 := by
    intro hx
    have h3 : ((a ^ ((n - 1) / q) % n + (n - 1) : Nat) : ZMod r) = 0 := by
      have hn : ((n - 1 : Nat) : ZMod r) = -1 := by
        rw [Nat.cast_sub hn0, (ZMod.natCast_eq_zero_iff n r).mpr hrn]; simp
      rw [Nat.cast_add, cast_mod, hn]; push_cast; rw [hx]; simp
    have h4 := (ZMod.natCast_eq_zero_iff _ _).mp h3
    have := Nat.dvd_gcd h4 hrn
    rw [h2] at this
    exact hr.one_lt.ne' (Nat.dvd_one.mp this)
  have ha0 : (a : ZMod r) ≠ 0 := by
    intro h0
    rw [h0] at hx1 hx2
    rcases Nat.eq_zero_or_pos (n - 1) with hz | hz
    · rw [hz] at hx2; simp at hx2
    · rw [zero_pow hz.ne'] at hx1; exact zero_ne_one hx1
  have hd1 : orderOf (a : ZMod r) ∣ n - 1 := orderOf_dvd_of_pow_eq_one hx1
  have hd2 : ¬orderOf (a : ZMod r) ∣ (n - 1) / q := fun h => hx2 (orderOf_dvd_iff_pow_eq_one.mp h)
  have hqo : q ∣ orderOf (a : ZMod r) := by
    by_contra hc
    have hcop : Nat.Coprime (orderOf (a : ZMod r)) q := ((Nat.Prime.coprime_iff_not_dvd hq).mpr hc).symm
    apply hd2
    refine hcop.dvd_of_dvd_mul_left ?_
    rwa [Nat.mul_div_cancel' hqn]
  exact hqo.trans (ZMod.orderOf_dvd_card_sub_one ha0)

/-- If every prime that divides `n` exceeds a factor `f` with `f*f > n`, then `n` is prime. -/
theorem prime_of_factor {n f : Nat} (h1 : 1 < n) (hf : n < f * f)
    (h : ∀ r, r.Prime → r ∣ n → f ∣ r - 1) : n.Prime := by
  by_contra hn
  have hp := Nat.minFac_prime (show n ≠ 1 by omega)
  have hsq := Nat.minFac_sq_le_self (by omega) hn
  have hle := Nat.le_of_dvd (by have := hp.one_lt; omega) (h _ hp (Nat.minFac_dvd n))
  have : f ≤ n.minFac := by omega
  have := Nat.mul_le_mul this this
  rw [pow_two] at hsq
  omega

/-- The test with one large prime factor of `n - 1`. -/
theorem prime_of_one {n : Nat} (q fuel a : Nat) (hq : q.Prime) (h : 1 < n ∧ n < q * q ∧ n - 1 < 2 ^ fuel
    ∧ (n - 1) % q = 0 ∧ powMod n fuel a (n - 1) = 1
    ∧ Nat.gcd (powMod n fuel a ((n - 1) / q) + (n - 1)) n = 1) : n.Prime := by
  obtain ⟨h1, h2, h3, h4, h5, h6⟩ := h
  exact prime_of_factor h1 h2 fun r hr hrn =>
    dvd_of_witness (by omega) h3 hq (Nat.dvd_of_mod_eq_zero h4) h5 h6 hr hrn

/-- The test with two prime factors of `n - 1`. -/
theorem prime_of_two {n : Nat} (q1 q2 fuel a : Nat) (hq1 : q1.Prime) (hq2 : q2.Prime)
    (h : 1 < n ∧ n < (q1 * q2) * (q1 * q2) ∧ n - 1 < 2 ^ fuel ∧ q1 ≠ q2
    ∧ (n - 1) % q1 = 0 ∧ (n - 1) % q2 = 0 ∧ powMod n fuel a (n - 1) = 1
    ∧ Nat.gcd (powMod n fuel a ((n - 1) / q1) + (n - 1)) n = 1
    ∧ Nat.gcd (powMod n fuel a ((n - 1) / q2) + (n - 1)) n = 1) : n.Prime := by
  obtain ⟨h1, h2, h3, hne, h4, h5, h6, h7, h8⟩ := h
  refine prime_of_factor h1 h2 fun r hr hrn => ?_
  exact Nat.Coprime.mul_dvd_of_dvd_of_dvd ((Nat.coprime_primes hq1 hq2).mpr hne)
    (dvd_of_witness (by omega) h3 hq1 (Nat.dvd_of_mod_eq_zero h4) h6 h7 hr hrn)
    (dvd_of_witness (by omega) h3 hq2 (Nat.dvd_of_mod_eq_zero h5) h6 h8 hr hrn)

/-! ### The certificates -/

theorem prime_704251 : Nat.Prime 704251 := by norm_num

theorem prime_78283 : Nat.Prime 78283 := by norm_num

theorem prime_46076956964474543 :
    Nat.Prime 46076956964474543 :=
  prime_of_two 704251 78283 56 2
    prime_704251 prime_78283 (by decide +kernel)

theorem prime_3677 : Nat.Prime 3677 := by norm_num

theorem prime_197 : Nat.Prime 197 := by norm_num

theorem prime_66417393611 :
    Nat.Prime 66417393611 :=
  prime_of_two 3677 197 36 2
    prime_3677 prime_197 (by decide +kernel)

theorem prime_11290956913871 :
    Nat.Prime 11290956913871 :=
  prime_of_one 66417393611 44 2
    prime_66417393611 (by decide +kernel)

theorem prime_774023187263532362759620327192479577272145303 :
    Nat.Prime 774023187263532362759620327192479577272145303 :=
  prime_of_two 46076956964474543 11290956913871 150 2
    prime_46076956964474543 prime_11290956913871 (by decide +kernel)

theorem prime_835945042244614951780389953367877943453916927241 :
    Nat.Prime 835945042244614951780389953367877943453916927241 :=
  prime_of_one 774023187263532362759620327192479577272145303 160 2
    prime_774023187263532362759620327192479577272145303 (by decide +kernel)

theorem prime_fieldP256 :
    Nat.Prime 115792089210356248762697446949407573530086143415290314195533631308867097853951 :=
  prime_of_one 835945042244614951780389953367877943453916927241 256 2
    prime_835945042244614951780389953367877943453916927241 (by decide +kernel)

theorem prime_363557 : Nat.Prime 363557 := by norm_num

theorem prime_532247449 :
    Nat.Prime 532247449 :=
  prime_of_one 363557 29 2
    prime_363557 (by decide +kernel)

theorem prime_44925942675193 :
    Nat.Prime 44925942675193 :=
  prime_of_one 532247449 46 2
    prime_532247449 (by decide +kernel)

theorem prime_35581458644053887931343 :
    Nat.Prime 35581458644053887931343 :=
  prime_of_one 44925942675193 75 2
    prime_44925942675193 (by decide +kernel)

theorem prime_23964610537191310276190549303 :
    Nat.Prime 23964610537191310276190549303 :=
  prime_of_one 35581458644053887931343 95 2
    prime_35581458644053887931343 (by decide +kernel)

theorem prime_862725979338887169942859774909 :
    Nat.Prime 862725979338887169942859774909 :=
  prime_of_one 23964610537191310276190549303 100 2
    prime_23964610537191310276190549303 (by decide +kernel)

theorem prime_20705423504133292078628634597817 :
    Nat.Prime 20705423504133292078628634597817 :=
  prime_of_one 862725979338887169942859774909 105 2
    prime_862725979338887169942859774909 (by decide +kernel)

theorem prime_413244619895455989650825325680172591660047 :
    Nat.Prime 413244619895455989650825325680172591660047 :=
  prime_of_one 20705423504133292078628634597817 139 2
    prime_20705423504133292078628634597817 (by decide +kernel)

theorem prime_12397338596863679689524759770405177749801411 :
    Nat.Prime 12397338596863679689524759770405177749801411 :=
  prime_of_one 413244619895455989650825325680172591660047 144 2
    prime_413244619895455989650825325680172591660047 (by decide +kernel)

theorem prime_21407 : Nat.Prime 21407 := by norm_num

theorem prime_246608641 :
    Nat.Prime 246608641 :=
  prime_of_one 21407 28 2
    prime_21407 (by decide +kernel)

theorem prime_881 : Nat.Prime 881 := by norm_num

theorem prime_211 : Nat.Prime 211 := by norm_num

theorem prime_105957871 :
    Nat.Prime 105957871 :=
  prime_of_two 881 211 27 2
    prime_881 prime_211 (by decide +kernel)

theorem prime_529709925838459440593 :
    Nat.Prime 529709925838459440593 :=
  prime_of_two 246608641 105957871 69 2
    prime_246608641 prime_105957871 (by decide +kernel)

theorem prime_19173790298027098165721053155794528970226934547887232785722672956982046098136719667167519737147526097 :
    Nat.Prime 19173790298027098165721053155794528970226934547887232785722672956982046098136719667167519737147526097 :=
  prime_of_two 12397338596863679689524759770405177749801411 529709925838459440593 334 2
    prime_12397338596863679689524759770405177749801411 prime_529709925838459440593 (by decide +kernel)

theorem prime_fieldP384 :
    Nat.Prime 39402006196394479212279040100143613805079739270465446667948293404245721771496870329047266088258938001861606973112319 :=
  prime_of_one 19173790298027098165721053155794528970226934547887232785722672956982046098136719667167519737147526097 384 2
    prime_19173790298027098165721053155794528970226934547887232785722672956982046098136719667167519737147526097 (by decide +kernel)

/-! ### The field primes -/

/-- `P` of either scheme is prime (rule R30). -/
theorem rom_prime (cv : Scheme) : Nat.Prime (rom cv).p.toNat := by
  cases cv
  · exact prime_fieldP256
  · exact prime_fieldP384

theorem rom_p_pos (cv : Scheme) : 2 < (rom cv).p := by cases cv <;> decide

/-- A value that is not zero modulo the field prime has no common divisor with it (rule R135). -/
theorem gcd_field_prime (cv : Scheme) {t : Int} (h : modp cv t ≠ 0) : Int.gcd t (rom cv).p = 1 := by
  have hp := rom_p_pos cv
  have hd : ¬(rom cv).p ∣ t := fun hc => h (Int.emod_eq_zero_of_dvd hc)
  have hpr : (rom cv).p.natAbs.Prime := by
    have := rom_prime cv
    rwa [show (rom cv).p.toNat = (rom cv).p.natAbs by omega] at this
  rw [Int.gcd_comm]
  exact (Nat.Prime.coprime_iff_not_dvd hpr).mpr fun hc => hd (Int.natAbs_dvd_natAbs.mp hc)

end Sys2Proof.Machine
end

