-- ==== Sys2Proof/Laws/Points.lean ====
section
/-! SUPPORT. What the field and point functions answer: which of them can fail and when (rules R135,
R177), and that every coordinate they compute lies in `[0, p)` (rules R154, R167). -/

namespace Sys2Proof.Machine

/-! ### The field -/

theorem modp_nonneg (cv : Scheme) (t : Int) : 0 ≤ modp cv t :=
  Int.emod_nonneg _ (by have := rom_p_pos cv; omega)

theorem modp_lt (cv : Scheme) (t : Int) : modp cv t < (rom cv).p :=
  Int.emod_lt_of_pos _ (by have := rom_p_pos cv; omega)

@[simp] theorem modp_modp (cv : Scheme) (t : Int) : modp cv (modp cv t) = modp cv t :=
  Int.emod_emod _ _

theorem fits_rom_p (cv : Scheme) : fits (rom cv).p = true := by cases cv <;> decide +kernel

/-- A field element. -/
abbrev InField (cv : Scheme) (t : Int) : Prop := 0 ≤ t ∧ t < (rom cv).p

theorem inField_modp (cv : Scheme) (t : Int) : InField cv (modp cv t) := ⟨modp_nonneg cv t, modp_lt cv t⟩

theorem inField_zero (cv : Scheme) : InField cv 0 := ⟨le_rfl, by have := rom_p_pos cv; omega⟩

theorem inField_one (cv : Scheme) : InField cv 1 := ⟨by omega, by have := rom_p_pos cv; omega⟩

theorem modp_of_inField {cv : Scheme} {t : Int} (h : InField cv t) : modp cv t = t :=
  Int.emod_eq_of_lt h.1 h.2

/-- A field element fits a register. -/
theorem InField.fits {cv : Scheme} {t : Int} (h : InField cv t) : fits t = true :=
  fits_of_natAbs_le (by have h1 := h.1; have h2 := h.2; omega) (fits_rom_p cv)

/-- The inverse of an element that is not zero (rule R135). -/
theorem invp_ok {cv : Scheme} {t : Int} (h : modp cv t ≠ 0) :
    ∃ i, invp cv t = .ok i ∧ 1 ≤ i ∧ i < (rom cv).p ∧ t * i % (rom cv).p = 1 :=
  modInverse_ok (by have := rom_p_pos cv; omega) (gcd_field_prime cv h)

/-- Zero has no inverse (rule R135). -/
theorem invp_error {cv : Scheme} {t : Int} (h : modp cv t = 0) : invp cv t = .error .notInvertible := by
  refine modInverse_error (by have := rom_p_pos cv; omega) fun hg => ?_
  have hp := rom_p_pos cv
  have hd : (rom cv).p ∣ t := Int.dvd_of_emod_eq_zero h
  have h1 : (rom cv).p ∣ (Int.gcd t (rom cv).p : Int) := Int.dvd_coe_gcd hd dvd_rfl
  rw [hg] at h1
  have := Int.le_of_dvd (by decide) h1
  omega

/-- Every common multiple of two field elements that is zero has a zero factor. -/
theorem modp_mul_ne_zero {cv : Scheme} {a b : Int} (ha : modp cv a ≠ 0) (hb : modp cv b ≠ 0) :
    modp cv (a * b) ≠ 0 := by
  intro h
  have hd : (rom cv).p ∣ a * b := Int.dvd_of_emod_eq_zero h
  have hp : Prime (rom cv).p := by
    have := rom_prime cv
    have e : ((rom cv).p.toNat : Int) = (rom cv).p := Int.toNat_of_nonneg (by have := rom_p_pos cv; omega)
    rw [← e]
    exact Nat.prime_iff_prime_int.mp this
  rcases hp.dvd_or_dvd hd with h | h
  · exact ha (Int.emod_eq_zero_of_dvd h)
  · exact hb (Int.emod_eq_zero_of_dvd h)

/-! ### Jacobian points -/

/-- All three coordinates are field elements. -/
structure JPoint.InRange (cv : Scheme) (q : JPoint) : Prop where
  x : InField cv q.x
  y : InField cv q.y
  z : InField cv q.z

/-- All three coordinates fit a register. -/
structure JPoint.Fits (q : JPoint) : Prop where
  x : fits q.x = true
  y : fits q.y = true
  z : fits q.z = true

theorem JPoint.InRange.toFits {cv : Scheme} {q : JPoint} (h : q.InRange cv) : q.Fits :=
  ⟨h.x.fits, h.y.fits, h.z.fits⟩

theorem State.jacobian_fits (s : State) (b : RegIdx) : (s.jacobian b).Fits :=
  ⟨s.fits_val _, s.fits_val _, s.fits_val _⟩

theorem jInf_inRange (cv : Scheme) : jInf.InRange cv := ⟨inField_zero cv, inField_zero cv, inField_one cv⟩

/-- Every coordinate that doubling returns is in `[0, p)` (rule R143). -/
theorem jDouble_inRange (cv : Scheme) (q : JPoint) : (jDouble cv q).InRange cv := by
  unfold jDouble
  split
  · exact jInf_inRange cv
  · exact ⟨inField_modp .., inField_modp .., inField_modp ..⟩

/-- Addition returns an operand as it stands, or coordinates in `[0, p)` (rule R145). -/
theorem jAdd_cases (cv : Scheme) (q r : JPoint) :
    (jAdd cv q r = r ∧ q.y = 0) ∨ (jAdd cv q r = q ∧ r.y = 0) ∨ (jAdd cv q r).InRange cv := by
  unfold jAdd
  split
  · next h => exact Or.inl ⟨rfl, h⟩
  · split
    · next h => exact Or.inr (Or.inl ⟨rfl, h⟩)
    · right; right
      dsimp only
      split
      · split
        · exact jInf_inRange cv
        · exact jDouble_inRange cv q
      · exact ⟨inField_modp .., inField_modp .., inField_modp ..⟩

theorem jAdd_fits {cv : Scheme} {q r : JPoint} (hq : q.Fits) (hr : r.Fits) : (jAdd cv q r).Fits := by
  rcases jAdd_cases cv q r with h | h | h
  · rw [h.1]; exact hr
  · rw [h.1]; exact hq
  · exact h.toFits

theorem jMulRec_fits {cv : Scheme} {q : JPoint} (hq : q.Fits) (fuel n : Nat) :
    (jMulRec cv q fuel n).Fits := by
  induction fuel generalizing n with
  | zero => exact (jInf_inRange cv).toFits
  | succ fuel ih =>
    unfold jMulRec
    split
    · exact (jInf_inRange cv).toFits
    · split
      · exact hq
      · dsimp only
        split
        · exact (jDouble_inRange cv _).toFits
        · exact jAdd_fits (jDouble_inRange cv _).toFits hq

theorem jMul_fits {cv : Scheme} {q : JPoint} (hq : q.Fits) (n : Int) : (jMul cv q n).Fits :=
  jMulRec_fits hq _ _

theorem jacobianDest_fits {q : JPoint} (h : q.Fits) (b : RegIdx) :
    (jacobianDest b q).all (fun w => fits w.2) = true := by
  simp [jacobianDest, h.x, h.y, h.z]

/-! ### Affine points -/

/-- Both coordinates are field elements. -/
structure APoint.InRange (cv : Scheme) (q : APoint) : Prop where
  x : InField cv q.x
  y : InField cv q.y

theorem aReduce_inRange (cv : Scheme) (q : APoint) : (aReduce cv q).InRange cv :=
  ⟨inField_modp .., inField_modp ..⟩

theorem aInf_inRange (cv : Scheme) : aInf.InRange cv := ⟨inField_zero cv, inField_zero cv⟩

theorem aChord_inRange (cv : Scheme) (l x1 x2 y1 : Int) : (aChord cv l x1 x2 y1).InRange cv :=
  ⟨inField_modp .., inField_modp ..⟩

theorem aReduce_of_inRange {cv : Scheme} {q : APoint} (h : q.InRange cv) : aReduce cv q = q := by
  unfold aReduce; rw [modp_of_inField h.x, modp_of_inField h.y]

theorem affineDest_fits {cv : Scheme} {q : APoint} (h : q.InRange cv) (b : RegIdx) :
    (affineDest b q).all (fun w => fits w.2) = true := by
  simp [affineDest, h.x.fits, h.y.fits]

/-- `FromJ` with `Z` not zero modulo the prime (rule R151). -/
theorem fromJ_ok {cv : Scheme} {q : JPoint} (h : modp cv q.z ≠ 0) :
    ∃ z, 1 ≤ z ∧ z < (rom cv).p ∧ q.z * z % (rom cv).p = 1
      ∧ fromJ cv q = .ok { x := modp cv (q.x * z * z), y := modp cv (q.y * z * z * z) } := by
  obtain ⟨z, hz, h1, h2, h3⟩ := invp_ok h
  exact ⟨z, h1, h2, h3, by simp [fromJ, hz]⟩

theorem fromJ_error {cv : Scheme} {q : JPoint} (h : modp cv q.z = 0) :
    fromJ cv q = .error .notInvertible := by
  simp [fromJ, invp_error h]

/-- Twice an element that is not zero is not zero: the prime is odd (rule R177). -/
theorem modp_two_mul_ne_zero {cv : Scheme} {y : Int} (h : modp cv y ≠ 0) : modp cv (2 * y) ≠ 0 :=
  modp_mul_ne_zero (by cases cv <;> decide) h

/-- The difference of two different field elements is not zero (rule R177). -/
theorem modp_sub_ne_zero {cv : Scheme} {a b : Int} (ha : InField cv a) (hb : InField cv b) (h : a ≠ b) :
    modp cv (b - a) ≠ 0 := by
  intro hc
  have h1 : b % (rom cv).p = a % (rom cv).p := Int.emod_eq_emod_iff_emod_sub_eq_zero.mpr hc
  rw [Int.emod_eq_of_lt ha.1 ha.2, Int.emod_eq_of_lt hb.1 hb.2] at h1
  exact h h1.symm

/-- Affine doubling never fails, whatever its operand (rule R177). -/
theorem aDoubleReduced_ok {cv : Scheme} {q : APoint} (hq : q.InRange cv) :
    ∃ r, aDoubleReduced cv q = .ok r ∧ r.InRange cv := by
  unfold aDoubleReduced
  split
  · exact ⟨_, rfl, aInf_inRange cv⟩
  · next h =>
    obtain ⟨i, hi, -⟩ := invp_ok (cv := cv) (t := 2 * q.y)
      (modp_two_mul_ne_zero (by rwa [modp_of_inField hq.y]))
    rw [hi]
    exact ⟨_, rfl, aChord_inRange ..⟩

theorem aDouble_ok (cv : Scheme) (q : APoint) : ∃ r, aDouble cv q = .ok r ∧ r.InRange cv :=
  aDoubleReduced_ok (aReduce_inRange cv q)

/-- Affine addition never fails, whatever its operands (rule R177). -/
theorem aAdd_ok (cv : Scheme) (q r : APoint) : ∃ t, aAdd cv q r = .ok t ∧ t.InRange cv := by
  unfold aAdd
  have hq := aReduce_inRange cv q
  have hr := aReduce_inRange cv r
  generalize aReduce cv q = a at hq
  generalize aReduce cv r = b at hr
  unfold aAddReduced
  split
  · exact ⟨_, rfl, hr⟩
  · split
    · exact ⟨_, rfl, hq⟩
    · split
      · split
        · exact aDouble_ok cv a
        · exact ⟨_, rfl, aInf_inRange cv⟩
      · next h =>
        obtain ⟨i, hi, -⟩ := invp_ok (cv := cv) (t := b.x - a.x) (modp_sub_ne_zero hq.x hr.x h)
        rw [hi]
        exact ⟨_, rfl, aChord_inRange ..⟩

theorem aMultiLoop_ok (cv : Scheme) (q : APoint) (n k : Nat) {acc : APoint} (h : acc.InRange cv) :
    ∃ r, aMultiLoop cv q n k acc = .ok r ∧ r.InRange cv := by
  induction k generalizing acc with
  | zero => exact ⟨acc, rfl, h⟩
  | succ k ih =>
    obtain ⟨d, hd, hd'⟩ := aDouble_ok cv acc
    unfold aMultiLoop
    rw [hd]
    dsimp only
    split
    · obtain ⟨t, ht, ht'⟩ := aAdd_ok cv d q
      rw [ht]
      exact ih ht'
    · exact ih hd'

theorem aMulti_ok (cv : Scheme) (q : APoint) (n : Nat) : ∃ r, aMulti cv q n = .ok r ∧ r.InRange cv :=
  aMultiLoop_ok cv q n _ (aInf_inRange cv)

theorem shamirLoop_ok (cv : Scheme) (q t : APoint) (u1 u2 k : Nat) {acc : APoint} (h : acc.InRange cv) :
    ∃ r, shamirLoop cv q t u1 u2 k acc = .ok r ∧ r.InRange cv := by
  induction k generalizing acc with
  | zero => exact ⟨acc, rfl, h⟩
  | succ k ih =>
    obtain ⟨d, hd, hd'⟩ := aDouble_ok cv acc
    unfold shamirLoop
    rw [hd]
    dsimp only
    split
    · exact ih hd'
    · next e _ =>
      obtain ⟨v, hv, hv'⟩ := aAdd_ok cv d e
      rw [hv]
      exact ih hv'

theorem shamir_ok (cv : Scheme) (u1 u2 : Nat) (q : APoint) :
    ∃ r, shamir cv u1 u2 q = .ok r ∧ r.InRange cv := by
  obtain ⟨t, ht, -⟩ := aAdd_ok cv (basePoint cv) q
  unfold shamir
  rw [ht]
  exact shamirLoop_ok cv q t u1 u2 _ (aInf_inRange cv)

/-! ### The commands' destinations -/

theorem commit_jacobian {s : State} (b : RegIdx) {q : JPoint} (h : q.Fits) :
    ∃ t, commit s (.ok (jacobianDest b q)) = .next t ∧ WroteExactly s t (jacobianDest b q) :=
  commit_wrote (jacobianDest_nodup b q) (jacobianDest_fits h b)

theorem commit_affine {s : State} {cv : Scheme} (b : RegIdx) {q : APoint} (h : q.InRange cv) :
    ∃ t, commit s (.ok (affineDest b q)) = .next t ∧ WroteExactly s t (affineDest b q) :=
  commit_wrote (affineDest_nodup b q) (affineDest_fits h b)

end Sys2Proof.Machine
end

