-- ==== Sys2Proof/Tests/Slice0.lean ====
section
/-! SUPPORT. Tests. Expected results come from 95_test_vectors.md (B, M, J, A and H vectors) or from the
rule named; each test is one step on a small state. After them, for every obligation with hypotheses, the
named witness `witness_<obligation>`: concrete states and operands that meet the hypotheses of each of its
clauses, at the boundary values of their ranges. -/

namespace Sys2Proof.Tests

open Sys2Proof Sys2Proof.Machine

set_option Elab.async false

/-! ### Helpers -/

/-- The reset state with these registers loaded. -/
def load (ws : List (RegIdx × Int)) : State := State.reset.writeRegs ws

/-- The state that runs a command word next. -/
def running (s : State) (w : Word) : State := s.withFetchWord 32 w.toNat

/-- The reset state with these bytes in the buffer and this `BUFLEN`. -/
def buffered (bs : List Byte) (n : Byte) : State :=
  { State.reset with buf := Memory.writeBytes [] 0 bs, buflen := n }

/-- The state with these events on the agenda. -/
def awaiting (s : State) (es : List Event) : State := { s with agenda := es }

/-- The state of a core in which a command runs. -/
def busy (s : State) : State := { s with status := { busy := true, done := false, err := false } }

/-- The next state of a result; `State.reset` stands in for a stop. -/
def nextOf (r : Result) : State :=
  match r with
  | .next t => t
  | .fault _ => State.reset
  | .refused _ => State.reset

/-- The result is a next state. -/
def isNext (r : Result) : Bool :=
  match r with
  | .next _ => true
  | .fault _ => false
  | .refused _ => false

/-- After one step on a word: `STATUS` as read, `ERRCODE`, and the values of some registers. -/
def ran (s : State) (w : Word) (rs : List RegIdx) : Option (Nat × Nat × List Int) :=
  match step (running s w) with
  | .next t => some (t.status.word.toNat, t.errcode.toNat, rs.map t.val)
  | .fault _ => none
  | .refused _ => none

/-- The answers, newest first, after the agenda's next event. -/
def answered (s : State) (es : List Event) : List Answer := (nextOf (step (awaiting s es))).answers

/-- `DONE`, no fault, and these values. -/
def ok (vs : List Int) : Option (Nat × Nat × List Int) := some (2, 0, vs)

/-- `ERR`, this code, and these values. -/
def faulted (code : Nat) (vs : List Int) : Option (Nat × Nat × List Int) := some (4, code, vs)

/-! The points of P256 that the vectors use, as section 2.4 prints them. -/

def gx : Int := 0x6B17D1F2E12C4247F8BCE6E563A440F277037D812DEB33A0F4A13945D898C296
def gy : Int := 0x4FE342E2FE1A7F9B8EE7EB4A7C0F9E162BCE33576B315ECECBB6406837BF51F5
def p256 : Int := 0xFFFFFFFF00000001000000000000000000000000FFFFFFFFFFFFFFFFFFFFFFFF
def n256 : Int := 0xFFFFFFFF00000000FFFFFFFFFFFFFFFFBCE6FAADA7179E84F3B9CAC2FC632551
def gx2 : Int := 0x7CF27B188D034F7E8A52380304B51AC3C08969E277F21B35A60B48FC47669978
def gy2 : Int := 0x07775510DB8ED040293D9AC69F7430DBBA7DADE63CE982299E04B79D227873D1
def gx3 : Int := 0x5ECBE4D1A6330A44C8F7EF951D4BF165E6C6B721EFADA985FB41661BC6E7FD6C
def gy3 : Int := 0x8734640C4998FF7E374B06CE1A64A2ECD82AB036384FB83D9A79B127A27D5032
def j1x : Int := 0x9A978F59ACD1B5AD570E7D52DCFCDE43804B42274F61DDCF1E7D848391D6C70F
def j1y : Int := 0x4126885E7F786AF905338238E5346D5FE77FC46388668BD0FD59BE3190D2F5D1
def j1z : Int := 0x9FC685C5FC34FF371DCFD694F81F3C2C579C66AED662BD9D976C80D06F7EA3EA
def j2x : Int := 0x0EC88440C8B00A9E572BF1BCEB7D0C5906BD65990A9B7081130BD72E2C136CA0
def j2y : Int := 0xC0BC77E1339E899101F8E8ECCF79C3F7F4BBDD1BF96F6446199BD423026A60D6
def j2z : Int := 0xDD27CB52A31D1F6E041ACCF1103DE05BA0A5EDD74B738D51FE3397DE0E3FC306

/-- `J[0] = G`, `Z = 1`. -/
def baseJ : State := load [(0, gx), (1, gy), (2, 1)]

/-! ### Well-formedness: each check refuses an ill-formed term (rule R76) -/

theorem test_wf_jdbl_rd : (Instr.jdbl 30 0 .p256).wellFormed = false := by decide
theorem test_wf_jdbl_ra : (Instr.jdbl 0 30 .p256).wellFormed = false := by decide
theorem test_wf_jadd : (Instr.jadd 30 0 0 .p256).wellFormed = false
    ∧ (Instr.jadd 0 30 0 .p256).wellFormed = false ∧ (Instr.jadd 0 0 30 .p384).wellFormed = false
    ∧ (Instr.jadd 29 29 29 .p384).wellFormed = true := by decide
theorem test_wf_jmul : (Instr.jmul 30 0 0 .p256).wellFormed = false
    ∧ (Instr.jmul 0 30 0 .p256).wellFormed = false ∧ (Instr.jmul 29 29 31 .p256).wellFormed = true := by
  decide
theorem test_wf_fromj : (Instr.fromj 31 0 .p256).wellFormed = false
    ∧ (Instr.fromj 0 30 .p256).wellFormed = false ∧ (Instr.fromj 30 29 .p256).wellFormed = true := by decide
theorem test_wf_pmul : (Instr.pmul 31 0 0 .p256).wellFormed = false
    ∧ (Instr.pmul 0 31 0 .p256).wellFormed = false ∧ (Instr.pmul 30 30 31 .p256).wellFormed = true := by
  decide
theorem test_wf_padd : (Instr.padd 31 0 0 .p256).wellFormed = false
    ∧ (Instr.padd 0 31 0 .p256).wellFormed = false ∧ (Instr.padd 0 0 31 .p384).wellFormed = false := by
  decide
theorem test_wf_pdbl : (Instr.pdbl 31 0 .p256).wellFormed = false
    ∧ (Instr.pdbl 0 31 .p256).wellFormed = false := by decide
theorem test_wf_pmulti : (Instr.pmulti 31 0 0 .p256).wellFormed = false
    ∧ (Instr.pmulti 0 31 0 .p256).wellFormed = false := by decide
theorem test_wf_shamir : (Instr.shamir 31 0 0 0 .p256).wellFormed = false
    ∧ (Instr.shamir 0 0 0 31 .p256).wellFormed = false
    ∧ (Instr.shamir 30 31 31 30 .p384).wellFormed = true := by decide

/-! ### Decoding: the words that are no commands, and legal neighbours (section 2.1) -/

theorem test_decode_reserved_opcodes :
    [0x00000000, 0xFF000000, 0x06000000, 0x19000000, 0x44000000].map decode
      = List.replicate 5 (.illegal .reservedOpcode) := by decide
theorem test_decode_reserved_bits :
    [0x10184401, 0x10184404, 0x10184410, 0x13084400, 0x0108001C, 0x02484000, 0x050000A0].map decode
      = List.replicate 7 (.illegal .reservedBits) := by decide
theorem test_decode_bad_selector :
    [0x05000060, 0x05000074, 0x0500006C].map decode = List.replicate 3 (.illegal .constSelector) := by
  decide
theorem test_decode_bad_bases :
    [0x30F00000, 0x3007C000, 0x33F80000, 0x4307FFF0, 0x30F00008].map decode
      = List.replicate 5 (.illegal .pointBase) := by decide
theorem test_decode_legal_neighbours :
    [0x33F00000, 0x32003E00].map decode
      = [.command (.fromj 30 0 .p256), .command (.jmul 0 0 31 .p256)] := by decide
theorem test_decode_unsupported :
    [0x30000008, 0x2100000C, 0x05000008, 0x21104008, 0x4322542C].map decode
      = List.replicate 5 .unsupportedScheme := by decide
/-- `LDI` bit by bit: `op` = 00000001, `rd` = 00001, `imm16` = 0000000000000011, three zeros (rule R72). -/
theorem test_decode_ldi_bits :
    decode 0b00000001_00001_0000000000000011_000#32 = .command (.ldi 1 3) := by decide
/-- `SHAMIR` bit by bit: `op` = 0x43, `rd` = 6, `ra` = 17, `rb` = 18, `rc` = 4, `cv` = 1, `z` = 0. -/
theorem test_decode_shamir_bits :
    decode 0b01000011_00110_10001_10010_00100_01_00#32 = .command (.shamir 6 17 18 4 .p384) := by decide
/-- `LDC`: `sel` is `word[6:4]`, `cv` is `word[3:2]` (rule R74). -/
theorem test_decode_ldc_bits :
    decode 0b00000101_01000_00000_00000_00_101_01_00#32 = .command (.ldc 8 .p384 .n) := by decide
theorem test_decodeTableWord :
    decodeTableWord 32 0x10184400 = some (.add 3 1 2) ∧ decodeTableWord 32 0x10184401 = none := by decide

/-! ### Transfer commands -/

/-- B3 -/
theorem test_ldi : ran State.reset 0x010FFFF8 [1] = ok [0xFFFF] := by decide +kernel
/-- B7 -/
theorem test_ldbe : ran (buffered [1, 2, 3, 4, 5] 4) 0x02100000 [2] = ok [0x1020304] := by decide +kernel
/-- B10 -/
theorem test_ldbe_too_long : ran (buffered [1] 129) 0x02100000 [2] = faulted 3 [0] := by decide +kernel
/-- B14: the magnitude only -/
theorem test_stbe :
    let t := nextOf (step (running (load [(5, -0x1FF)]) 0x03014000))
    t.buflen = 2 ∧ t.buf = [(0, 0x01), (1, 0xFF)] ∧ t.status.word = 2 := by decide +kernel
/-- H8: a zero byte is stored over the old one, and the bytes beyond stay -/
theorem test_stbe_zero_byte :
    let t := nextOf (step (running { load [(2, 0x01020300)] with buf := [(3, 0xAA), (4, 0xBB)] } 0x03008000))
    t.buflen = 4 ∧ t.buf = [(0, 0x01), (1, 0x02), (2, 0x03), (4, 0xBB)] := by decide +kernel
/-- B17 -/
theorem test_mov : ran (load [(2, -5)]) 0x04388000 [7, 2] = ok [-5, -5] := by decide +kernel
/-- B30 -/
theorem test_ldc : ran State.reset 0x05000054 [0]
    = ok [0xFFFFFFFFFFFFFFFFFFFFFFFFFFFFFFFFFFFFFFFFFFFFFFFFC7634D81F4372DDF581A0DB248B0A77AECEC196ACCC52973] := by
  decide +kernel

/-! ### BigInteger arithmetic -/

/-- B36: a carry through three limbs, and the header's `LEN` -/
theorem test_add :
    let t := nextOf (step (running (load [(1, 0xFFFFFFFFFFFFFFFFFFFFFFFF), (2, 1)]) 0x10184400))
    t.val 3 = 0x1000000000000000000000000 ∧ (t.reg 3).header = 0x10000004 := by decide +kernel
/-- B39 -/
theorem test_add_overflow :
    ran (load [(1, -(2 ^ 1024 - 1)), (2, -1), (3, 9)]) 0x10184400 [3] = faulted 4 [9] := by decide +kernel
/-- B46: borrow, and the limb count drops -/
theorem test_sub :
    let t := nextOf (step (running (load [(1, 0x10000000000000000), (2, 1)]) 0x11184400))
    t.val 3 = 0xFFFFFFFFFFFFFFFF ∧ (t.reg 3).header = 0x00000002 := by decide +kernel
/-- B43 -/
theorem test_sub_zero :
    (nextOf (step (running (load [(1, -5), (2, -5)]) 0x11184400))).regs[3].header = 0x50000001 := by
  decide +kernel
/-- B58 -/
theorem test_mul : ran (load [(1, 2 ^ 512), (2, -(2 ^ 511))]) 0x12184400 [3] = ok [-(2 ^ 1023)] := by
  decide +kernel
/-- B57 -/
theorem test_mul_overflow : ran (load [(1, 2 ^ 512), (2, 2 ^ 512)]) 0x12184400 [3] = faulted 4 [0] := by
  decide +kernel
/-- B60, B61, B62: the order among negative values is reversed -/
theorem test_cmp :
    (nextOf (step (running (load [(1, -5), (2, -3)]) 0x13004400))).flags = 0b11
    ∧ (nextOf (step (running (load [(1, -3), (2, -5)]) 0x13004400))).flags = 0b01
    ∧ (nextOf (step (running (load []) 0x13004400))).flags = 0b00 := by decide +kernel
/-- B71 -/
theorem test_lsh : ran (load [(1, 0xFFFFFFFF)]) 0x14107E00 [2] = ok [0x7FFFFFFF80000000] := by
  decide +kernel
/-- B73 -/
theorem test_lsh_overflow : ran (load [(1, 2 ^ 1023)]) 0x14104200 [2] = faulted 4 [0] := by decide +kernel
/-- B76: toward zero -/
theorem test_rsh : ran (load [(1, -3)]) 0x15104200 [2] = ok [-1] := by decide +kernel
/-- B78 -/
theorem test_rsh_limbs : ran (load [(1, 0xFFFFFFFF00000000)]) 0x15107E00 [2] = ok [0x1FFFFFFFE] := by
  decide +kernel
/-- B82: truncation toward zero -/
theorem test_div : ran (load [(1, -7), (2, 2)]) 0x16184400 [3] = ok [-3] := by decide +kernel
/-- B88 -/
theorem test_div_negative : ran (load [(1, 5), (2, -2)]) 0x16184400 [3] = faulted 5 [0] := by
  decide +kernel
/-- B94: the Euclidean remainder -/
theorem test_mod : ran (load [(1, -7), (2, 3)]) 0x17184400 [3] = ok [2] := by decide +kernel
/-- B99 -/
theorem test_mod_zero : ran (load [(1, 5)]) 0x17184400 [3] = faulted 6 [0] := by decide +kernel
/-- B119 -/
theorem test_inv :
    ran (load [(1, 0xA0A1A2A3A4A5A6A7A8A9AAABACADAEAFB0B1B2B3B4B5B6B7B8B9BABBBCBDBEBF), (2, n256)])
      0x18184400 [3]
      = ok [0xFD7E9600E2719B8A0FFB0770B27AF75030395A1496F90DE82A0D4F0F2F9C5C6F] := by decide +kernel
/-- B109 and B116: the modulus is checked before invertibility -/
theorem test_inv_faults : ran (load [(1, 2), (2, 4)]) 0x18184400 [3] = faulted 7 [0]
    ∧ ran (load [(2, 1)]) 0x18184400 [3] = faulted 6 [0] := by decide +kernel

/-! ### Modular commands -/

/-- M2 and M8: a negative product; a register that is everything at once -/
theorem test_mulmod : ran (load [(1, -2), (2, 3), (3, 7)]) 0x20204430 [4] = ok [1]
    ∧ ran (load [(1, 9)]) 0x20084210 [1] = ok [0] := by decide +kernel
/-- M10: the 2048-bit product is internal -/
theorem test_mulmod_wide :
    ran (load [(1, 2 ^ 1024 - 1), (2, 2 ^ 1024 - 1), (3, (rom .p384).p)]) 0x20204430 [4]
      = ok [0xFFFFFFCB0000002200000048FFFFFFFBFFFFFFB20000000A0000007500000023FFFFFFA9FFFFFFF100000048FFFFFFE8] := by
  decide +kernel
/-- M18 -/
theorem test_modp : ran (load [(1, 2 ^ 1024 - 1)]) 0x21104000 [2]
    = ok [0x69000000320000004000000011FFFFFFBCFFFFFFC6FFFFFFD900000014] := by decide +kernel
/-- M17: a negative multiple of the prime -/
theorem test_modp_zero : ran (load [(1, -p256)]) 0x21104000 [2] = ok [0] := by decide +kernel

/-! ### Jacobian commands -/

/-- J14: source and destination overlap -/
theorem test_jdbl : ran baseJ 0x30080000 [0, 1, 2, 3] = ok [gx, j1x, j1y, j1z] := by decide +kernel
/-- J12: only `Y = 0` as an integer is infinity -/
theorem test_jdbl_unreduced : ran (load [(0, gx), (1, p256), (2, 1)]) 0x30180000 [3, 4, 5]
    = ok [0xD2903739EB04390B30A307BB553472B1F7AE862E877E6E209735F398DF4594ED,
        0x74E3A5E4989005117EF1CF18AEB29C176519B5A65874D523AB586524CF4E7FEC, 0] := by decide +kernel
/-- J2: the formula lines -/
theorem test_jadd : ran (load [(0, gx), (1, gy), (2, 1), (3, j1x), (4, j1y), (5, j1z)]) 0x3130C000 [6, 7, 8]
    = ok [j2x, j2y, j2z] := by decide +kernel
/-- J7 and J9: the pass-through does not reduce, and its order -/
theorem test_jadd_infinity :
    ran (load [(0, 5), (1, 0), (2, 7), (3, -1), (4, 2 ^ 300), (5, 9)]) 0x31300600 [6, 7, 8]
      = ok [-1, 2 ^ 300, 9]
    ∧ ran (load [(0, 5), (1, 0), (2, 7), (3, 6), (4, 0), (5, 8)]) 0x31300600 [6, 7, 8] = ok [6, 0, 8] := by
  decide +kernel
/-- J24: the scalar's register lies inside the source point -/
theorem test_jmul : ran (load [(0, gx), (1, 5), (2, 1)]) 0x32180200 [3, 4, 5]
    = ok [0x2C30D6EDAC2256F4340107CAA14EBCFF30CFF4C995C80627543390B44C14E1C2,
        0x1556E27E94D05C72102D8B109B66ADF377A36F8EEDEBCDC9DBA6251A99697C40,
        0x3FEC9049C6F8B2F0CC4822BAA412FCD75CBC1B6FDA459A3BC2C5764EE98CB6BC] := by decide +kernel
/-- J22: a negative scalar is reduced -/
theorem test_jmul_negative : ran (baseJ.writeRegs [(9, -1)]) 0x32181200 [3, 4, 5]
    = ok [0x45318B1A864A922062C539FA26EAAF4F4CFB387B5DCAD47ECD4315B77BA92DFF,
        0x2FFAC199942C77C21D1CE70D9B770ADAD1AEBC11C4495667EB7FF3B9295EEE4C,
        0xBA53691477F7CE7ABCAEA93B68B911436BFAECB1B29425ECBE031E316BF77D4A] := by decide +kernel
/-- J3 -/
theorem test_fromj : ran (load [(3, j1x), (4, j1y), (5, j1z)]) 0x3350C000 [10, 11] = ok [gx2, gy2] := by
  decide +kernel
/-- J27: `Z = p` -/
theorem test_fromj_fault : ran (load [(0, gx), (1, gy), (2, p256), (6, 4)]) 0x33300000 [6, 7]
    = faulted 7 [4, 0] := by decide +kernel
/-- J35 -/
theorem test_pmul : ran (load [(0, gx), (1, gy), (9, -2)]) 0x34101200 [2, 3]
    = ok [gx2, 0xF888AAEE24712FC0D6C26539608BCF244582521AC3167DD661FB4862DD878C2E] := by decide +kernel
/-- J36: the conversion faults -/
theorem test_pmul_fault : ran (load [(0, gx), (1, p256), (9, 2)]) 0x34101200 [2, 3] = faulted 7 [0, 0] := by
  decide +kernel

/-! ### Affine commands -/

/-- A10: operands are reduced first -/
theorem test_padd : ran (load [(0, gx + p256), (1, gy - p256), (2, gx2), (3, gy2)]) 0x40200400 [4, 5]
    = ok [gx3, gy3] := by decide +kernel
/-- A4 and A5: equal and opposite points -/
theorem test_padd_special : ran (load [(0, gx), (1, gy)]) 0x40200000 [4, 5] = ok [gx2, gy2]
    ∧ ran (load [(0, gx), (1, gy), (2, gx), (3, p256 - gy)]) 0x40200400 [4, 5] = ok [0, 0] := by
  decide +kernel
/-- A15: overlap -/
theorem test_pdbl : ran (load [(0, gx), (1, gy)]) 0x41080000 [0, 1, 2] = ok [gx, gx2, gy2] := by
  decide +kernel
/-- A13: `y` is zero after reduction -/
theorem test_pdbl_infinity : ran (load [(0, 5), (1, p256)]) 0x41200000 [4, 5] = ok [0, 0] := by
  decide +kernel
/-- A19 -/
theorem test_pmulti : ran (load [(0, gx), (1, gy), (9, 3)]) 0x42201200 [4, 5] = ok [gx3, gy3] := by
  decide +kernel
/-- A23 -/
theorem test_pmulti_negative : ran (load [(0, gx), (1, gy), (9, -1)]) 0x42201200 [4, 5]
    = faulted 8 [0, 0] := by decide +kernel
/-- A34: unequal bit lengths; `5G` of example E2 -/
theorem test_shamir : ran (load [(9, 1), (10, 2), (2, gx2), (3, gy2)]) 0x43225420 [4, 5]
    = ok [0x51590B7A515140D2D784C85608668FDFEF8C82FD1F5BE52421554A0DC3D033ED,
        0xE0C17DA8904A727D8AE1BF36BF8A79260D012F00D4D80888D1D0BB44FDA16DA4] := by decide +kernel
/-- A38 -/
theorem test_shamir_negative : ran (load [(9, 1), (10, -1), (2, gx2), (3, gy2)]) 0x43225420 [4, 5]
    = faulted 8 [0, 0] := by decide +kernel

/-! ### The host's side (section 2.6) -/

/-- H1: the ends of the windows after reset -/
theorem test_reset_reads :
    [0x0010, 0x017C, 0x1080, 0x2F7C, 0x2F80].map (fun a => answered State.reset [.read a])
      = [[.data 0], [.data 0], [.data 0x50000001], [.data 0], [.data 0x50000001]] := by decide +kernel
/-- H2: the all-zero word is accepted, and is a reserved opcode -/
theorem test_zero_word :
    answered State.reset [.write 0 0] = [.ok] ∧ ran State.reset 0 [] = faulted 1 [] := by decide +kernel
/-- H2: no command while `ERR = 1`; the buffer stays open -/
theorem test_sticky_fault :
    let s := State.reset.faultEntry .illegalCommand
    answered s [.write 0 0x01080018] = [.busError] ∧ answered s [.write 0x0100 0x11223344] = [.ok]
    ∧ (nextOf (step (awaiting s [.write 4 4]))).status.word = 0
    ∧ (nextOf (step (awaiting s [.write 4 4]))).errcode = 0 := by decide +kernel
/-- H3 -/
theorem test_busy_reads :
    [0x0000, 0x0004, 0x0008, 0x000C, 0x1100, 0x0010, 0x0100].map
        (fun a => answered (running State.reset 0x01080018) [.read a])
      = [[.data 0x01080018], [.data 1], [.data 0], [.data 0], [.busError], [.busError], [.busError]] := by
  decide +kernel
/-- H3 -/
theorem test_busy_writes :
    [0x0010, 0x0100, 0x0000, 0x0004].map
        (fun a => answered (running State.reset 0x01080018) [.write a 6])
      = List.replicate 4 [.busError] := by decide +kernel
/-- H4 -/
theorem test_bus_errors :
    [0x0002, 0x1001, 0x0014, 0x00FC, 0x0180, 0x0FFC, 0x1084, 0x10FC, 0x3000, 0x3FFC].map
        (fun a => answered State.reset [.read a])
      = List.replicate 10 [.busError]
    ∧ [0x1000, 0x1080, 0x0008, 0x000C, 0x0014].map (fun a => answered State.reset [.write a 1])
      = List.replicate 5 [.busError] := by decide +kernel
/-- H5: the modulus before invertibility -/
theorem test_fault_priority : ran State.reset 0x18184400 [] = faulted 6 []
    ∧ ran (load [(2, 7)]) 0x18184400 [] = faulted 7 [] := by decide +kernel
/-- H6 -/
theorem test_done_clear :
    (nextOf (step (awaiting State.reset.finish [.write 4 2]))).status.word = 0
    ∧ (nextOf (step (awaiting State.reset.finish [.write 4 0xFFFFFFF9]))).status.word = 2
    ∧ (nextOf (step (awaiting State.reset.finish [.write 0 0x01080028]))).status.word = 1 := by
  decide +kernel
/-- H8: `BUFLEN` keeps 8 bits; the lanes are little-endian -/
theorem test_buffer_write :
    (nextOf (step (awaiting State.reset [.write 0x10 0x1FF]))).buflen = 0xFF
    ∧ (nextOf (step (awaiting State.reset [.write 0x100 0xAA030201]))).buf
      = [(0, 1), (1, 2), (2, 3), (3, 0xAA)]
    ∧ answered (buffered [1, 2, 3, 0] 0) [.read 0x100] = [.data 0x00030201] := by decide +kernel
/-- H9 -/
theorem test_reset_while_busy :
    nextOf (step (awaiting (running (load [(1, 3)]) 0x01100020) [.reset])) = State.reset := by decide +kernel

/-! ### Witnesses: the hypotheses of each obligation, met -/

/-- The reset state while `w` runs, with these events on the agenda. -/
def runningThen (w : Word) (es : List Event) : State := awaiting (running State.reset w) es

theorem witness_DecodeOfEncode : (Instr.jdbl 29 29 .p384).wellFormed = true
    ∧ (Instr.shamir 30 31 31 30 .p384).wellFormed = true ∧ (Instr.ldi 31 65535).wellFormed = true := by
  decide

theorem witness_EncodeOfDecode : decode 0x43F7FFE4 = .command (.shamir 30 31 31 30 .p384) := by decide

theorem witness_ReservedOpcodeFaults :
    let s := awaiting State.reset [.write 0x0000 0xFF000000, .engine]
    (0xFF000000 : Word).extractLsb' 24 8 ∉ commandOpcodes ∧ (0x06000000 : Word).extractLsb' 24 8 ∉ commandOpcodes
    ∧ s.status.busy = false ∧ s.status.err = false
    ∧ s.agenda = .write 0x0000 0xFF000000 :: .engine :: [] := by decide +kernel

theorem witness_MustBeZeroBitsFault :
    let s := runningThen 0x10184401 [.engine]
    s.status.busy = true ∧ s.agenda = .engine :: []
    ∧ s.cmd.extractLsb' 24 8 = (Instr.add 3 1 2).row.value.extractLsb' 24 8
    ∧ s.cmd &&& (Instr.add 3 1 2).row.mask ≠ (Instr.add 3 1 2).row.value := by decide +kernel

theorem witness_UnsupportedSchemeOnlyWhenLegal :
    let s := runningThen 0x30000008 [.engine]
    decode 0x30000008 = .unsupportedScheme ∧ 2 ≤ ((0x30000008 : Word).extractLsb' 2 2).toNat
    ∧ decode (0x30000008 &&& 0xFFFFFFF3) = .command (.jdbl 0 0 .p256)
    ∧ (Instr.jdbl 0 0 .p256).usesScheme = true
    ∧ s.status.busy = true ∧ s.agenda = .engine :: [] ∧ decode s.cmd = .unsupportedScheme := by
  decide +kernel

theorem witness_PointBaseLimits :
    let s := runningThen 0x30F00000 [.engine, .reset]
    s.status.busy = true ∧ s.agenda = .engine :: [.reset] ∧ decode s.cmd = .illegal .pointBase := by decide +kernel

theorem witness_StepRunsDecodedInstruction :
    let s := running State.reset 0x10184400
    s.agenda = [] ∧ s.status.busy = true ∧ decode s.cmd = .command (.add 3 1 2)
    ∧ (runningThen 0x10184400 [.engine]).agenda = .engine :: []
    ∧ State.reset.agenda = [] ∧ State.reset.status.busy = false := by decide +kernel

theorem witness_StepRaisesDecodingFaults :
    (running State.reset 0).agenda = [] ∧ (running State.reset 0).status.busy = true
    ∧ decode (running State.reset 0).cmd = .illegal .reservedOpcode
    ∧ (running State.reset 0x2100000C).status.busy = true
    ∧ decode (running State.reset 0x2100000C).cmd = .unsupportedScheme := by decide +kernel

theorem witness_CommandLifecycle :
    let s := awaiting State.reset [.write 0x0000 0x01080018, .engine, .read 0x0004]
    s.status.busy = false ∧ s.status.err = false
    ∧ s.agenda = .write 0x0000 0x01080018 :: .engine :: [.read 0x0004]
    ∧ decode 0x01080018 = .command (.ldi 1 3) := by decide +kernel

theorem witness_ResetEventFromAnyState :
    (runningThen 0x01080018 [.reset, .engine]).agenda = .reset :: [.engine] := by decide +kernel

/-- A loaded state that meets the invariant and is about to run `ADD`. -/
theorem witness_StepKeepsInvariant :
    let s := running (load [(1, -(2 ^ 1024 - 1)), (2, 1)]) 0x10184400
    s.Inv ∧ isNext (step s) = true :=
  ⟨⟨by decide +kernel, by decide +kernel, by decide +kernel, by decide +kernel, by decide +kernel⟩,
    by decide +kernel⟩

theorem witness_RegisterContentsAreTheIntegers :
    let s := running (load [(1, 5)]) 0x10184400
    (∀ r : RegIdx, (s.reg r).canonical = true) ∧ isNext (step s) = true
    ∧ (-(2 ^ 1024 - 1) : Int).natAbs < 2 ^ 1024
    ∧ (BigInt.ofInt (-(2 ^ 1024 - 1))).canonical = true
    ∧ (BigInt.ofInt (-(2 ^ 1024 - 1))).val = -(2 ^ 1024 - 1) := by decide +kernel

theorem witness_FaultEntryChangesNothingElse :
    let s := load [(1, 2 ^ 1024 - 1), (2, 1)]
    isNext (exec (.add 3 1 2) s) = true ∧ s.status.err = false
    ∧ (nextOf (exec (.add 3 1 2) s)).status.err = true := by decide +kernel

theorem witness_CommandEndsWellOrFaultsByTable : (Instr.inv 3 1 2).wellFormed = true
    ∧ (Instr.shamir 30 31 31 30 .p384).wellFormed = true := by decide

theorem witness_CommandFrame :
    isNext (exec (.jadd 0 3 6 .p256) baseJ) = true ∧ isNext (exec (.cmp 0 1) baseJ) = true
    ∧ isNext (exec (.stbe 0) baseJ) = true ∧ (5 : RegIdx) ∉ (Instr.jadd 0 3 6 .p256).writes
    ∧ (∀ ra rb, Instr.jadd 0 3 6 .p256 ≠ .cmp ra rb) ∧ (∀ ra, Instr.jadd 0 3 6 .p256 ≠ .stbe ra) :=
  ⟨by decide +kernel, by decide +kernel, by decide +kernel, by decide, fun _ _ => nofun, fun _ => nofun⟩

theorem witness_CommandsReadOnlyTheirOperands :
    let s := load [(1, 300)]
    let s' := { load [(1, 300), (3, 7)] with
      flags := 0b11, cmd := 7, status := { busy := false, done := true, err := false } }
    (∀ r ∈ (Instr.stbe 1).reads, s'.val r = s.val r)
    ∧ (∀ r ∈ (Instr.ldbe 1).reads, s'.val r = s.val r)
    ∧ (∀ r ∈ (Instr.cmp 1 2).reads, s'.val r = s.val r)
    ∧ (∀ r ∈ (Instr.add 3 1 2).reads, s'.val r = s.val r) ∧ s'.regs ≠ s.regs
    ∧ s'.buf = s.buf ∧ s'.buflen = s.buflen ∧ s.status.err = false
    ∧ s'.status.err = false ∧ s.buf.wf ∧ s'.buf.wf
    ∧ isNext (exec (.ldbe 1) s) = true ∧ isNext (exec (.ldbe 1) s') = true
    ∧ (nextOf (exec (.ldbe 1) s)).status.err = true
    ∧ isNext (exec (.stbe 1) s) = true ∧ isNext (exec (.stbe 1) s') = true
    ∧ (nextOf (exec (.stbe 1) s)).buflen.toNat = 2
    ∧ isNext (exec (.cmp 1 2) s) = true ∧ isNext (exec (.cmp 1 2) s') = true
    ∧ isNext (exec (.add 3 1 2) s) = true ∧ isNext (exec (.add 3 1 2) s') = true
    ∧ (nextOf (exec (.add 3 1 2) s)).status.err = false := by decide +kernel

theorem witness_ControlRegisterReads :
    (awaiting State.reset [.read 0x0000]).agenda = .read 0x0000 :: []
    ∧ (awaiting State.reset [.read 0x0004]).agenda = .read 0x0004 :: []
    ∧ (awaiting State.reset [.read 0x0008]).agenda = .read 0x0008 :: []
    ∧ (awaiting State.reset [.read 0x000C]).agenda = .read 0x000C :: []
    ∧ (awaiting State.reset [.read 0x0010]).agenda = .read 0x0010 :: []
    ∧ (awaiting State.reset [.read 0x0010]).status.busy = false := by decide +kernel

theorem witness_LimbWindow :
    let s := fun e => awaiting (load [(31, 2 ^ 1024 - 1)]) [e]
    (∀ k ∈ [0, 31], (s (.read (limbOffset 31 k))).status.busy = false
      ∧ (s (.read (limbOffset 31 k))).agenda = .read (limbOffset 31 k) :: [])
    ∧ ((s .engine).reg 31).canonical = true ∧ ((s .engine).reg 30).len ≤ 31
    ∧ (∀ k ∈ [0, 32], (s (.write (limbOffset 31 k) 1)).agenda = .write (limbOffset 31 k) 1 :: []) := by
  decide +kernel

theorem witness_HeaderWord :
    let s := awaiting (load [(31, -(2 ^ 1024 - 1))]) [.read (hdrOffset 31)]
    (s.reg 31).canonical = true ∧ s.status.busy = false ∧ s.agenda = .read (hdrOffset 31) :: [] := by
  decide +kernel

theorem witness_BufferWindow :
    let s := fun e => awaiting (buffered [1, 0, 3] 3) [e]
    (s .engine).status.busy = false ∧ (s .engine).buf.wf
    ∧ (s (.read (bufwOffset 31))).agenda = .read (bufwOffset 31) :: []
    ∧ (s (.write (bufwOffset 0) 0x01000000)).agenda = .write (bufwOffset 0) 0x01000000 :: [] := by
  decide +kernel

theorem witness_RefusedTransactionsChangeNothing :
    ((awaiting State.reset [.read 0x1084]).agenda = .read 0x1084 :: [] ∧ ¬Mapped 0x1084 ∧ ¬Mapped 0x0002)
    ∧ (¬Mapped 0x0014 ∧ ¬Mapped 0x0180 ∧ ¬Mapped 0x0FFC ∧ ¬Mapped 0x3000)
    ∧ (¬Writable 0x0008 ∧ ¬Writable 0x000C ∧ ¬Writable 0x1000)
    ∧ (awaiting State.reset [.write 0x1000 1]).agenda = .write 0x1000 1 :: []
    ∧ (runningThen 0x01080018 [.read 0x0010]).status.busy = true
    ∧ (runningThen 0x01080018 [.read 0x0010]).agenda = .read 0x0010 :: [] :=
  ⟨by decide +kernel, by decide +kernel, by decide +kernel, by decide +kernel⟩

theorem witness_BusyCoreAnswers :
    (runningThen 0x01080018 [.read 0x000C]).status.busy = true
    ∧ (runningThen 0x01080018 [.read 0x000C]).agenda = .read 0x000C :: []
    ∧ (runningThen 0x01080018 [.write 0x0004 6]).agenda = .write 0x0004 6 :: [] := by decide +kernel

theorem witness_HostAccessSideEffects :
    State.reset.status.busy = false
    ∧ (awaiting State.reset [.read 0x2F80]).agenda = .read 0x2F80 :: []
    ∧ (awaiting State.reset [.write 0x0000 0]).agenda = .write 0x0000 0 :: []
    ∧ (awaiting State.reset.finish [.write 0x0004 2]).agenda = .write 0x0004 2 :: []
    ∧ (awaiting State.reset [.write 0x0010 0x1FF]).agenda = .write 0x0010 0x1FF :: []
    ∧ (awaiting State.reset [.write (bufwOffset 31) 1]).agenda = .write (bufwOffset 31) 1 :: [] := by
  decide +kernel

theorem witness_HostNeverWritesARegister :
    let r := awaiting State.reset [.read 0x1080]
    let w := awaiting State.reset [.write 0x017C 9]
    r.agenda = .read 0x1080 :: [] ∧ Event.read 0x1080 ≠ .engine ∧ Event.read 0x1080 ≠ .reset
    ∧ isNext (step r) = true ∧ Mapped 0x1080 ∧ r.status.busy = false
    ∧ w.agenda = .write 0x017C 9 :: [] ∧ isNext (step w) = true
    ∧ (nextOf (step w)).answers ≠ .busError :: w.answers := by
  decide +kernel

/-- The state of `witness_ClearedFaultRestoresState`: `ADD` overflows, a second command is refused, and the
host clears the fault. -/
def faulting : State :=
  awaiting (load [(1, 2 ^ 1024 - 1), (2, 1)])
    [.write 0x0000 0x10184400, .engine, .write 0x0000 0x01080018, .write 0x0004 4]

theorem witness_ClearedFaultRestoresState :
    faulting.Inv ∧ faulting.status.busy = false ∧ faulting.status.err = false
    ∧ faulting.agenda = .write 0x0000 0x10184400 :: .engine :: .write 0x0000 0x01080018
        :: .write 0x0004 4 :: []
    ∧ isNext (step faulting) = true ∧ isNext (step (nextOf (step faulting))) = true
    ∧ (nextOf (step (nextOf (step faulting)))).status.err = true ∧ (4 : Word).getLsbD 2 = true :=
  ⟨⟨by decide +kernel, by decide +kernel, by decide +kernel, by decide +kernel, by decide +kernel⟩,
    by decide +kernel⟩

theorem witness_LdbeLoadsBuffer :
    (buffered [1] 0).buflen.toNat = 0 ∧ 128 < (buffered [1] 129).buflen.toNat
    ∧ 1 ≤ (buffered [1] 1).buflen.toNat ∧ (buffered [1] 1).buflen.toNat ≤ 128
    ∧ 1 ≤ (buffered [1] 128).buflen.toNat ∧ (buffered [1] 128).buflen.toNat ≤ 128 := by decide +kernel

theorem witness_StbeStoresMagnitude :
    let s := load [(5, -(2 ^ 1024 - 1))]
    s.buf.wf ∧ 2 ^ 1024 - 1 = (s.val 5).natAbs ∧ 128 = max 1 ((bitlen (2 ^ 1024 - 1) + 7) / 8)
    ∧ 0 = (s.val 6).natAbs ∧ 1 = max 1 ((bitlen 0 + 7) / 8) := by decide +kernel

theorem witness_StbeThenLdbeGivesMagnitude : (buffered [1, 2] 2).buf.wf := by decide +kernel

theorem witness_LdcLoadsConstant :
    6 ≤ (6 : BitVec 3).toNat ∧ 6 ≤ (7 : BitVec 3).toNat ∧ (5 : BitVec 3).toNat < 6
    ∧ 2 ≤ (2 : BitVec 2).toNat ∧ 2 ≤ (3 : BitVec 2).toNat := by decide

theorem witness_AddComputesSum :
    let s := load [(1, 2 ^ 1024 - 1), (2, 1)]
    (s.val 1 + s.val 0).natAbs < 2 ^ 1024 ∧ 2 ^ 1024 ≤ (s.val 1 + s.val 2).natAbs := by decide +kernel

theorem witness_SubComputesDifference :
    let s := load [(1, 2 ^ 1024 - 1), (2, -1)]
    (s.val 1 - s.val 0).natAbs < 2 ^ 1024 ∧ 2 ^ 1024 ≤ (s.val 1 - s.val 2).natAbs := by decide +kernel

theorem witness_MulComputesProduct :
    let s := load [(1, 2 ^ 512), (2, 2 ^ 512), (3, 2 ^ 512 - 1)]
    (s.val 3 * s.val 3).natAbs < 2 ^ 1024 ∧ 2 ^ 1024 ≤ (s.val 1 * s.val 2).natAbs := by decide +kernel

theorem witness_LshMultiplies :
    let s := load [(1, 2 ^ 1022), (2, 2 ^ 1023)]
    (s.val 1 * 2 ^ (1 : BitVec 5).toNat).natAbs < 2 ^ 1024
    ∧ 2 ^ 1024 ≤ (s.val 2 * 2 ^ (1 : BitVec 5).toNat).natAbs := by decide +kernel

theorem witness_DivTruncates :
    let s := load [(1, -7), (2, 1), (3, -2)]
    s.val 3 ≤ 0 ∧ s.val 0 ≤ 0 ∧ 0 < s.val 2 := by decide +kernel

theorem witness_ModIsEuclidean :
    let s := load [(1, -7), (2, 1), (3, -2)]
    s.val 3 ≤ 0 ∧ s.val 0 ≤ 0 ∧ 0 < s.val 2 := by decide +kernel

theorem witness_InvIsTheInverse :
    let s := load [(1, 3), (2, 1), (3, 2), (4, 7), (5, 14)]
    s.val 2 < 2 ∧ (2 ≤ s.val 4 ∧ Int.gcd (s.val 5 % s.val 4) (s.val 4) ≠ 1)
    ∧ (2 ≤ s.val 3 ∧ Int.gcd (s.val 1 % s.val 3) (s.val 3) = 1) := by decide +kernel

theorem witness_MulmodIsTheResidue :
    let s := load [(1, 5), (2, -6), (3, 1)]
    s.val 4 ≤ 0 ∧ 0 < s.val 3 ∧ (s.val 1 * s.val 2).natAbs < 2 ^ 1024 ∧ (3 : RegIdx) ≠ 4 := by
  decide +kernel

theorem witness_ModpIsTheFieldResidue : (9 : RegIdx) ≠ 1 ∧ 2 ≤ (2 : BitVec 2).toNat := by decide

/-- The formula's values are those that section 2.4 prints for J1. -/
theorem witness_JdblDoubles :
    let s := baseJ
    (29 : RegIdx).toNat ≤ 29 ∧ (0 : RegIdx).toNat ≤ 29 ∧ p256 = (rom .p256).p ∧ gx = s.val 0
    ∧ gy = s.val (0 + 1) ∧ 1 = s.val (0 + 2) ∧ gy ≠ 0
    ∧ (0x55DF5D5850F47BAD82149139979369FE498A9022A412B5E0BEDD2CFC21C3ED91 : Int) = gy * gy % p256
    ∧ (0x1BFC53F01F1941AEECCA45343C1BCA373BB1A2039C0E4828BC5C378AA6B766EF : Int)
      = 4 * gx * 0x55DF5D5850F47BAD82149139979369FE498A9022A412B5E0BEDD2CFC21C3ED91 % p256
    ∧ (0xCAE428E87D3CD8168484CF1A2AA3B2889B23CBDB183BE9730080B044C741BEA2 : Int)
      = (3 * gx * gx + (rom .p256).a * 1 ^ 4) % p256
    ∧ (load [(0, 5), (2, 7)]).val (0 + 1) = 0 := by decide +kernel

/-- The operands of J7, J8, J5, J4 and J2, one for each branch. -/
theorem witness_JaddAdds :
    (29 : RegIdx).toNat ≤ 29 ∧ (0 : RegIdx).toNat ≤ 29
    ∧ (load [(0, 5), (1, 0), (2, 7)]).val (0 + 1) = 0
    ∧ ((load [(0, -1), (1, 2 ^ 300), (2, 9)]).val (0 + 1) ≠ 0
      ∧ (load [(0, -1), (1, 2 ^ 300), (2, 9)]).val (3 + 1) = 0)
    ∧ (gy ≠ 0 ∧ p256 - gy ≠ 0 ∧ gx = gx * 1 * 1 % p256 ∧ gy = gy * 1 ^ 3 % p256
      ∧ p256 - gy = (p256 - gy) * 1 ^ 3 % p256 ∧ gy ≠ p256 - gy)
    ∧ (gx * 2 * 2 % p256 = (4 * gx % p256) * 1 * 1 % p256 ∧ gy * 2 ^ 3 % p256 = (8 * gy % p256) * 1 ^ 3 % p256)
    ∧ (j1y ≠ 0 ∧ j1x * 1 * 1 % p256 ≠ gx * j1z * j1z % p256) := by decide +kernel

theorem witness_JmulIsRecursive :
    (29 : RegIdx).toNat ≤ 29 ∧ (-1 : Int) < 0 ∧ (rom .p256).n ≤ n256 ∧ n256 - 1 < (rom .p256).n
    ∧ gy ≠ 0 ∧ (2 : Int) < (rom .p256).n ∧ (2 : Int) % 2 = 0 ∧ (3 : Int) < (rom .p256).n
    ∧ (3 : Int) % 2 = 1 := by decide +kernel

theorem witness_FromjDividesByZ :
    (30 : RegIdx).toNat ≤ 30 ∧ (29 : RegIdx).toNat ≤ 29 ∧ p256 = (rom .p256).p
    ∧ (load [(0, 4), (2, p256)]).val (0 + 2) % p256 = 0 ∧ (load [(0, 4), (2, 2)]).val (0 + 2) % p256 ≠ 0 := by
  decide +kernel

/-- J36 for the fault; J31, J37 for the rest. -/
theorem witness_PmulMultiplies :
    let s := load [(0, gx), (1, p256), (9, 2), (2, gx), (3, gy), (10, 1)]
    (30 : RegIdx).toNat ≤ 30 ∧ p256 = (rom .p256).p
    ∧ (jMul .p256 (APoint.toJacobian (s.affine 0)) (s.val 9)).z % p256 = 0
    ∧ (jMul .p256 (APoint.toJacobian (s.affine 2)) (s.val 10)).z % p256 ≠ 0
    ∧ s.val 8 % (rom .p256).n = 0 ∧ s.val 10 % (rom .p256).n = 1 ∧ s.val (2 + 1) ≠ 0
    ∧ s.val (10 + 1) = 0 := by decide +kernel

theorem witness_JacobianAgreesWithAffine :
    gy % (rom .p256).p ≠ 0
    ∧ fromJ .p256 { x := gx, y := gy, z := 1 } = .ok { x := gx, y := gy }
    ∧ j1y % (rom .p256).p ≠ 0
    ∧ fromJ .p256 { x := j1x, y := j1y, z := j1z } = .ok { x := gx2, y := gy2 } := by decide +kernel

/-- A12 and A3. -/
theorem witness_PdblDoubles :
    (30 : RegIdx).toNat ≤ 30 ∧ p256 = (rom .p256).p
    ∧ 0 = (load [(0, 5)]).val (0 + 1) % p256
    ∧ (load [(0, gx), (1, gy)]).val (0 + 1) % p256 ≠ 0 := by decide +kernel

/-- A9, A7, A4, A5 and A2, one for each branch. -/
theorem witness_PaddAdds :
    let s := load [(0, p256), (1, -p256), (2, gx), (3, gy), (4, gx), (5, -gy), (6, gx2), (7, gy2)]
    (30 : RegIdx).toNat ≤ 30 ∧ p256 = (rom .p256).p
    ∧ (s.val 0 % p256 = 0 ∧ s.val 1 % p256 = 0) ∧ ¬(s.val 2 % p256 = 0 ∧ s.val 3 % p256 = 0)
    ∧ (s.val 2 % p256 = s.val 4 % p256 ∧ s.val 3 % p256 ≠ s.val 5 % p256)
    ∧ s.val 2 % p256 ≠ s.val 6 % p256 ∧ ¬(s.val 6 % p256 = 0 ∧ s.val 7 % p256 = 0) := by decide +kernel

theorem witness_PmultiMultiplies :
    let s := load [(9, -1)]
    (30 : RegIdx).toNat ≤ 30 ∧ s.val 9 < 0 ∧ 0 ≤ s.val 10 ∧ (1 : Nat) ≠ 0 := by decide +kernel

theorem witness_ShamirMultiplies :
    let s := load [(9, -1), (10, 2)]
    (30 : RegIdx).toNat ≤ 30 ∧ (s.val 9 < 0 ∨ s.val 10 < 0) ∧ 0 ≤ s.val 10 ∧ 0 ≤ s.val 11
    ∧ ({ x := gx, y := gy } : APoint) = { x := (rom .p256).gx, y := (rom .p256).gy }
    ∧ ¬((0 : Nat) = 0 ∧ (1 : Nat) = 0) := by decide +kernel

theorem witness_AddSubDatapath : limbsValue [5] ≤ limbsValue [0, 1] ∧ (1 : Nat) ≤ 1 := by decide +kernel

theorem witness_MulShiftDatapath : (31 : Nat) ≤ 31 := by decide

/-- The first round of the trace of `INV` for `a = 17`, `m = 3120` (section 2.2), and the two ends. -/
theorem witness_DivModInvDatapath :
    0 < (1 : Nat) ∧ (2 : Int) ≤ 3120
    ∧ (invStart 17 3120).Invariant 17 3120 ∧ 1 < (invStart 17 3120).low
    ∧ invRound (invStart 17 3120) = { lm := -183, hm := 1, low := 9, high := 17 }
    ∧ Int.gcd (17 % 3120) 3120 = 1 ∧ Int.gcd (6 % 9) 9 ≠ 1 :=
  ⟨by decide, by decide, ⟨by decide, by decide, by decide, by decide, by decide⟩, by decide, by decide,
    by decide, by decide⟩

end Sys2Proof.Tests
end

section
/-! SUPPORT. What a register's contents say about its value, and that canonical contents are one per
integer (rule R16). -/

namespace Sys2Proof.Machine

/-! ### Canonical form -/

/-- Clause (c) of rule R16 on the list of limbs and limb by limb. -/
theorem drop_eq_zero_iff (v : Vector Word Config.limbCap) (n : Nat) :
    (∀ w ∈ v.toList.drop n, w = 0) ↔ ∀ (k : Nat) (h : k < 32), n ≤ k → v[k] = 0 := by
  simp only [List.mem_drop_iff_getElem, Vector.length_toList, Vector.getElem_toList]
  constructor
  · intro h k hk hle
    exact h _ ⟨k - n, by rwa [Nat.sub_add_cancel hle], by simp only [Nat.add_sub_cancel' hle]⟩
  · rintro h w ⟨j, hj, rfl⟩
    exact h (n + j) (by rwa [Nat.add_comm]) (Nat.le_add_right n j)

/-- Canonical form, clause by clause. -/
theorem BigInt.canonical_iff (b : BigInt) : b.canonical = true ↔
    1 ≤ b.len ∧ b.len ≤ 32 ∧ (b.len = 1 ∨ b.limbs.toList.getD (b.len - 1) 0 ≠ 0)
      ∧ (∀ (k : Nat) (h : k < 32), b.len ≤ k → b.limbs[k] = 0) ∧ (b.mag = 0 → b.neg = false) := by
  simp only [BigInt.canonical, Bool.and_eq_true, Bool.or_eq_true, decide_eq_true_eq,
    Bool.not_eq_true', List.all_eq_true, drop_eq_zero_iff, imp_iff_not_or (a := b.mag = 0), and_assoc]

/-- The limbs that `len` leaves out do not count: all 32 hold the magnitude. -/
theorem BigInt.limbsValue_of_canonical {b : BigInt} (h : b.canonical = true) :
    limbsValue b.limbs.toList = b.mag := by
  obtain ⟨-, -, -, hzero, -⟩ := b.canonical_iff.mp h
  have hdrop : limbsValue (b.limbs.toList.drop b.len) = 0 :=
    limbsValue_eq_zero.mpr ((drop_eq_zero_iff _ _).mpr hzero)
  rw [limbsValue_drop, Nat.div_eq_zero_iff_lt (by positivity)] at hdrop
  rw [BigInt.mag, limbsValue_take, Nat.mod_eq_of_lt hdrop]

/-- As many limbs with the same value are the same limbs. -/
theorem limbs_eq_of_limbsValue {v w : Vector Word Config.limbCap}
    (h : limbsValue v.toList = limbsValue w.toList) : v = w := by
  refine Vector.ext fun k hk => BitVec.eq_of_toNat_eq ?_
  have hv := limbsValue_getD v.toList k
  rw [h, ← limbsValue_getD w.toList k] at hv
  simpa [hk] using hv

/-- Clauses (a) and (b) leave no choice for `len`: a longer form would have a zero top limb. -/
theorem BigInt.len_le_of_limbs_eq {b c : BigInt} (hb : b.canonical = true) (hc : c.canonical = true)
    (h : b.limbs = c.limbs) : c.len ≤ b.len := by
  obtain ⟨hb1, -, -, hzero, -⟩ := b.canonical_iff.mp hb
  obtain ⟨-, hc32, htop, -, -⟩ := c.canonical_iff.mp hc
  by_contra hlt
  have hk : c.len - 1 < 32 := by omega
  have h0 := hzero (c.len - 1) hk (by omega)
  rcases htop with h1 | htop
  · omega
  · exact htop (by simpa [hk, h] using h0)

/-- Canonical registers with the same value have the same contents (rule R16). -/
theorem BigInt.eq_of_val_eq {b c : BigInt} (hb : b.canonical = true) (hc : c.canonical = true)
    (h : b.val = c.val) : b = c := by
  have hmag : b.mag = c.mag := by rw [← b.natAbs_val, ← c.natAbs_val, h]
  have hlimbs : b.limbs = c.limbs := limbs_eq_of_limbsValue (by
    rw [BigInt.limbsValue_of_canonical hb, BigInt.limbsValue_of_canonical hc, hmag])
  have hlen : b.len = c.len :=
    le_antisymm (BigInt.len_le_of_limbs_eq hc hb hlimbs.symm) (BigInt.len_le_of_limbs_eq hb hc hlimbs)
  have hneg : b.neg = c.neg := by
    obtain ⟨-, -, -, -, hb0⟩ := b.canonical_iff.mp hb
    obtain ⟨-, -, -, -, hc0⟩ := c.canonical_iff.mp hc
    by_cases h0 : c.mag = 0
    · rw [hb0 (hmag.trans h0), hc0 h0]
    · unfold BigInt.val at h
      rw [hmag] at h
      cases hbn : b.neg <;> cases hcn : c.neg <;> simp [hbn, hcn] at h ⊢ <;> omega
  obtain ⟨bn, bl, bw⟩ := b
  obtain ⟨cn, cl, cw⟩ := c
  simp only at hneg hlen hlimbs
  rw [hneg, hlen, hlimbs]

/-- Every register's value is below `2^1024` in magnitude, whatever its contents (rule R16). -/
theorem BigInt.natAbs_val_lt (b : BigInt) : b.val.natAbs < 2 ^ 1024 := by
  rw [b.natAbs_val, ← show 32 * Config.limbCap = 1024 from rfl]
  exact b.mag_lt

@[simp] theorem BigInt.canonical_zero : BigInt.zero.canonical = true := by decide

@[simp] theorem State.reg_reset (r : RegIdx) : State.reset.reg r = BigInt.zero := by
  simp [State.reg, State.reset]

/-! ### Registers that a command writes -/

/-- The contents of a destination do not depend on the state that is written. -/
theorem State.reg_writeRegs_congr {ws : List (RegIdx × Int)} (hn : (ws.map Prod.fst).Nodup) (s s' : State)
    {r : RegIdx} (hr : r ∈ ws.map Prod.fst) : (s'.writeRegs ws).reg r = (s.writeRegs ws).reg r := by
  obtain ⟨w, hw, rfl⟩ := List.mem_map.mp hr
  rw [State.reg_writeRegs_dest ws s' hn w hw, State.reg_writeRegs_dest ws s hn w hw]

/-- After a command that wrote registers each is as it was or canonical. -/
theorem WroteExactly.reg_eq_or_canonical {s t : State} {ws : List (RegIdx × Int)} (h : WroteExactly s t ws)
    (r : RegIdx) : t.reg r = s.reg r ∨ (t.reg r).canonical = true := by
  by_cases hr : r ∈ ws.map Prod.fst
  · obtain ⟨w, hw, rfl⟩ := List.mem_map.mp hr
    exact Or.inr (h.written w hw).2
  · exact Or.inl (h.others r hr)

end Sys2Proof.Machine
end

section
/-! SUPPORT. The commands as one: each but `STBE` and `CMP` computes destination values from its source
operands and hands them to `commit` (rules R10, R34, R226). -/

namespace Sys2Proof.Machine

/-- A command's values, unless a point base of it is out of range (rule R76). -/
def ifLegal (legal : Bool) (r : Except FaultCode (List (RegIdx × Int))) :
    Except FaultCode (List (RegIdx × Int)) :=
  if legal then r else .error .illegalCommand

theorem whenLegal_eq_commit (s : State) (legal : Bool) (r : Except FaultCode (List (RegIdx × Int))) :
    whenLegal s legal r = commit s (ifLegal legal r) := by
  cases legal <;> rfl

/-- The destination values that a command computes, or the fault that it finds, before the overflow test;
`STBE` and `CMP` have no destination register (`exec_eq_commit`). -/
def computed (s : State) : Instr → Except FaultCode (List (RegIdx × Int))
  | .ldi rd imm => .ok [(rd, (imm.toNat : Int))]
  | .ldbe rd =>
    if s.buflen.toNat = 0 ∨ 128 < s.buflen.toNat then .error .invalidLength
    else .ok [(rd, (bytesValue (s.buf.readBytes 0 s.buflen.toNat) : Int))]
  | .stbe _ => .ok []
  | .mov rd ra => .ok [(rd, s.val ra)]
  | .ldc rd cv sel => .ok [(rd, romConst cv sel)]
  | .add rd ra rb => .ok [(rd, s.val ra + s.val rb)]
  | .sub rd ra rb => .ok [(rd, s.val ra - s.val rb)]
  | .mul rd ra rb => .ok [(rd, s.val ra * s.val rb)]
  | .cmp _ _ => .ok []
  | .lsh rd ra sh => .ok [(rd, s.val ra * 2 ^ sh.toNat)]
  | .rsh rd ra sh => .ok [(rd, shiftRightValue (s.val ra) sh)]
  | .div rd ra rb => (divideValue (s.val ra) (s.val rb)).map fun q => [(rd, q)]
  | .mod rd ra rb => (remainderValue (s.val ra) (s.val rb)).map fun r => [(rd, r)]
  | .inv rd ra rb => (modInverse (s.val ra) (s.val rb)).map fun v => [(rd, v)]
  | .mulmod rd ra rb rc => (remainderValue (s.val ra * s.val rb) (s.val rc)).map fun r => [(rd, r)]
  | .modp rd ra cv => .ok [(rd, modp cv (s.val ra))]
  | .jdbl rd ra cv => ifLegal (jacobianBase rd && jacobianBase ra)
      (.ok (jacobianDest rd (jDouble cv (s.jacobian ra))))
  | .jadd rd ra rb cv => ifLegal (jacobianBase rd && jacobianBase ra && jacobianBase rb)
      (.ok (jacobianDest rd (jAdd cv (s.jacobian ra) (s.jacobian rb))))
  | .jmul rd ra rb cv => ifLegal (jacobianBase rd && jacobianBase ra)
      (.ok (jacobianDest rd (jMul cv (s.jacobian ra) (s.val rb))))
  | .fromj rd ra cv => ifLegal (affineBase rd && jacobianBase ra)
      ((fromJ cv (s.jacobian ra)).map (affineDest rd))
  | .pmul rd ra rb cv => ifLegal (affineBase rd && affineBase ra)
      ((fromJ cv (jMul cv (s.affine ra).toJacobian (s.val rb))).map (affineDest rd))
  | .padd rd ra rb cv => ifLegal (affineBase rd && affineBase ra && affineBase rb)
      ((aAdd cv (s.affine ra) (s.affine rb)).map (affineDest rd))
  | .pdbl rd ra cv => ifLegal (affineBase rd && affineBase ra)
      ((aDouble cv (s.affine ra)).map (affineDest rd))
  | .pmulti rd ra rb cv => ifLegal (affineBase rd && affineBase ra)
      ((multiValue cv (s.affine ra) (s.val rb)).map (affineDest rd))
  | .shamir rd ra rb rc cv => ifLegal (affineBase rd && affineBase rc)
      ((shamirValue cv (s.val ra) (s.val rb) (s.affine rc)).map (affineDest rd))

/-- Every command but `STBE` and `CMP` is one `commit` of what it computes. -/
theorem exec_eq_commit (i : Instr) (s : State) (hs : ∀ ra, i ≠ .stbe ra) (hc : ∀ ra rb, i ≠ .cmp ra rb) :
    exec i s = commit s (computed s i) := by
  cases i with
  | stbe ra => exact absurd rfl (hs ra)
  | cmp ra rb => exact absurd rfl (hc ra rb)
  | ldbe rd =>
    rw [exec_ldbe, computed]
    split <;> rfl
  | lsh rd ra sh => exact exec_lsh rd ra sh s
  | ldi | mov | ldc | add | sub | mul | rsh | div | mod | inv | mulmod | modp => rfl
  | jdbl | jadd | jmul | fromj | pmul | padd | pdbl | pmulti | shamir => exact whenLegal_eq_commit s _ _

/-! ### The destinations are those of rule R34 -/

/-- If these are destination values, they are for these registers. -/
def AreFor (ds : List RegIdx) (r : Except FaultCode (List (RegIdx × Int))) : Prop :=
  ∀ ws, r = .ok ws → ws.map Prod.fst = ds

theorem areFor_ok (ws : List (RegIdx × Int)) : AreFor (ws.map Prod.fst) (.ok ws) := by
  rintro _ ⟨⟩; rfl

theorem areFor_error (ds : List RegIdx) (c : FaultCode) : AreFor ds (.error c) := by
  rintro _ ⟨⟩

theorem areFor_map {α : Type} {ds : List RegIdx} {f : α → List (RegIdx × Int)}
    (h : ∀ v, (f v).map Prod.fst = ds) (r : Except FaultCode α) : AreFor ds (r.map f) := by
  cases r with
  | error c => exact areFor_error ds c
  | ok v => exact h v ▸ areFor_ok (f v)

theorem areFor_ifLegal {ds : List RegIdx} {r : Except FaultCode (List (RegIdx × Int))} (legal : Bool)
    (h : AreFor ds r) : AreFor ds (ifLegal legal r) := by
  cases legal with
  | false => exact areFor_error ds _
  | true => exact h

/-- What a command computes is for the registers that rule R34 lists. -/
theorem computed_areFor_writes (i : Instr) (s : State) : AreFor i.writes (computed s i) := by
  cases i with
  | ldi | stbe | mov | ldc | add | sub | mul | cmp | lsh | rsh | modp => exact areFor_ok _
  | ldbe rd =>
    rw [computed]
    split
    · exact areFor_error _ _
    · exact areFor_ok _
  | div | mod | inv | mulmod => exact areFor_map (by intro _; rfl) _
  | jdbl | jadd | jmul => exact areFor_ifLegal _ (areFor_ok _)
  | fromj | pmul | padd | pdbl | pmulti | shamir => exact areFor_ifLegal _ (areFor_map (by intro _; rfl) _)

/-- No command names a destination twice. -/
theorem writes_nodup (i : Instr) : i.writes.Nodup := by
  cases i <;> simp [Instr.writes]

/-! ### The values depend on the source operands only -/

/-- The command's source registers hold the same values, and for `LDBE` so does the buffer. -/
structure SameOperands (i : Instr) (s s' : State) : Prop where
  regs : ∀ r ∈ i.reads, s'.val r = s.val r
  buffer : (∃ rd, i = .ldbe rd) → s'.buf = s.buf ∧ s'.buflen = s.buflen

theorem computed_congr {i : Instr} {s s' : State} (h : SameOperands i s s') :
    computed s' i = computed s i := by
  obtain ⟨hregs, hbuf⟩ := h
  cases i with
  | ldi | stbe | ldc | cmp => rfl
  | ldbe rd =>
    obtain ⟨h1, h2⟩ := hbuf ⟨rd, rfl⟩
    simp only [computed, h1, h2]
  | mov | lsh | rsh | modp | add | sub | mul | div | mod | inv | mulmod =>
    simp only [Instr.reads, List.forall_mem_cons] at hregs
    simp only [computed, hregs]
  | jdbl | jadd | jmul | fromj | pmul | padd | pdbl | pmulti | shamir =>
    simp only [Instr.reads, List.forall_mem_cons] at hregs
    simp only [computed, State.jacobian, State.affine, hregs]

/-! ### Everything a command can do -/

/-- Everything the engine's step on a command can do. -/
theorem exec_cases {i : Instr} {s t : State} (h : exec i s = .next t) :
    (∃ c : FaultCode, t = afterFault c.code s)
      ∨ (∃ ws, ws.map Prod.fst = i.writes ∧ ws.all (fun w => fits w.2) = true
          ∧ t = (s.writeRegs ws).finish)
      ∨ (∃ ra, i = .stbe ra ∧ t = { s with
          buf := s.buf.writeBytes 0 (magnitudeBytes (s.val ra).natAbs)
          buflen := BitVec.ofNat 8 (byteLength (s.val ra).natAbs) }.finish)
      ∨ ∃ ra rb, i = .cmp ra rb ∧ t = { s with flags := compareFlag (s.val ra) (s.val rb) }.finish := by
  by_cases hs : ∃ ra, i = .stbe ra
  · obtain ⟨ra, rfl⟩ := hs
    rw [exec_stbe] at h; injection h with h
    exact Or.inr (Or.inr (Or.inl ⟨ra, rfl, h.symm⟩))
  by_cases hc : ∃ ra rb, i = .cmp ra rb
  · obtain ⟨ra, rb, rfl⟩ := hc
    rw [exec_cmp] at h; injection h with h
    exact Or.inr (Or.inr (Or.inr ⟨ra, rb, rfl, h.symm⟩))
  simp only [not_exists] at hs hc
  rw [exec_eq_commit i s hs hc] at h
  rcases commit_cases h with ⟨ws, hok, hf, ht⟩ | ⟨c, -, ht⟩ | ⟨ws, -, -, ht⟩
  · exact Or.inr (Or.inl ⟨ws, computed_areFor_writes i s ws hok, hf, ht⟩)
  · exact Or.inl ⟨c, ht⟩
  · exact Or.inl ⟨.overflow, ht⟩

/-- A command that ends by writing its destinations has done exactly that. -/
theorem wroteExactly_of_writes {i : Instr} {s : State} {ws : List (RegIdx × Int)}
    (hd : ws.map Prod.fst = i.writes) (hf : ws.all (fun w => fits w.2) = true) :
    WroteExactly s (s.writeRegs ws).finish ws :=
  wroteExactly_finish (hd ▸ writes_nodup i) hf

end Sys2Proof.Machine
end

section
/-! SUPPORT. The invariant of the reachable states, kept by every event (rules R16, R21, R24 to R26, R188). -/

namespace Sys2Proof.Machine

/-! ### Registers: each is left alone or becomes canonical -/

theorem exec_reg {i : Instr} {s t : State} (h : exec i s = .next t) (r : RegIdx) :
    t.reg r = s.reg r ∨ (t.reg r).canonical = true := by
  rcases exec_cases h with ⟨c, rfl⟩ | ⟨ws, hd, hf, rfl⟩ | ⟨ra, -, rfl⟩ | ⟨ra, rb, -, rfl⟩
  · exact Or.inl rfl
  · exact (wroteExactly_of_writes hd hf).reg_eq_or_canonical r
  · exact Or.inl rfl
  · exact Or.inl rfl

/-- Everything the engine's step can do: a command, or the fault of a word that is none. -/
theorem engineStep_cases {s t : State} (h : engineStep s = .next t) :
    (∃ i, exec i s = .next t) ∨ ∃ c : FaultCode, t = afterFault c.code s := by
  unfold engineStep at h
  split at h
  · next i _ => exact Or.inl ⟨i, h⟩
  · rw [raise_eq] at h; injection h with h; exact Or.inr ⟨_, h.symm⟩
  · rw [raise_eq] at h; injection h with h; exact Or.inr ⟨_, h.symm⟩

/-- Everything the engine's turn can do. -/
theorem engineTurn_cases {s t : State} (h : engineTurn s = .next t) :
    t = s ∨ (s.status.busy = true ∧ ((∃ i, exec i s = .next t) ∨ ∃ c : FaultCode, t = afterFault c.code s)) := by
  unfold engineTurn at h
  split at h
  · next hb => exact Or.inr ⟨hb, engineStep_cases h⟩
  · injection h with h; exact Or.inl h.symm

/-- A write to `STATUS` touches `DONE`, `ERR` and `ERRCODE` only. -/
theorem clearStatus_eq (s : State) (d : Word) : s.clearStatus d = { s with
    status :=
      { busy := s.status.busy
        done := s.status.done && !d.getLsbD 1
        err := s.status.err && !d.getLsbD 2 }
    errcode := if d.getLsbD 2 then 0 else s.errcode } := by
  unfold State.clearStatus State.clearFault
  cases d.getLsbD 1 <;> cases d.getLsbD 2 <;> simp

/-- The host cannot write a register (rule R49). -/
theorem hostWrite_regs (addr : Offset) (d : Word) (s : State) : (hostWrite addr d s).regs = s.regs := by
  rcases hostWrite_cases addr d s with h | ⟨l, t, -, -, hw, h⟩
  · rw [h, State.answer_regs]
  · rw [h, State.answer_regs]
    rcases writeLocation_cases hw with ⟨-, -, rfl⟩ | ⟨-, rfl⟩ | ⟨-, rfl⟩ | ⟨w, -, rfl⟩
    · rfl
    · rw [clearStatus_eq]
    · rfl
    · rfl

theorem takeEvent_reg {e : Event} {s t : State} (h : takeEvent e s = .next t) (r : RegIdx) :
    t.reg r = s.reg r ∨ (t.reg r).canonical = true := by
  cases e with
  | read addr =>
    obtain ⟨a, ha⟩ := hostRead_answer addr s
    injection h with h
    exact Or.inl (by rw [← h, ha]; rfl)
  | write addr d =>
    injection h with h
    exact Or.inl (State.reg_congr (h ▸ hostWrite_regs addr d s) r)
  | engine =>
    rcases engineTurn_cases h with rfl | ⟨-, ⟨i, hi⟩ | ⟨c, rfl⟩⟩
    · exact Or.inl rfl
    · exact exec_reg hi r
    · exact Or.inl rfl
  | reset =>
    injection h with h
    exact Or.inr (h ▸ State.reg_reset r ▸ BigInt.canonical_zero)

/-- A step leaves a register as it was or in canonical form, whatever the state (rule R16). -/
theorem step_reg {s t : State} (h : step s = .next t) (r : RegIdx) :
    t.reg r = s.reg r ∨ (t.reg r).canonical = true := by
  obtain ⟨e, he⟩ := step_cases s
  rw [he] at h
  exact takeEvent_reg h r

theorem step_keeps_canonical {s t : State} (hs : ∀ r : RegIdx, (s.reg r).canonical = true)
    (h : step s = .next t) (r : RegIdx) : (t.reg r).canonical = true := by
  rcases step_reg h r with hr | hr
  · rw [hr]; exact hs r
  · exact hr

/-! ### The invariant, one event at a time -/

/-- The invariant speaks of the core's own state only. -/
theorem State.Inv.congr {s t : State} (hs : s.Inv) (h : SameCore s t) : t.Inv where
  registers r := State.reg_congr h.regs r ▸ hs.registers r
  buffer := h.buf ▸ hs.buffer
  flags := h.flags ▸ hs.flags
  status := h.status ▸ hs.status
  errcode := by rw [h.status, h.errcode]; exact hs.errcode

theorem State.Inv.answer {s : State} (hs : s.Inv) (a : Answer) : (s.answer a).Inv :=
  hs.congr ⟨rfl, rfl, rfl, rfl, rfl, rfl, rfl⟩

theorem State.Inv.popped {s : State} (hs : s.Inv) : s.popped.Inv :=
  hs.congr ⟨rfl, rfl, rfl, rfl, rfl, rfl, rfl⟩

theorem inv_reset : State.reset.Inv where
  registers r := by rw [State.reg_reset]; exact BigInt.canonical_zero
  buffer := Memory.wf_reset
  flags := by decide
  status := by decide
  errcode := by decide

theorem State.Inv.done_err_of_busy {s : State} (hs : s.Inv) (hb : s.status.busy = true) :
    s.status.done = false ∧ s.status.err = false := by
  obtain ⟨hbd, hbe, -⟩ := hs.status
  simpa [hb] using And.intro hbd hbe

/-- A running command ends well: what is left to show is what it wrote. -/
theorem State.Inv.endedWell {s t : State} (hs : s.Inv) (hb : s.status.busy = true)
    (hreg : ∀ r : RegIdx, (t.reg r).canonical = true) (hbuf : t.buf.wf) (hflags : t.flags ≠ 0b10)
    (hend : EndedWell s t) (hcode : t.errcode = s.errcode) : t.Inv := by
  obtain ⟨-, herr⟩ := hs.done_err_of_busy hb
  have hs0 := hs.errcode
  rw [EndedWell, herr] at hend
  refine ⟨hreg, hbuf, hflags, by simp [hend], ?_⟩
  simpa [hend, herr, hcode] using hs0

/-- A running command faults. -/
theorem State.Inv.afterFault {s : State} (hs : s.Inv) (hb : s.status.busy = true) (c : FaultCode) :
    (afterFault c.code s).Inv := by
  obtain ⟨hdone, -⟩ := hs.done_err_of_busy hb
  exact ⟨hs.registers, hs.buffer, hs.flags, by simp [Machine.afterFault, hdone],
    by simpa [Machine.afterFault] using c.code_range⟩

theorem compareFlag_ne (a b : Int) : compareFlag a b ≠ 0b10 := by
  unfold compareFlag
  split_ifs <;> decide

theorem State.Inv.exec {s t : State} {i : Instr} (hs : s.Inv) (hb : s.status.busy = true)
    (h : exec i s = .next t) : t.Inv := by
  have hreg (r : RegIdx) : (t.reg r).canonical = true := by
    rcases exec_reg h r with hr | hr
    · rw [hr]; exact hs.registers r
    · exact hr
  rcases exec_cases h with ⟨c, rfl⟩ | ⟨ws, -, -, rfl⟩ | ⟨ra, -, rfl⟩ | ⟨ra, rb, -, rfl⟩
  · exact hs.afterFault hb c
  · obtain ⟨hbuf, -, -, hflags, hstatus, hcode, -, -⟩ := State.writeRegs_rest ws s
    refine hs.endedWell hb hreg ?_ ?_ ?_ hcode
    · simpa only [State.finish_buf, hbuf] using hs.buffer
    · simpa only [State.finish_flags, hflags] using hs.flags
    · simp only [EndedWell, State.finish_status, hstatus]
  · exact hs.endedWell hb hreg (Memory.wf_writeBytes _ hs.buffer (magnitudeBytes_le s ra)) hs.flags rfl rfl
  · exact hs.endedWell hb hreg hs.buffer (compareFlag_ne _ _) rfl rfl

theorem State.Inv.engineTurn {s t : State} (hs : s.Inv) (h : engineTurn s = .next t) : t.Inv := by
  rcases engineTurn_cases h with rfl | ⟨hb, ⟨i, hi⟩ | ⟨c, rfl⟩⟩
  · exact hs
  · exact hs.exec hb hi
  · exact hs.afterFault hb c

/-- An accepted `CMD` write: there is no fault, so `BUSY` is alone (rules R23, R25). -/
theorem State.Inv.startCommand {s : State} (hs : s.Inv) (he : s.status.err = false) (w : Word) :
    (s.startCommand w).Inv :=
  ⟨hs.registers, hs.buffer, hs.flags, by simp [he], by simpa [he] using hs.errcode⟩

/-- A `STATUS` write while no command runs: bits go to 0, and `ERRCODE` with `ERR` (rules R25, R198). -/
theorem State.Inv.clearStatus {s : State} (hs : s.Inv) (hb : s.status.busy = false) (d : Word) :
    (s.clearStatus d).Inv := by
  obtain ⟨-, -, hde⟩ := hs.status
  rw [clearStatus_eq]
  refine ⟨hs.registers, hs.buffer, hs.flags, ?_, ?_⟩
  · simp only [hb, Bool.and_eq_true]; tauto
  · cases d.getLsbD 2
    · simpa using hs.errcode
    · simp

theorem State.Inv.hostWrite {s : State} (hs : s.Inv) (addr : Offset) (d : Word) :
    (hostWrite addr d s).Inv := by
  rcases hostWrite_cases addr d s with h | ⟨l, t, hl, hb, hw, h⟩
  · rw [h]; exact hs.answer _
  · rw [h]
    refine State.Inv.answer ?_ _
    rcases writeLocation_cases hw with ⟨-, he, rfl⟩ | ⟨-, rfl⟩ | ⟨-, rfl⟩ | ⟨w, rfl, rfl⟩
    · exact hs.startCommand he d
    · exact hs.clearStatus hb d
    · exact ⟨hs.registers, hs.buffer, hs.flags, hs.status, hs.errcode⟩
    · have hlen : 4 * w + (wordBytes d).length ≤ Config.bufBytes := by
        have := locate_bufw hl
        simp only [wordBytes, List.length_cons, List.length_nil, Config.bufBytes]; omega
      exact ⟨hs.registers, Memory.wf_writeBytes _ hs.buffer hlen, hs.flags, hs.status, hs.errcode⟩

theorem State.Inv.takeEvent {e : Event} {s t : State} (hs : s.Inv) (h : takeEvent e s = .next t) :
    t.Inv := by
  cases e with
  | read addr =>
    obtain ⟨a, ha⟩ := hostRead_answer addr s
    injection h with h
    exact h ▸ ha ▸ hs.answer a
  | write addr d =>
    injection h with h
    exact h ▸ hs.hostWrite addr d
  | engine => exact hs.engineTurn h
  | reset =>
    injection h with h
    exact h ▸ inv_reset.congr ⟨rfl, rfl, rfl, rfl, rfl, rfl, rfl⟩

end Sys2Proof.Machine
end

section
/-! SUPPORT. What two runs of a command on the same operands have in common (rules R10, R31, R34). -/

namespace Sys2Proof.Machine

/-- The serialised bytes do not depend on the buffer they are written to. -/
theorem read_writeBytes_congr {m m' : Memory} (hm : m.wf) (hm' : m'.wf) {bs : List Byte} {k : Nat}
    (hk : k < bs.length) : (m'.writeBytes 0 bs).read k = (m.writeBytes 0 bs).read k := by
  have h := Memory.read_writeBytes_in bs m (k := 0) hm.1 hk
  have h' := Memory.read_writeBytes_in bs m' (k := 0) hm'.1 hk
  rw [Nat.zero_add] at h h'
  rw [h, h']

/-! ### `STBE` and `CMP`, which write no register and never fault -/

theorem stbe_endedWell {ra : RegIdx} {s t : State} (h : exec (.stbe ra) s = .next t) : EndedWell s t := by
  rw [exec_stbe] at h
  injection h with h
  exact h ▸ rfl

theorem cmp_endedWell {ra rb : RegIdx} {s t : State} (h : exec (.cmp ra rb) s = .next t) :
    EndedWell s t := by
  rw [exec_cmp] at h
  injection h with h
  exact h ▸ rfl

theorem stbe_agree {ra : RegIdx} {s s' t t' : State} (hval : s'.val ra = s.val ra)
    (h : exec (.stbe ra) s = .next t) (h' : exec (.stbe ra) s' = .next t') :
    t'.buflen = t.buflen
      ∧ ∀ k < t.buflen.toNat, s.buf.wf → s'.buf.wf → t'.buf.read k = t.buf.read k := by
  rw [exec_stbe] at h h'
  injection h with h
  injection h' with h'
  subst h h'
  simp only [State.finish_buflen, State.finish_buf, hval, true_and]
  refine fun k hk hm hm' => read_writeBytes_congr hm hm' ?_
  rw [magnitudeBytes_length]
  exact hk.trans_le (BitVec.toNat_ofNat .. ▸ Nat.mod_le _ _)

theorem cmp_agree {ra rb : RegIdx} {s s' t t' : State} (hra : s'.val ra = s.val ra)
    (hrb : s'.val rb = s.val rb) (h : exec (.cmp ra rb) s = .next t)
    (h' : exec (.cmp ra rb) s' = .next t') : t'.flags = t.flags := by
  rw [exec_cmp] at h h'
  injection h with h
  injection h' with h'
  subst h h'
  simp only [State.finish_flags, hra, hrb]

/-- Two commands that ended well without a destination register. -/
theorem agree_of_no_writes {s s' t t' : State} {ds : List RegIdx} (hds : ds = [])
    (he : s.status.err = false) (he' : s'.status.err = false) (h : EndedWell s t) (h' : EndedWell s' t') :
    t'.status.err = t.status.err ∧ (t.status.err = true → t'.errcode = t.errcode)
      ∧ (t.status.err = false → ∀ q ∈ ds, t'.reg q = t.reg q) := by
  have herr : t.status.err = false := by rw [h]; exact he
  have herr' : t'.status.err = false := by rw [h']; exact he'
  simp [herr, herr', hds]

/-! ### The commands that write registers -/

/-- Two states that commit the same values end alike: the same outcome, the same fault, the same contents of
the destinations. -/
theorem commit_agree {s s' t t' : State} {r : Except FaultCode (List (RegIdx × Int))} {ds : List RegIdx}
    (hd : AreFor ds r) (hn : ds.Nodup) (he : s.status.err = false) (he' : s'.status.err = false)
    (h : commit s r = .next t) (h' : commit s' r = .next t') :
    t'.status.err = t.status.err ∧ (t.status.err = true → t'.errcode = t.errcode)
      ∧ (t.status.err = false → ∀ q ∈ ds, t'.reg q = t.reg q) := by
  cases r with
  | error c =>
    rw [commit_error] at h h'
    injection h with h; injection h' with h'; subst h h'
    exact ⟨rfl, fun _ => rfl, fun hf => absurd hf (by simp [afterFault])⟩
  | ok ws =>
    cases hf : ws.all fun w => fits w.2 with
    | false =>
      rw [commit_overflow hf] at h h'
      injection h with h; injection h' with h'; subst h h'
      exact ⟨rfl, fun _ => rfl, fun hf => absurd hf (by simp [afterFault])⟩
    | true =>
      rw [commit_ok hf] at h h'
      injection h with h; injection h' with h'; subst h h'
      obtain rfl := hd ws rfl
      have hw := wroteExactly_finish (s := s) hn hf
      have hw' := wroteExactly_finish (s := s') hn hf
      have herr : (s.writeRegs ws).finish.status.err = false := by rw [hw.ended]; exact he
      have herr' : (s'.writeRegs ws).finish.status.err = false := by rw [hw'.ended]; exact he'
      exact ⟨herr'.trans herr.symm, fun hf => absurd (herr.symm.trans hf) (by decide),
        fun _ q hq => State.reg_writeRegs_congr hn s s' hq⟩

end Sys2Proof.Machine
end

section
/-! SUPPORT. The words of the control registers as numbers (rules R22 to R26). -/

namespace Sys2Proof.Machine

/-- The three bits in their places (rule R25). -/
theorem status_word_eq (t : Status) :
    t.word = BitVec.ofNat 32 (t.busy.toNat + 2 * t.done.toNat + 4 * t.err.toNat) := by
  obtain ⟨busy, done, err⟩ := t
  cases busy <;> cases done <;> cases err <;> rfl

/-- Zeros above a field leave its number. -/
theorem zero_append_eq_ofNat {m n : Nat} (x : BitVec n) : 0#m ++ x = BitVec.ofNat (m + n) x.toNat := by
  rw [BitVec.ofNat_toNat, BitVec.setWidth_eq_append (Nat.le_add_left n m)]
  simp

theorem State.wordAt_status (s : State) : s.wordAt .status = BitVec.ofNat 32
    (s.status.busy.toNat + 2 * s.status.done.toNat + 4 * s.status.err.toNat) := status_word_eq s.status

theorem State.wordAt_errcode (s : State) : s.wordAt .errcode = BitVec.ofNat 32 s.errcode.toNat :=
  zero_append_eq_ofNat (m := 24) s.errcode

theorem State.wordAt_flags (s : State) : s.wordAt .flags = BitVec.ofNat 32 s.flags.toNat :=
  zero_append_eq_ofNat (m := 30) s.flags

theorem State.wordAt_buflen (s : State) : s.wordAt .buflen = BitVec.ofNat 32 s.buflen.toNat :=
  zero_append_eq_ofNat (m := 24) s.buflen

end Sys2Proof.Machine
end

section
/-! The statements on the state of the core (10_state.md). -/

namespace Sys2Proof.Machine

/-- Settles O14. -/
theorem resetMeetsInvariant : Obligations.ResetMeetsInvariant := inv_reset

/-- Settles O15: a step takes one event, and every event keeps the invariant. -/
theorem stepKeepsInvariant : Obligations.StepKeepsInvariant := by
  intro s t hs h
  obtain ⟨e, he⟩ := step_cases s
  rw [he] at h
  exact hs.popped.takeEvent h

/-- Settles O16: the one canonical content with a value is what rule R18 writes for it. -/
theorem registerContentsAreTheIntegers : Obligations.RegisterContentsAreTheIntegers := by
  refine ⟨BigInt.canonical_iff, inv_reset.registers, fun s t hs h => step_keeps_canonical hs h,
    BigInt.natAbs_val_lt, fun v hv => ?_⟩
  have hf := fits_of_lt hv
  have hc := BigInt.canonical_ofInt hf
  have hval := BigInt.val_ofInt hf
  exact ⟨BigInt.ofInt v, ⟨hc, hval⟩, fun c hc' hv' => BigInt.eq_of_val_eq hc' hc (hv'.trans hval.symm)⟩

/-- Settles O19, by the four ways a command can end. -/
theorem commandFrame : Obligations.CommandFrame := by
  intro i s t h
  rcases exec_cases h with ⟨c, rfl⟩ | ⟨ws, hd, hf, rfl⟩ | ⟨ra, rfl, rfl⟩ | ⟨ra, rb, rfl, rfl⟩
  · exact ⟨fun _ _ => rfl, fun _ => rfl, fun _ => ⟨rfl, fun _ => rfl⟩, rfl, rfl, rfl, Or.inr ⟨_, rfl⟩⟩
  · obtain ⟨-, others, rest, ended⟩ := wroteExactly_of_writes (s := s) hd hf
    exact ⟨fun r hr => others r (hd ▸ hr), fun _ => rest.flags, fun _ => ⟨rest.buflen, rest.buf⟩, rest.cmd,
      rest.agenda, rest.answers, Or.inl ⟨ended, rest.errcode⟩⟩
  · exact ⟨fun _ _ => rfl, fun _ => rfl, fun hne => absurd rfl (hne ra), rfl, rfl, rfl, Or.inl ⟨rfl, rfl⟩⟩
  · exact ⟨fun _ _ => rfl, fun hne => absurd rfl (hne ra rb), fun _ => ⟨rfl, fun _ => rfl⟩, rfl, rfl, rfl,
      Or.inl ⟨rfl, rfl⟩⟩

/-- Settles O20: what a command computes depends on its source operands only, and `commit` ends on it alike
in both states. -/
theorem commandsReadOnlyTheirOperands : Obligations.CommandsReadOnlyTheirOperands := by
  intro i s s' t t' hregs hbuf he he' h h'
  by_cases hs : ∃ ra, i = .stbe ra
  · obtain ⟨ra, rfl⟩ := hs
    obtain ⟨herr, hcode, hreg⟩ := agree_of_no_writes rfl he he' (stbe_endedWell h) (stbe_endedWell h')
    exact ⟨herr, hcode, hreg, nofun, fun _ => stbe_agree (hregs ra (by simp [Instr.reads])) h h'⟩
  by_cases hc : ∃ ra rb, i = .cmp ra rb
  · obtain ⟨ra, rb, rfl⟩ := hc
    obtain ⟨herr, hcode, hreg⟩ := agree_of_no_writes rfl he he' (cmp_endedWell h) (cmp_endedWell h')
    have hflags := cmp_agree (hregs ra (by simp [Instr.reads])) (hregs rb (by simp [Instr.reads])) h h'
    exact ⟨herr, hcode, hreg, fun _ => hflags, nofun⟩
  have hs' := not_exists.mp hs
  have hc' := fun ra => not_exists.mp (not_exists.mp hc ra)
  rw [exec_eq_commit i s hs' hc'] at h
  rw [exec_eq_commit i s' hs' hc', computed_congr ⟨hregs, hbuf⟩] at h'
  obtain ⟨herr, hcode, hreg⟩ := commit_agree (computed_areFor_writes i s) (writes_nodup i) he he' h h'
  exact ⟨herr, hcode, hreg, fun hi => absurd hi hc, fun hi => absurd hi hs⟩

/-- Settles O21. -/
theorem controlRegisterReads : Obligations.ControlRegisterReads := by
  intro s es a h
  refine ⟨?_, ?_, ?_, ?_, ?_⟩
  · rintro rfl
    exact step_read h locate_cmd (Or.inr rfl)
  · rintro rfl
    rw [step_read h locate_status (Or.inr rfl), State.wordAt_status]
  · rintro rfl
    rw [step_read h locate_errcode (Or.inr rfl), State.wordAt_errcode]
  · rintro rfl
    rw [step_read h locate_flags (Or.inr rfl), State.wordAt_flags]
  · rintro rfl hb
    rw [step_read h locate_buflen (Or.inl hb), State.wordAt_buflen]

/-- Settles O12. -/
theorem resetValues : Obligations.ResetValues := by
  refine ⟨fun r => ?_, fun k _ => rfl, rfl, rfl, rfl, rfl, rfl, rfl, rfl⟩
  have hval : State.reset.val r = 0 := by rw [State.val, State.reg_reset]; decide
  rw [State.reg_reset]
  exact ⟨rfl, rfl, fun k hk => Vector.getElem_replicate .., hval, by decide⟩

end Sys2Proof.Machine
end

section
/-! SUPPORT. What the host sees of a register and of the buffer, field by field (rules R17, R49 to R51). -/

namespace Sys2Proof.Machine

/-! ### Limbs -/

/-- The low limbs of a canonical register are its magnitude modulo `2^(32 n)`: `len` cuts off zeros only. -/
theorem BigInt.limbsValue_take_of_canonical {b : BigInt} (h : b.canonical = true) (n : Nat) :
    limbsValue (b.limbs.toList.take n) = b.val.natAbs % 2 ^ (32 * n) := by
  rw [limbsValue_take, BigInt.limbsValue_of_canonical h, b.natAbs_val]

/-- Limb 0 of a canonical register has the parity of the value (rule R17). -/
theorem BigInt.isEven_of_canonical {b : BigInt} (h : b.canonical = true) :
    b.isEven = decide (b.val % 2 = 0) := by
  have hlimb : b.limbs[0].toNat = b.mag % 2 ^ 32 := by
    simpa [BigInt.limbsValue_of_canonical h] using limbsValue_getD b.limbs.toList 0
  have hbit : b.limbs[0].getLsbD 0 = decide (b.mag % 2 = 1) := by
    rw [BitVec.getLsbD, hlimb, Nat.testBit_zero]
    exact decide_eq_decide.mpr (by omega)
  have hmag := b.natAbs_val
  rw [BigInt.isEven, hbit, ← decide_not]
  exact decide_eq_decide.mpr (by omega)

/-! ### The header word (rule R50) -/

/-- The header's fields above `LEN`, by their places from bit 8 on. -/
theorem flagBits_fields : ∀ neg zero one even : Bool,
    let x : BitVec 24 := flagBit neg ++ flagBit zero ++ flagBit one ++ flagBit even ++ 0#20
    x.getLsbD 23 = neg ∧ x.getLsbD 22 = zero ∧ x.getLsbD 21 = one ∧ x.getLsbD 20 = even
      ∧ x.extractLsb' 0 20 = 0 := by decide

theorem BigInt.header_len (b : BigInt) : b.header.extractLsb' 0 8 = BitVec.ofNat 8 b.len :=
  BitVec.extractLsb'_append_eq_right

/-- Bit `8 + i` of the header is bit `i` of what stands above `LEN`. -/
theorem BigInt.getLsbD_header (b : BigInt) (i : Nat) : b.header.getLsbD (8 + i)
    = (flagBit b.isNegative ++ flagBit b.isZero ++ flagBit b.isOne ++ flagBit b.isEven ++ 0#20).getLsbD i := by
  refine BitVec.getLsbD_append.trans ?_
  rw [if_neg (by omega), Nat.add_sub_cancel_left]

/-- The header's fields above `LEN` (rule R50). -/
theorem BigInt.header_fields (b : BigInt) :
    b.header.getLsbD 31 = b.isNegative ∧ b.header.getLsbD 30 = b.isZero ∧ b.header.getLsbD 29 = b.isOne
      ∧ b.header.getLsbD 28 = b.isEven ∧ b.header.extractLsb' 8 20 = 0 := by
  obtain ⟨hneg, hzero, hone, heven, hres⟩ := flagBits_fields b.isNegative b.isZero b.isOne b.isEven
  refine ⟨(b.getLsbD_header 23).trans hneg, (b.getLsbD_header 22).trans hzero,
    (b.getLsbD_header 21).trans hone, (b.getLsbD_header 20).trans heven, hres ▸ ?_⟩
  refine BitVec.eq_of_getLsbD_eq fun i _ => ?_
  rw [BitVec.getLsbD_extractLsb', BitVec.getLsbD_extractLsb', b.getLsbD_header, Nat.zero_add]

/-! ### A word of the buffer window (rule R51) -/

/-- The field between `x` and `z`. -/
theorem extractLsb'_append_middle {n m k : Nat} (x : BitVec n) (y : BitVec m) (z : BitVec k) :
    (x ++ y ++ z).extractLsb' k m = y := by
  rw [BitVec.extractLsb'_append_eq_of_le le_rfl, Nat.sub_self, BitVec.extractLsb'_append_eq_right]

/-- Little-endian lanes: byte `4w` lowest. -/
theorem bufWord_lanes (m : Memory) (w : Nat) :
    (bufWord m w).extractLsb' 0 8 = m.read (4 * w) ∧ (bufWord m w).extractLsb' 8 8 = m.read (4 * w + 1)
      ∧ (bufWord m w).extractLsb' 16 8 = m.read (4 * w + 2)
      ∧ (bufWord m w).extractLsb' 24 8 = m.read (4 * w + 3) := by
  refine ⟨BitVec.extractLsb'_append_eq_right, extractLsb'_append_middle _ _ _, ?_, ?_⟩
  · exact (BitVec.extractLsb'_append_eq_of_le (by decide)).trans (extractLsb'_append_middle _ _ _)
  · exact (BitVec.extractLsb'_append_eq_of_le (by decide)).trans
      ((BitVec.extractLsb'_append_eq_of_le (by decide)).trans BitVec.extractLsb'_append_eq_left)

/-- A word written to the window is read back lane by lane, and every other byte stays. -/
theorem read_writeBytes_wordBytes {m : Memory} (h : m.wf) (w : Nat) (d : Word) (k : Nat) :
    (m.writeBytes (4 * w) (wordBytes d)).read k =
      if k = 4 * w then d.extractLsb' 0 8
      else if k = 4 * w + 1 then d.extractLsb' 8 8
      else if k = 4 * w + 2 then d.extractLsb' 16 8
      else if k = 4 * w + 3 then d.extractLsb' 24 8
      else m.read k := by
  have hlane (i : Nat) (hi : i < 4) := Memory.read_writeBytes_in (wordBytes d) m (k := 4 * w) h.1 hi
  split_ifs with h0 h1 h2 h3
  · exact h0 ▸ hlane 0 (by decide)
  · exact h1 ▸ hlane 1 (by decide)
  · exact h2 ▸ hlane 2 (by decide)
  · exact h3 ▸ hlane 3 (by decide)
  · exact Memory.read_writeBytes_other _ _ (by simp only [wordBytes, List.length_cons, List.length_nil]; omega)

/-- The four bytes of a word of the window lie in the buffer. -/
theorem wordBytes_fit {w : Nat} (hw : w < 32) (d : Word) :
    4 * w + (wordBytes d).length ≤ Config.bufBytes := by
  simp only [wordBytes, List.length_cons, List.length_nil, Config.bufBytes]
  omega

/-! ### Host writes: what they do, and what all of them keep -/

theorem popped_eq {s : State} {e : Event} {es : List Event} (h : s.agenda = e :: es) :
    s.popped = { s with agenda := es } := by
  rw [State.popped, h, List.tail_cons]

/-- A `CMD` write with no command running: accepted unless there is a fault (rule R23). -/
theorem writeLocation_cmd (s : State) (d : Word) : s.writeLocation .cmd d =
    if s.status.err then none
    else some { s with cmd := d, status := { busy := true, done := false, err := false } } := by
  cases h : s.status.err <;> simp [State.writeLocation, State.startCommand, h]

theorem extractLsb'_low_byte (d : Word) : d.extractLsb' 0 8 = BitVec.ofNat 8 (d.toNat % 256) := by
  apply BitVec.eq_of_toNat_eq
  simp

/-- No host write reaches a limb or a header (rule R49). -/
theorem limbOffset_refuses (r : RegIdx) {k : Nat} (hk : k ≤ 32) (s : State) (d : Word) {l : Location}
    (hl : locate (limbOffset r k) = some l) : s.writeLocation l d = none := by
  rcases Nat.lt_or_eq_of_le hk with hk | rfl
  · rw [locate_limbOffset r hk, Option.some_inj] at hl
    exact hl ▸ rfl
  · rw [show limbOffset r 32 = hdrOffset r from rfl, locate_hdrOffset, Option.some_inj] at hl
    exact hl ▸ rfl

/-- No host write touches `FLAGS` or sets `ERR` (rules R54, R55). -/
theorem hostWrite_flags_err (a : Offset) (d : Word) (s : State) : (hostWrite a d s).flags = s.flags
    ∧ ((hostWrite a d s).status.err = true → s.status.err = true) := by
  rcases hostWrite_cases a d s with h | ⟨l, t, -, -, hw, h⟩
  · exact h ▸ ⟨rfl, id⟩
  · rw [h, State.answer_flags, State.answer_status]
    rcases writeLocation_cases hw with ⟨-, -, rfl⟩ | ⟨-, rfl⟩ | ⟨-, rfl⟩ | ⟨w, -, rfl⟩
    · exact ⟨rfl, id⟩
    · rw [clearStatus_eq]
      exact ⟨rfl, fun he => (Bool.and_eq_true_iff.mp he).1⟩
    · exact ⟨rfl, id⟩
    · exact ⟨rfl, id⟩

/-- A write that is not refused reached a location that the host may write (rule R55). -/
theorem writable_of_not_busError {a : Offset} {d : Word} {s : State}
    (h : (hostWrite a d s).answers ≠ .busError :: s.answers) : Writable a := by
  rcases hostWrite_cases a d s with hr | ⟨l, t, hl, -, hw, -⟩
  · exact absurd (congrArg State.answers hr) h
  · exact writable_of hl hw

end Sys2Proof.Machine
end

section
/-! The statements on the address map and the host's transactions (20_memory.md). -/

namespace Sys2Proof.Machine

/-- Settles O22: canonical form puts the magnitude in the limbs, and no limb or header takes a write. -/
theorem limbWindow : Obligations.LimbWindow := by
  intro s r es
  refine ⟨fun k hk hb h => ?_, fun hc => ⟨?_, fun n _ => BigInt.limbsValue_take_of_canonical hc n⟩,
    fun k d hk h => step_write_refused h fun l hl => Or.inr (limbOffset_refuses r hk _ d hl)⟩
  · have hlimb : s.wordAt (.limb r k) = (s.reg r).limbs[k] := by simp [State.wordAt, hk]
    rw [step_read h (locate_limbOffset r hk) (Or.inl hb), hlimb]
  · obtain ⟨-, -, -, hzero, -⟩ := (s.reg r).canonical_iff.mp hc
    exact hzero

/-- Settles O23: the header's fields are the properties of rule R17, and limb 0 gives the parity. -/
theorem headerWord : Obligations.HeaderWord := by
  intro s r es hc hb h
  obtain ⟨hlen1, hlen32, -⟩ := (s.reg r).canonical_iff.mp hc
  obtain ⟨hneg, hzero, hone, heven, hres⟩ := (s.reg r).header_fields
  refine ⟨_, step_read h (locate_hdrOffset r) (Or.inl hb), hneg, hzero, hone,
    heven.trans (BigInt.isEven_of_canonical hc), hres, ?_, hlen1, hlen32⟩
  rw [State.wordAt, BigInt.header_len, BitVec.toNat_ofNat, Nat.mod_eq_of_lt (by omega)]

/-- Settles O24: a window word is four lanes of the buffer, and a write puts back exactly these. -/
theorem bufferWindow : Obligations.BufferWindow := by
  intro s w es d hw hb hm
  refine ⟨fun h => ⟨_, step_read h (locate_bufwOffset hw) (Or.inl hb), bufWord_lanes s.buf w⟩,
    fun h => ?_⟩
  refine ⟨s.buf.writeBytes (4 * w) (wordBytes d), ?_, Memory.wf_writeBytes _ hm (wordBytes_fit hw d),
    read_writeBytes_wordBytes hm w d⟩
  rw [step_write h (locate_bufwOffset hw) hb rfl, popped_eq h]
  rfl

/-- Settles O25: an unmapped offset has no location, and a location that takes a write lies at a writable
offset. -/
theorem refusedTransactionsChangeNothing : Obligations.RefusedTransactionsChangeNothing := by
  intro s es a d
  refine ⟨fun h hr => step_read_refused h fun l hl => ?_, fun h hr => step_write_refused h fun l hl => ?_⟩
  · rcases hr with hmap | ⟨hb, h0, h4, h8, hC⟩
    · exact absurd ((mapped_iff a).mpr ⟨l, hl⟩) hmap
    · refine ⟨hb, Bool.eq_false_iff.mpr fun hread => ?_⟩
      rcases (readableWhileBusy_iff hl).mp hread with ha | ha | ha | ha
      · exact h0 ha
      · exact h4 ha
      · exact h8 ha
      · exact hC ha
  · rcases hr with hmap | hwr | hb
    · exact absurd ((mapped_iff a).mpr ⟨l, hl⟩) hmap
    · exact Or.inr (Option.eq_none_iff_forall_ne_some.mpr fun t ht => hwr (writable_of hl ht))
    · exact Or.inl hb

/-- Settles O26: the four registers answer as they always do (O21), and all else is refused (O25). -/
theorem busyCoreAnswers : Obligations.BusyCoreAnswers := by
  intro s es a hb
  refine ⟨fun h => ?_, fun d h => (refusedTransactionsChangeNothing s es a d).2 h (Or.inr (Or.inr hb))⟩
  obtain ⟨hcmd, hstatus, herrcode, hflags, -⟩ := controlRegisterReads s es a h
  split_ifs with h0 h4 h8 hC
  · exact hcmd h0
  · rw [hstatus h4, hb, Bool.toNat_true]
  · exact herrcode h8
  · exact hflags hC
  · exact (refusedTransactionsChangeNothing s es a 0).1 h (Or.inr ⟨hb, h0, h4, h8, hC⟩)

/-- Settles O27, location by location. -/
theorem hostAccessSideEffects : Obligations.HostAccessSideEffects := by
  intro s es a d
  refine ⟨fun h => ?_, fun h => ?_, fun h hb => ?_, fun h hb => ?_, fun w hw h hb => ?_⟩
  · obtain ⟨ans, hans⟩ := hostRead_answer a s.popped
    exact ⟨ans, by rw [step_cons h, takeEvent, hans, popped_answer h]⟩
  · split_ifs with hidle
    · obtain ⟨hb, he⟩ := hidle
      have hw := (writeLocation_cmd s.popped d).trans (if_neg (by simp [he]))
      rw [step_write h locate_cmd hb hw, popped_eq h]
      rfl
    · refine step_write_refused h fun l hl => ?_
      rw [locate_cmd, Option.some_inj] at hl
      rw [← hl, writeLocation_cmd]
      cases hb : s.status.busy with
      | true => exact Or.inl rfl
      | false => exact Or.inr (if_pos (by simpa [hb] using hidle))
  · rw [step_write h locate_status hb rfl, clearStatus_eq, popped_eq h, hb]
    rfl
  · rw [step_write h locate_buflen hb rfl, popped_eq h, extractLsb'_low_byte]
    rfl
  · rw [step_write h (locate_bufwOffset hw) hb rfl, popped_eq h]
    rfl

/-- Settles O28: a read only answers, and a write keeps registers and `FLAGS` whichever location it reaches. -/
theorem hostNeverWritesARegister : Obligations.HostNeverWritesARegister := by
  intro s t es e h hengine hreset ht
  cases e with
  | engine => exact absurd rfl hengine
  | reset => exact absurd rfl hreset
  | read a =>
    obtain ⟨ans, hans⟩ := (hostAccessSideEffects s es a 0).1 h
    rw [hans] at ht
    injection ht with ht
    subst ht
    refine ⟨rfl, rfl, id, nofun, ?_⟩
    rintro _ ⟨⟩ hmap hb
    obtain ⟨l, hl⟩ := (mapped_iff a).mp hmap
    rw [step_read h hl (Or.inl hb)] at hans
    injection hans with hans
    exact ⟨_, congrArg State.answers hans.symm⟩
  | write a d =>
    rw [step_cons h] at ht
    injection ht with ht
    subst ht
    obtain ⟨hflags, herr⟩ := hostWrite_flags_err a d s.popped
    refine ⟨hostWrite_regs a d s.popped, hflags, herr, ?_, nofun⟩
    rintro _ _ ⟨⟩ hans
    exact writable_of_not_busError hans

end Sys2Proof.Machine
end

section
/-! SUPPORT. Command words by their fields (rules R72 to R75): what the decoder reads of an encoded word,
and when a word is the encoder's. -/

namespace Sys2Proof

open BitVec

/-! ### The fields of an encoded word -/

/-- A field above the last part of a word is a field of the rest. -/
theorem extractLsb'_append_add {n m : Nat} (x : BitVec n) (y : BitVec m) (k l : Nat) :
    (x ++ y).extractLsb' (m + k) l = x.extractLsb' k l := by
  rw [extractLsb'_append_eq_of_le (Nat.le_add_right m k), Nat.add_sub_cancel_left]

section
variable (op : BitVec 8) (rd ra rb rc : RegIdx) (cv : BitVec 2) (imm : BitVec 16)

@[simp] theorem fieldCv_packFields : fieldCv (packFields op rd ra rb rc cv) = cv :=
  (extractLsb'_append_add _ _ 0 2).trans extractLsb'_append_eq_right

@[simp] theorem fieldRc_packFields : fieldRc (packFields op rd ra rb rc cv) = rc :=
  (extractLsb'_append_add _ _ 2 5).trans <| (extractLsb'_append_add _ _ 0 5).trans
    extractLsb'_append_eq_right

@[simp] theorem fieldRb_packFields : fieldRb (packFields op rd ra rb rc cv) = rb :=
  (extractLsb'_append_add _ _ 7 5).trans <| (extractLsb'_append_add _ _ 5 5).trans <|
    (extractLsb'_append_add _ _ 0 5).trans extractLsb'_append_eq_right

@[simp] theorem fieldRa_packFields : fieldRa (packFields op rd ra rb rc cv) = ra :=
  (extractLsb'_append_add _ _ 12 5).trans <| (extractLsb'_append_add _ _ 10 5).trans <|
    (extractLsb'_append_add _ _ 5 5).trans <| (extractLsb'_append_add _ _ 0 5).trans
    extractLsb'_append_eq_right

@[simp] theorem fieldRd_packFields : fieldRd (packFields op rd ra rb rc cv) = rd :=
  (extractLsb'_append_add _ _ 17 5).trans <| (extractLsb'_append_add _ _ 15 5).trans <|
    (extractLsb'_append_add _ _ 10 5).trans <| (extractLsb'_append_add _ _ 5 5).trans <|
    (extractLsb'_append_add _ _ 0 5).trans extractLsb'_append_eq_right

@[simp] theorem fieldSh_packFields : fieldSh (packFields op rd ra rb rc cv) = rb :=
  fieldRb_packFields op rd ra rb rc cv

/-- `sel` is the low part of the place of `rc` (rule R74). -/
@[simp] theorem fieldSel_packFields (sel : BitVec 3) :
    fieldSel (packFields op rd ra rb (0#2 ++ sel) cv) = sel :=
  (extractLsb'_append_add _ _ 2 3).trans <| (extractLsb'_append_add _ _ 0 3).trans <|
    (extractLsb'_append_eq_of_add_le (by decide)).trans extractLsb'_append_eq_right

@[simp] theorem fieldRd_encode_ldi : fieldRd (encode (.ldi rd imm)) = rd :=
  (extractLsb'_append_add _ _ 16 5).trans <| (extractLsb'_append_add _ _ 0 5).trans
    extractLsb'_append_eq_right

@[simp] theorem fieldImm16_encode_ldi : fieldImm16 (encode (.ldi rd imm)) = imm :=
  (extractLsb'_append_add _ _ 0 16).trans extractLsb'_append_eq_right

end

/-! ### A word is put together again from its fields -/

theorem packFields_of_fields {op : BitVec 8} {rd ra rb rc : RegIdx} {cv : BitVec 2} {w : Word}
    (hop : fieldOp w = op) (hd : fieldRd w = rd) (ha : fieldRa w = ra) (hb : fieldRb w = rb)
    (hc : fieldRc w = rc) (hv : fieldCv w = cv) (hz : w.extractLsb' 0 2 = 0#2) :
    packFields op rd ra rb rc cv = w := by
  simp only [packFields, ← hop, ← hd, ← ha, ← hb, ← hc, ← hv, ← hz, fieldOp, fieldRd, fieldRa, fieldRb,
    fieldRc, fieldCv]
  iterate 6 rw [extractLsb'_append_extractLsb'_eq_extractLsb' (by rfl)]
  exact extractLsb'_eq_self

theorem encode_ldi_of_fields {rd : RegIdx} {imm : BitVec 16} {w : Word} (hop : fieldOp w = 0x01#8)
    (hd : fieldRd w = rd) (hi : fieldImm16 w = imm) (hz : w.extractLsb' 0 3 = 0#3) :
    encode (.ldi rd imm) = w := by
  simp only [encode, ← hop, ← hd, ← hi, ← hz, fieldOp, fieldRd, fieldImm16]
  iterate 3 rw [extractLsb'_append_extractLsb'_eq_extractLsb' (by rfl)]
  exact extractLsb'_eq_self

/-- A field that lies in the must-be-zero bits of a word without such a bit set is zero. -/
theorem unused_field {w mbz : Word} {k n : Nat} (hz : w &&& mbz = 0)
    (hm : mbz.extractLsb' k n = allOnes n := by rfl) : w.extractLsb' k n = 0#n := by
  rw [← and_allOnes (x := w.extractLsb' k n), ← hm, ← extractLsb'_and, hz]
  exact extractLsb'_zero

/-- A field that a mask covers is not touched by it. -/
theorem extractLsb'_and_of_covered {w m : Word} {k n : Nat} (hm : m.extractLsb' k n = allOnes n) :
    (w &&& m).extractLsb' k n = w.extractLsb' k n := by
  rw [extractLsb'_and, hm, and_allOnes]

/-- A word is its opcode and its low 24 bits. -/
theorem eq_of_fieldOp_low {v w : Word} (hop : fieldOp v = fieldOp w)
    (hlow : v &&& 0x00FFFFFF = w &&& 0x00FFFFFF) : v = w := by
  have hl : v.extractLsb' 0 24 = w.extractLsb' 0 24 := by
    rw [← extractLsb'_and_of_covered (w := v) (m := 0x00FFFFFF) rfl, hlow, extractLsb'_and_of_covered rfl]
  calc v = fieldOp v ++ v.extractLsb' 0 24 := (extractLsb'_append_extractLsb' (w := 8) (len := 24)).symm
    _ = fieldOp w ++ w.extractLsb' 0 24 := by rw [hop, hl]
    _ = w := extractLsb'_append_extractLsb' (w := 8) (len := 24)

/-! ### The scheme and the constant fields (rules R27, R74, R79) -/

@[simp] theorem schemeOf_bits (cv : Scheme) : schemeOf cv.bits = some cv := by cases cv <;> rfl

@[simp] theorem constOf_bits (sel : CurveConst) : constOf sel.bits = some sel := by cases sel <;> rfl

theorem bits_of_schemeOf : ∀ c cv, schemeOf c = some cv → c = cv.bits := by
  intro c cv
  cases cv <;> revert c <;> decide

theorem bits_of_constOf : ∀ c sel, constOf c = some sel → c = sel.bits := by
  intro c sel
  cases sel <;> revert c <;> decide

theorem schemeOf_eq_none_iff : ∀ c : BitVec 2, schemeOf c = none ↔ 2 ≤ c.toNat := by decide

/-! ### The steps of decoding: when each lets a word through (rules R76, R77, R79) -/

theorem checkZero_of_zero {mbz w : Word} (h : w &&& mbz = 0) (v : Verdict) : checkZero mbz w v = v :=
  if_pos h

theorem checkZero_of_ne {mbz w : Word} (h : w &&& mbz ≠ 0) (v : Verdict) :
    checkZero mbz w v = .illegal .reservedBits :=
  if_neg h

theorem checkZero_eq_command {mbz w : Word} {v : Verdict} {j : Instr} (h : checkZero mbz w v = .command j) :
    w &&& mbz = 0 ∧ v = .command j := by
  unfold checkZero at h
  split at h
  · next hz => exact ⟨hz, h⟩
  · cases h

theorem checkZero_ne_unsupportedScheme {mbz w : Word} {v : Verdict} (h : v ≠ .unsupportedScheme) :
    checkZero mbz w v ≠ .unsupportedScheme := by
  unfold checkZero
  split
  · exact h
  · nofun

theorem checkBases_eq_command {ok : Bool} {v : Verdict} {j : Instr} (h : checkBases ok v = .command j) :
    ok = true ∧ v = .command j := by
  unfold checkBases at h
  split at h
  · next hok => exact ⟨hok, h⟩
  · cases h

theorem withScheme_of_bits {w : Word} {cv : Scheme} (h : fieldCv w = cv.bits) (k : Scheme → Instr) :
    withScheme w k = .command (k cv) := by
  rw [withScheme, h, schemeOf_bits]

theorem withScheme_eq_command {w : Word} {k : Scheme → Instr} {j : Instr}
    (h : withScheme w k = .command j) : ∃ cv : Scheme, fieldCv w = cv.bits ∧ k cv = j := by
  unfold withScheme at h
  split at h
  · next cv hcv => exact ⟨cv, bits_of_schemeOf _ _ hcv, Verdict.command.inj h⟩
  · cases h

theorem withScheme_eq_unsupportedScheme_iff (w : Word) (k : Scheme → Instr) :
    withScheme w k = .unsupportedScheme ↔ 2 ≤ (fieldCv w).toNat := by
  rw [← schemeOf_eq_none_iff, withScheme]
  cases schemeOf (fieldCv w) <;> simp

end Sys2Proof
end

section
/-! SUPPORT. The decoder, one arm per command (rule R80): the opcode selects the arm, the arm's must-be-zero
bits are checked, and then the operands. -/

namespace Sys2Proof

/-- The opcode of a command's row (rule R75). -/
def Instr.opcode (i : Instr) : BitVec 8 := fieldOp i.row.value

/-- The must-be-zero bits of a command's row (rule R77). -/
def Instr.mbz (i : Instr) : Word := i.row.mask &&& 0x00FFFFFF

/-- The verdict on a word with the opcode of this command and no must-be-zero bit set: what is left to look
at are the operand fields (rules R74, R76, R79). The command's own operands play no part. -/
def Instr.operandVerdict (i : Instr) (w : Word) : Verdict :=
  let rd := fieldRd w
  let ra := fieldRa w
  let rb := fieldRb w
  let rc := fieldRc w
  match i with
  | .ldi _ _ => .command (.ldi rd (fieldImm16 w))
  | .ldbe _ => .command (.ldbe rd)
  | .stbe _ => .command (.stbe ra)
  | .mov _ _ => .command (.mov rd ra)
  | .ldc _ _ _ => decodeLdc w
  | .add _ _ _ => .command (.add rd ra rb)
  | .sub _ _ _ => .command (.sub rd ra rb)
  | .mul _ _ _ => .command (.mul rd ra rb)
  | .cmp _ _ => .command (.cmp ra rb)
  | .lsh _ _ _ => .command (.lsh rd ra (fieldSh w))
  | .rsh _ _ _ => .command (.rsh rd ra (fieldSh w))
  | .div _ _ _ => .command (.div rd ra rb)
  | .mod _ _ _ => .command (.mod rd ra rb)
  | .inv _ _ _ => .command (.inv rd ra rb)
  | .mulmod _ _ _ _ => .command (.mulmod rd ra rb rc)
  | .modp _ _ _ => withScheme w (.modp rd ra)
  | .jdbl _ _ _ => checkBases (jacobianBase rd && jacobianBase ra) (withScheme w (.jdbl rd ra))
  | .jadd _ _ _ _ =>
    checkBases (jacobianBase rd && jacobianBase ra && jacobianBase rb) (withScheme w (.jadd rd ra rb))
  | .jmul _ _ _ _ => checkBases (jacobianBase rd && jacobianBase ra) (withScheme w (.jmul rd ra rb))
  | .fromj _ _ _ => checkBases (affineBase rd && jacobianBase ra) (withScheme w (.fromj rd ra))
  | .pmul _ _ _ _ => checkBases (affineBase rd && affineBase ra) (withScheme w (.pmul rd ra rb))
  | .padd _ _ _ _ =>
    checkBases (affineBase rd && affineBase ra && affineBase rb) (withScheme w (.padd rd ra rb))
  | .pdbl _ _ _ => checkBases (affineBase rd && affineBase ra) (withScheme w (.pdbl rd ra))
  | .pmulti _ _ _ _ => checkBases (affineBase rd && affineBase ra) (withScheme w (.pmulti rd ra rb))
  | .shamir _ _ _ _ _ => checkBases (affineBase rd && affineBase rc) (withScheme w (.shamir rd ra rb rc))

/-- One command of each constructor, in the order of the opcodes. -/
def oneOfEach : List Instr :=
  [.ldi 0 0, .ldbe 0, .stbe 0, .mov 0 0, .ldc 0 .p256 .a, .add 0 0 0, .sub 0 0 0, .mul 0 0 0, .cmp 0 0,
    .lsh 0 0 0, .rsh 0 0 0, .div 0 0 0, .mod 0 0 0, .inv 0 0 0, .mulmod 0 0 0 0, .modp 0 0 .p256,
    .jdbl 0 0 .p256, .jadd 0 0 0 .p256, .jmul 0 0 0 .p256, .fromj 0 0 .p256, .pmul 0 0 0 .p256,
    .padd 0 0 0 .p256, .pdbl 0 0 .p256, .pmulti 0 0 0 .p256, .shamir 0 0 0 0 .p256]

/-- Every opcode of rule R75 is that of a command. -/
theorem exists_opcode {op : BitVec 8} (h : op ∈ Machine.commandOpcodes) : ∃ i : Instr, i.opcode = op := by
  rw [show Machine.commandOpcodes = oneOfEach.map Instr.opcode by decide, List.mem_map] at h
  obtain ⟨i, -, hi⟩ := h
  exact ⟨i, hi⟩

/-- The opcode selects the decoder's arm. -/
theorem decode_of_opcode {i : Instr} {w : Word} (h : fieldOp w = i.opcode) :
    decode w = checkZero i.mbz w (i.operandVerdict w) := by
  cases i <;> (rw [decode, h, Instr.opcode, Instr.mbz, Instr.row]; rfl)

theorem eq_ofNat_of_toNat_eq {n k : Nat} {x : BitVec n} (h : x.toNat = k) : x = BitVec.ofNat n k := by
  rw [← h, BitVec.ofNat_toNat, BitVec.setWidth_eq]

/-- A reserved opcode is illegal (rule R78). -/
theorem decode_of_reserved {w : Word} (h : fieldOp w ∉ Machine.commandOpcodes) :
    decode w = .illegal .reservedOpcode := by
  unfold decode
  split
  case h_26 => rfl
  all_goals
    next hop =>
      rw [eq_ofNat_of_toNat_eq hop] at h
      exact absurd (by decide) h

/-- A word is reserved, or one arm decides on it. -/
theorem decode_cases (w : Word) : (fieldOp w ∉ Machine.commandOpcodes ∧ decode w = .illegal .reservedOpcode)
    ∨ ∃ i : Instr, fieldOp w = i.opcode ∧ decode w = checkZero i.mbz w (i.operandVerdict w) := by
  by_cases h : fieldOp w ∈ Machine.commandOpcodes
  · obtain ⟨i, hi⟩ := exists_opcode h
    exact Or.inr ⟨i, hi.symm, decode_of_opcode hi.symm⟩
  · exact Or.inl ⟨h, decode_of_reserved h⟩

/-! ### The encoder's word passes the first two checks -/

theorem encodesItsRow : ∀ i : Instr, Laws.EncodesItsRow.Statement i
  | .ldi rd imm => Laws.EncodesItsRow.ldi rd imm
  | .ldbe rd => Laws.EncodesItsRow.ldbe rd
  | .stbe ra => Laws.EncodesItsRow.stbe ra
  | .mov rd ra => Laws.EncodesItsRow.mov rd ra
  | .ldc rd cv sel => Laws.EncodesItsRow.ldc rd cv sel
  | .add rd ra rb => Laws.EncodesItsRow.add rd ra rb
  | .sub rd ra rb => Laws.EncodesItsRow.sub rd ra rb
  | .mul rd ra rb => Laws.EncodesItsRow.mul rd ra rb
  | .cmp ra rb => Laws.EncodesItsRow.cmp ra rb
  | .lsh rd ra sh => Laws.EncodesItsRow.lsh rd ra sh
  | .rsh rd ra sh => Laws.EncodesItsRow.rsh rd ra sh
  | .div rd ra rb => Laws.EncodesItsRow.div rd ra rb
  | .mod rd ra rb => Laws.EncodesItsRow.mod rd ra rb
  | .inv rd ra rb => Laws.EncodesItsRow.inv rd ra rb
  | .mulmod rd ra rb rc => Laws.EncodesItsRow.mulmod rd ra rb rc
  | .modp rd ra cv => Laws.EncodesItsRow.modp rd ra cv
  | .jdbl rd ra cv => Laws.EncodesItsRow.jdbl rd ra cv
  | .jadd rd ra rb cv => Laws.EncodesItsRow.jadd rd ra rb cv
  | .jmul rd ra rb cv => Laws.EncodesItsRow.jmul rd ra rb cv
  | .fromj rd ra cv => Laws.EncodesItsRow.fromj rd ra cv
  | .pmul rd ra rb cv => Laws.EncodesItsRow.pmul rd ra rb cv
  | .padd rd ra rb cv => Laws.EncodesItsRow.padd rd ra rb cv
  | .pdbl rd ra cv => Laws.EncodesItsRow.pdbl rd ra cv
  | .pmulti rd ra rb cv => Laws.EncodesItsRow.pmulti rd ra rb cv
  | .shamir rd ra rb rc cv => Laws.EncodesItsRow.shamir rd ra rb rc cv

theorem fieldOp_row_mask (i : Instr) : fieldOp i.row.mask = BitVec.allOnes 8 := by
  cases i <;> (rw [Instr.row]; rfl)

theorem row_value_low (i : Instr) : i.row.value &&& 0x00FFFFFF = 0 := by
  cases i <;> (rw [Instr.row]; rfl)

theorem fieldOp_encode (i : Instr) : fieldOp (encode i) = i.opcode :=
  (extractLsb'_and_of_covered (fieldOp_row_mask i)).symm.trans (congrArg fieldOp (encodesItsRow i))

theorem encode_and_mbz (i : Instr) : encode i &&& i.mbz = 0 := by
  rw [Instr.mbz, ← BitVec.and_assoc, encodesItsRow i, row_value_low]

/-- A word with the row's opcode that disagrees with the row has a must-be-zero bit set (rule R77). -/
theorem and_mbz_ne_zero {i : Instr} {w : Word} (hop : fieldOp w = i.opcode)
    (hne : w &&& i.row.mask ≠ i.row.value) : w &&& i.mbz ≠ 0 := by
  intro hz
  refine hne (eq_of_fieldOp_low ?_ ?_)
  · exact (extractLsb'_and_of_covered (fieldOp_row_mask i)).trans hop
  · rw [BitVec.and_assoc, row_value_low]
    exact hz

/-! ### Decoding an encoded command -/

theorem operandVerdict_encode (i : Instr) :
    i.operandVerdict (encode i) = checkBases i.wellFormed (.command i) := by
  cases i with
  | ldi rd imm => simp [Instr.operandVerdict, Instr.wellFormed, checkBases]
  | ldc rd cv sel => simp [Instr.operandVerdict, Instr.wellFormed, checkBases, decodeLdc, withScheme, encode]
  | _ => simp [Instr.operandVerdict, Instr.wellFormed, checkBases, withScheme, encode]

/-- The encoder's word decodes to its command, unless a point base is out of range (rules R72 to R76). -/
theorem decode_encode (i : Instr) : decode (encode i) = checkBases i.wellFormed (.command i) := by
  rw [decode_of_opcode (fieldOp_encode i), checkZero_of_zero (encode_and_mbz i), operandVerdict_encode]

end Sys2Proof
end

section
/-! SUPPORT. Encoding a decoded command (rules R77, R80): the fields that a command's format uses are the
word's own, and the others are zero. -/

namespace Sys2Proof

/-- The word is the encoding of this command, and the command is well formed. -/
def IsWordOf (w : Word) (i : Instr) : Prop := encode i = w ∧ i.wellFormed = true

/-- An arm that looks at nothing but the fields. -/
theorem isWordOf_of_command {w : Word} {k j : Instr} (h : Verdict.command k = .command j)
    (he : encode k = w) (hk : k.wellFormed = true) : IsWordOf w j :=
  Verdict.command.inj h ▸ ⟨he, hk⟩

/-- An arm that checks point bases, then the scheme. -/
theorem isWordOf_of_withScheme {w : Word} {ok : Bool} {k : Scheme → Instr} {j : Instr}
    (h : checkBases ok (withScheme w k) = .command j)
    (he : ∀ cv : Scheme, fieldCv w = cv.bits → encode (k cv) = w) (hk : ∀ cv, (k cv).wellFormed = ok) :
    IsWordOf w j := by
  obtain ⟨hok, h⟩ := checkBases_eq_command h
  obtain ⟨cv, hcv, rfl⟩ := withScheme_eq_command h
  exact ⟨he cv hcv, (hk cv).trans hok⟩

theorem decodeLdc_eq_command {w : Word} {j : Instr} (h : decodeLdc w = .command j) :
    ∃ sel : CurveConst, fieldSel w = sel.bits
      ∧ withScheme w (fun cv => .ldc (fieldRd w) cv sel) = .command j := by
  unfold decodeLdc at h
  split at h
  · next sel hs => exact ⟨sel, bits_of_constOf _ _ hs, h⟩
  · cases h

/-- `sel` and the two bits above it fill the place of `rc` (rule R74). -/
theorem fieldRc_of_fieldSel {w : Word} {sel : BitVec 3} (hs : fieldSel w = sel)
    (hz : w.extractLsb' 7 2 = 0#2) : fieldRc w = 0#2 ++ sel := by
  rw [← hz, ← hs]
  exact (BitVec.extractLsb'_append_extractLsb'_eq_extractLsb' (start₁ := 4) (len₁ := 3) rfl).symm

/-- Arm by arm: a field that the format uses is the word's by definition, and any other lies in the
must-be-zero bits. -/
theorem isWordOf_of_operandVerdict {i j : Instr} {w : Word} (hop : fieldOp w = i.opcode)
    (hz : w &&& i.mbz = 0) (h : i.operandVerdict w = .command j) : IsWordOf w j := by
  cases i with (rw [Instr.opcode, Instr.row] at hop; rw [Instr.mbz, Instr.row] at hz)
  | ldi => exact isWordOf_of_command h (encode_ldi_of_fields hop rfl rfl (unused_field hz)) rfl
  | ldbe =>
    exact isWordOf_of_command h (packFields_of_fields hop rfl (unused_field hz) (unused_field hz)
      (unused_field hz) (unused_field hz) (unused_field hz)) rfl
  | stbe =>
    exact isWordOf_of_command h (packFields_of_fields hop (unused_field hz) rfl (unused_field hz)
      (unused_field hz) (unused_field hz) (unused_field hz)) rfl
  | mov =>
    exact isWordOf_of_command h (packFields_of_fields hop rfl rfl (unused_field hz) (unused_field hz)
      (unused_field hz) (unused_field hz)) rfl
  | add | sub | mul | lsh | rsh | div | mod | inv =>
    exact isWordOf_of_command h (packFields_of_fields hop rfl rfl rfl (unused_field hz) (unused_field hz)
      (unused_field hz)) rfl
  | cmp =>
    exact isWordOf_of_command h (packFields_of_fields hop (unused_field hz) rfl rfl (unused_field hz)
      (unused_field hz) (unused_field hz)) rfl
  | mulmod =>
    exact isWordOf_of_command h (packFields_of_fields hop rfl rfl rfl rfl (unused_field hz)
      (unused_field hz)) rfl
  | ldc =>
    obtain ⟨sel, hs, h⟩ := decodeLdc_eq_command h
    exact isWordOf_of_withScheme (ok := true) h (fun _ hcv => packFields_of_fields hop rfl
      (unused_field hz) (unused_field hz) (fieldRc_of_fieldSel hs (unused_field hz)) hcv (unused_field hz))
      fun _ => rfl
  | modp =>
    exact isWordOf_of_withScheme (ok := true) h (fun _ hcv => packFields_of_fields hop rfl rfl
      (unused_field hz) (unused_field hz) hcv (unused_field hz)) fun _ => rfl
  | jdbl | fromj | pdbl =>
    exact isWordOf_of_withScheme h (fun _ hcv => packFields_of_fields hop rfl rfl (unused_field hz)
      (unused_field hz) hcv (unused_field hz)) fun _ => rfl
  | jadd | jmul | pmul | padd | pmulti =>
    exact isWordOf_of_withScheme h (fun _ hcv => packFields_of_fields hop rfl rfl rfl (unused_field hz) hcv
      (unused_field hz)) fun _ => rfl
  | shamir =>
    exact isWordOf_of_withScheme h (fun _ hcv => packFields_of_fields hop rfl rfl rfl rfl hcv
      (unused_field hz)) fun _ => rfl

/-- A word that decodes to a command is the encoder's word for it (rules R77, R80). -/
theorem isWordOf_of_decode {w : Word} {j : Instr} (h : decode w = .command j) : IsWordOf w j := by
  rcases decode_cases w with ⟨-, hd⟩ | ⟨i, hop, hd⟩
  · rw [hd] at h
    cases h
  · obtain ⟨hz, hv⟩ := checkZero_eq_command (hd.symm.trans h)
    exact isWordOf_of_operandVerdict hop hz hv

end Sys2Proof
end

section
/-! SUPPORT. What the decoder says of a word and of the same word with `cv = 0` (rule R79): the scheme is
looked at last, so every earlier verdict is the same. -/

namespace Sys2Proof

/-- The word with `cv = 0`. -/
def clearCv (w : Word) : Word := w &&& 0xFFFFFFF3

@[simp] theorem fieldOp_clearCv (w : Word) : fieldOp (clearCv w) = fieldOp w :=
  extractLsb'_and_of_covered rfl
@[simp] theorem fieldRd_clearCv (w : Word) : fieldRd (clearCv w) = fieldRd w :=
  extractLsb'_and_of_covered rfl
@[simp] theorem fieldRa_clearCv (w : Word) : fieldRa (clearCv w) = fieldRa w :=
  extractLsb'_and_of_covered rfl
@[simp] theorem fieldRb_clearCv (w : Word) : fieldRb (clearCv w) = fieldRb w :=
  extractLsb'_and_of_covered rfl
@[simp] theorem fieldRc_clearCv (w : Word) : fieldRc (clearCv w) = fieldRc w :=
  extractLsb'_and_of_covered rfl
@[simp] theorem fieldSel_clearCv (w : Word) : fieldSel (clearCv w) = fieldSel w :=
  extractLsb'_and_of_covered rfl

theorem fieldCv_clearCv (w : Word) : fieldCv (clearCv w) = Scheme.bits .p256 := by
  rw [fieldCv, clearCv, BitVec.extractLsb'_and]
  exact BitVec.and_zero

/-- Both verdicts are the same *illegal*, or both come down to the scheme of the word at hand. -/
def DifferByScheme (w : Word) (v v₀ : Verdict) : Prop :=
  (∃ why, v = .illegal why ∧ v₀ = .illegal why)
  ∨ ∃ k : Scheme → Instr, (∀ cv, (k cv).usesScheme = true)
      ∧ v = withScheme w k ∧ v₀ = withScheme (clearCv w) k

theorem DifferByScheme.of_illegal (w : Word) (why : Illegal) :
    DifferByScheme w (.illegal why) (.illegal why) :=
  Or.inl ⟨why, rfl, rfl⟩

theorem DifferByScheme.of_withScheme (w : Word) {k : Scheme → Instr} (hk : ∀ cv, (k cv).usesScheme = true) :
    DifferByScheme w (withScheme w k) (withScheme (clearCv w) k) :=
  Or.inr ⟨k, hk, rfl, rfl⟩

theorem DifferByScheme.checkBases {w : Word} {v v₀ : Verdict} (h : DifferByScheme w v v₀) (ok : Bool) :
    DifferByScheme w (checkBases ok v) (checkBases ok v₀) := by
  cases ok with
  | true => exact h
  | false => exact .of_illegal w .pointBase

theorem DifferByScheme.checkZero {w mbz : Word} {v v₀ : Verdict} (h : DifferByScheme w v v₀)
    (hm : clearCv mbz = mbz) : DifferByScheme w (checkZero mbz w v) (checkZero mbz (clearCv w) v₀) := by
  have hw : clearCv w &&& mbz = w &&& mbz := by
    rw [clearCv, BitVec.and_assoc, BitVec.and_comm 0xFFFFFFF3, ← clearCv, hm]
  by_cases hz : w &&& mbz = 0
  · rwa [checkZero_of_zero hz, checkZero_of_zero (hw.trans hz)]
  · rw [checkZero_of_ne hz, checkZero_of_ne (hw ▸ hz)]
    exact .of_illegal w .reservedBits

/-- The verdict is UNSUPPORTED_SCHEME exactly if `cv` is 2 or 3 and `cv = 0` gives a command with a scheme. -/
theorem DifferByScheme.unsupportedScheme_iff {w : Word} {v v₀ : Verdict} (h : DifferByScheme w v v₀) :
    v = .unsupportedScheme ↔ 2 ≤ (fieldCv w).toNat ∧ ∃ i, v₀ = .command i ∧ i.usesScheme = true := by
  rcases h with ⟨why, rfl, rfl⟩ | ⟨k, hk, rfl, rfl⟩
  · simp
  · rw [withScheme_eq_unsupportedScheme_iff, withScheme_of_bits (fieldCv_clearCv w)]
    exact (and_iff_left ⟨_, rfl, hk _⟩).symm

/-! ### The arms -/

theorem clearCv_mbz {i : Instr} (h : i.usesScheme = true) : clearCv i.mbz = i.mbz := by
  cases i with
  | ldc | modp | jdbl | jadd | jmul | fromj | pmul | padd | pdbl | pmulti | shamir =>
    rw [Instr.mbz, Instr.row]
    rfl
  | _ => cases h

/-- An arm whose format has no `cv` ends in a command without a scheme. -/
theorem operandVerdict_of_not_usesScheme {i : Instr} (h : i.usesScheme = false) (w : Word) :
    ∃ j : Instr, i.operandVerdict w = .command j ∧ j.usesScheme = false := by
  cases i with
  | ldi | ldbe | stbe | mov | add | sub | mul | cmp | lsh | rsh | div | mod | inv | mulmod =>
    exact ⟨_, rfl, rfl⟩
  | _ => cases h

/-- An arm whose format has `cv` looks at it last. -/
theorem operandVerdict_of_usesScheme {i : Instr} (h : i.usesScheme = true) (w : Word) :
    DifferByScheme w (i.operandVerdict w) (i.operandVerdict (clearCv w)) := by
  cases i with (simp only [Instr.operandVerdict, fieldRd_clearCv, fieldRa_clearCv, fieldRb_clearCv,
    fieldRc_clearCv])
  | ldc =>
    simp only [decodeLdc, fieldSel_clearCv, fieldRd_clearCv]
    cases constOf (fieldSel w) with
    | none => exact .of_illegal w .constSelector
    | some sel => exact .of_withScheme w fun _ => rfl
  | modp => exact .of_withScheme w fun _ => rfl
  | jdbl | jadd | jmul | fromj | pmul | padd | pdbl | pmulti | shamir =>
    exact (DifferByScheme.of_withScheme w fun _ => rfl).checkBases _
  | _ => cases h

/-- A word is UNSUPPORTED_SCHEME exactly if its `cv` is 2 or 3 and `cv = 0` makes it a command with a scheme
(rule R79). -/
theorem decode_eq_unsupportedScheme_iff (w : Word) : decode w = .unsupportedScheme ↔
    2 ≤ (fieldCv w).toNat ∧ ∃ i, decode (clearCv w) = .command i ∧ i.usesScheme = true := by
  rcases decode_cases w with ⟨hop, hd⟩ | ⟨i, hop, hd⟩
  · rw [hd, decode_of_reserved (w := clearCv w) (by rwa [fieldOp_clearCv])]
    exact (DifferByScheme.of_illegal w .reservedOpcode).unsupportedScheme_iff
  · rw [hd, decode_of_opcode (i := i) (w := clearCv w) (by rwa [fieldOp_clearCv])]
    cases hu : i.usesScheme with
    | true =>
      exact ((operandVerdict_of_usesScheme hu w).checkZero (clearCv_mbz hu)).unsupportedScheme_iff
    | false =>
      obtain ⟨j, hj, -⟩ := operandVerdict_of_not_usesScheme hu w
      obtain ⟨j₀, hj₀, hu₀⟩ := operandVerdict_of_not_usesScheme hu (clearCv w)
      rw [hj, hj₀]
      refine iff_of_false (checkZero_ne_unsupportedScheme nofun) ?_
      rintro ⟨-, k, hk, hku⟩
      obtain ⟨-, hk⟩ := checkZero_eq_command hk
      rw [← Verdict.command.inj hk, hu₀] at hku
      cases hku

end Sys2Proof
end

section
/-! The statements on the encoding (30_encoding.md). -/

namespace Sys2Proof.Machine

/-- Settles O1: a well-formed command passes the base check, the one thing that can stop its own word. -/
theorem decodeOfEncode : Obligations.DecodeOfEncode := by
  intro i hi
  rw [decode_encode, hi]
  rfl

/-- Settles O2, arm by arm of the decoder. -/
theorem encodeOfDecode : Obligations.EncodeOfDecode := fun _ _ h => isWordOf_of_decode h

/-- Settles O3. -/
theorem specWordsDecode : Obligations.SpecWordsDecode :=
  ⟨by decide, decode_ldbe, decode_stbe, decode_mov, by decide, decode_ldc, decode_add, decode_cmp, decode_lsh,
    decode_mulmod, decode_modp, decode_jdbl, decode_jmul, decode_fromj, by decide⟩

/-- Settles O8. -/
theorem stepRunsDecodedInstruction : Obligations.StepRunsDecodedInstruction := by
  intro s hn
  refine ⟨fun i hb hd => ?_, fun hb => ?_⟩
  · rw [step_engine hn, engineTurn, State.popped_status, if_pos hb, engineStep, State.popped_cmd, hd]
  · rw [step_engine hn, engineTurn, State.popped_status, hb]
    rfl

/-- Settles O9. -/
theorem stepRaisesDecodingFaults : Obligations.StepRaisesDecodingFaults := by
  intro s hn hb
  rw [step_engine hn, engineTurn, State.popped_status, if_pos hb, engineStep, State.popped_cmd]
  refine ⟨fun why hd => ?_, fun hd => ?_⟩
  · rw [hd, raise_eq]
    rfl
  · rw [hd, raise_eq]
    rfl

/-- Settles O4: the accepted write is O27's, and no arm of the decoder takes the word. -/
theorem reservedOpcodeFaults : Obligations.ReservedOpcodeFaults := by
  intro s w es hop hb he h
  have hw := (hostAccessSideEffects s (.engine :: es) 0 w).2.1 h
  rw [if_pos ⟨hb, he⟩] at hw
  exact ⟨_, hw, rfl, rfl, rfl,
    (stepRaisesDecodingFaults _ (Or.inr ⟨es, rfl⟩) rfl).1 _ (decode_of_reserved hop)⟩

/-- Settles O5: the arm that the opcode selects checks the row's must-be-zero bits before anything else. -/
theorem mustBeZeroBitsFault : Obligations.MustBeZeroBitsFault := by
  intro i s es hb h hop hne
  refine (stepRaisesDecodingFaults s (Or.inr ⟨es, h⟩) hb).1 .reservedBits ?_
  rw [decode_of_opcode hop, checkZero_of_ne (and_mbz_ne_zero hop hne)]

/-- Settles O6: the scheme is looked at last, after everything that can make a word illegal. -/
theorem unsupportedSchemeOnlyWhenLegal : Obligations.UnsupportedSchemeOnlyWhenLegal :=
  ⟨decode_eq_unsupportedScheme_iff, fun s es hb h => (stepRaisesDecodingFaults s (Or.inr ⟨es, h⟩) hb).2⟩

/-- Settles O7: what can stop an encoded command is its point bases, each against its own limit. -/
theorem pointBaseLimits : Obligations.PointBaseLimits := by
  refine ⟨fun rd ra rb rc cv => ?_,
    fun s es hb h => (stepRaisesDecodingFaults s (Or.inr ⟨es, h⟩) hb).1 .pointBase⟩
  simp only [decode_encode, checkBases, Instr.wellFormed, jacobianBase, affineBase, Bool.and_eq_true,
    decide_eq_true_eq, and_assoc, and_self]

end Sys2Proof.Machine
end

section
/-! SUPPORT. The command words as the statements write them, field after field, are words of the encoder
(rules R72, R73): zero fields side by side are one. -/

namespace Sys2Proof

open BitVec

/-- Zero bits side by side. -/
theorem append_zero_append_zero {n : Nat} (x : BitVec n) (j k : Nat) :
    x ++ 0#j ++ 0#k = (x ++ 0#(j + k)).cast (Nat.add_assoc n j k).symm := by
  rw [BitVec.append_assoc, BitVec.zero_append_zero]

/-! ### The words of each format (rule R73) -/

section
variable (op : BitVec 8) (rd ra rb rc : RegIdx) (sel : BitVec 3) (cv : BitVec 2)

theorem packFields_format_R4 : packFields op rd ra rb rc 0 = op ++ rd ++ ra ++ rb ++ rc ++ 0#4 :=
  append_zero_append_zero _ 2 2

theorem packFields_format_R3 : packFields op rd ra rb 0 0 = op ++ rd ++ ra ++ rb ++ 0#9 :=
  (packFields_format_R4 op rd ra rb 0).trans (append_zero_append_zero _ 5 4)

theorem packFields_format_R2 : packFields op rd ra 0 0 0 = op ++ rd ++ ra ++ 0#14 :=
  (packFields_format_R3 op rd ra 0).trans (append_zero_append_zero _ 5 9)

theorem packFields_format_R1D : packFields op rd 0 0 0 0 = op ++ rd ++ 0#19 :=
  (packFields_format_R2 op rd 0).trans (append_zero_append_zero _ 5 14)

theorem packFields_format_C1 :
    packFields op rd 0 0 (0#2 ++ sel) cv = op ++ rd ++ 0#12 ++ sel ++ cv ++ 0#2 := by
  have hz : op ++ rd ++ 0#5 ++ 0#5 ++ 0#2 = op ++ rd ++ 0#12 :=
    (append_zero_append_zero _ 5 2).trans (append_zero_append_zero _ 5 7)
  have hs : op ++ rd ++ 0#5 ++ 0#5 ++ (0#2 ++ sel) = op ++ rd ++ 0#12 ++ sel :=
    (append_assoc (x₁ := op ++ rd ++ 0#5 ++ 0#5) (x₂ := 0#2) (x₃ := sel)).symm.trans
      (congrArg (· ++ sel) hz)
  exact congrArg (· ++ cv ++ 0#2) hs

end

/-! ### What a word decodes to -/

/-- A well-formed command's word decodes to it (rules R72 to R76). -/
theorem decode_of_encode_eq {i : Instr} {w : Word} (hi : i.wellFormed = true) (h : encode i = w) :
    decode w = .command i := by
  rw [← h, decode_encode, hi]
  rfl

/-- A word that matches a command's row: what is left to look at are the operand fields (rule R77). -/
theorem decode_of_row {i : Instr} {w : Word} (h : w &&& i.row.mask = i.row.value) :
    decode w = i.operandVerdict w := by
  have hop : fieldOp w = i.opcode :=
    (extractLsb'_and_of_covered (fieldOp_row_mask i)).symm.trans (congrArg fieldOp h)
  have hz : w &&& i.mbz = 0 := by rw [Instr.mbz, ← BitVec.and_assoc, h, row_value_low]
  rw [decode_of_opcode hop, checkZero_of_zero hz]

end Sys2Proof
end

section
/-! SUPPORT. Big-endian byte strings as sums of digits, and the buffer bytes that `STBE` leaves for `LDBE`
(rules R93, R94). -/

namespace Sys2Proof.Machine

/-- A byte string's value is the sum of its bytes by place (rule R93). -/
theorem bytesValue_map_range (f : Nat → Byte) (n : Nat) :
    bytesValue ((List.range n).map f) = ∑ k ∈ Finset.range n, (f k).toNat * 256 ^ (n - 1 - k) := by
  induction n with
  | zero => rfl
  | succ n ih =>
    have hplace : ∀ k ∈ Finset.range n,
        (f k).toNat * 256 ^ (n - 1 - k) * 256 = (f k).toNat * 256 ^ (n + 1 - 1 - k) := by
      intro k hk
      have hk := Finset.mem_range.mp hk
      rw [mul_assoc, ← pow_succ, show n - 1 - k + 1 = n + 1 - 1 - k by omega]
    rw [List.range_succ, List.map_append, List.map_singleton, bytesValue_append_one, ih, Finset.sum_mul,
      Finset.sum_congr rfl hplace, Finset.sum_range_succ]
    simp

theorem Memory.bytesValue_readBytes (m : Memory) (n : Nat) :
    bytesValue (m.readBytes 0 n) = ∑ k ∈ Finset.range n, (m.read k).toNat * 256 ^ (n - 1 - k) := by
  simp only [Memory.readBytes, Nat.zero_add, bytesValue_map_range]

/-- Bytes written from `k` on are the bytes read from there. -/
theorem Memory.readBytes_writeBytes {m : Memory} (h : m.wf) (k : Nat) (bs : List Byte) :
    (m.writeBytes k bs).readBytes k bs.length = bs := by
  refine List.ext_getElem (Memory.readBytes_length ..) fun i _ hi => ?_
  rw [← Memory.read_writeBytes_in bs m (k := k) h.1 hi]
  simp [Memory.readBytes]

/-- Byte `k` of the minimal big-endian form (rule R94). -/
theorem magnitudeBytes_getElem {m k : Nat} (h : k < (magnitudeBytes m).length) :
    ((magnitudeBytes m)[k]).toNat = m / 256 ^ (byteLength m - 1 - k) % 256 := by
  simp [magnitudeBytes]

theorem one_le_byteLength (m : Nat) : 1 ≤ byteLength m := Nat.le_max_left ..

/-- What `BUFLEN` holds after `STBE` (rule R94). -/
theorem State.toNat_byteLength (s : State) (r : RegIdx) :
    (BitVec.ofNat 8 (byteLength (s.val r).natAbs)).toNat = byteLength (s.val r).natAbs := by
  have h : byteLength (s.val r).natAbs ≤ 128 := byteLength_le ((fits_iff _).mp (s.fits_val r))
  rw [BitVec.toNat_ofNat, Nat.mod_eq_of_lt (by omega)]

/-- What `STBE` leaves for `LDBE`: the bytes of the magnitude, and their number (rule R94). -/
theorem stbe_buffer {ra : RegIdx} {s t : State} (hwf : s.buf.wf) (h : exec (.stbe ra) s = .next t) :
    t.buflen.toNat = byteLength (s.val ra).natAbs
      ∧ t.buf.readBytes 0 t.buflen.toNat = magnitudeBytes (s.val ra).natAbs := by
  rw [exec_stbe] at h
  injection h with h
  subst h
  refine ⟨s.toNat_byteLength ra, ?_⟩
  rw [State.finish_buflen, s.toNat_byteLength ra, ← magnitudeBytes_length]
  exact Memory.readBytes_writeBytes hwf 0 _

/-- `LDBE` with a length that rule R93 allows. -/
theorem exec_ldbe_of_length {s : State} (rd : RegIdx) (h1 : 1 ≤ s.buflen.toNat)
    (h2 : s.buflen.toNat ≤ 128) :
    ∃ t, exec (.ldbe rd) s = .next t
      ∧ WroteExactly s t [(rd, (bytesValue (s.buf.readBytes 0 s.buflen.toNat) : Int))] := by
  rw [exec_ldbe, if_neg (by omega)]
  exact commit_wrote_one rd (fits_bytesValue ((Memory.readBytes_length ..).trans_le h2))

/-- An unsigned word of 1024 bits at most fits. -/
theorem fits_toNat {n : Nat} (hn : n ≤ 32 * Config.limbCap) (x : BitVec n) : fits (x.toNat : Int) = true := by
  rw [fits_iff, Int.natAbs_natCast]
  exact x.isLt.trans_le (Nat.pow_le_pow_right (by decide) hn)

/-- Every constant of the ROM fits a register (rules R18, R27). -/
theorem fits_romConst (cv : Scheme) (sel : CurveConst) : fits (romConst cv sel) = true := by
  have h : (romConst cv sel).natAbs ≤ (rom cv).p.natAbs := by cases cv <;> cases sel <;> decide
  exact fits_of_natAbs_le h (fits_rom_p cv)

/-- The selectors that rule R74 leaves out. -/
theorem constOf_eq_none_iff : ∀ sel : BitVec 3, constOf sel = none ↔ 6 ≤ sel.toNat := by decide

/-- What is left to look at in a word of the format of `LDC`: the selector, then the scheme (rules R80, R96). -/
theorem decode_ldc_word (rd : RegIdx) (sel : BitVec 3) (c : BitVec 2) :
    decode (0x05#8 ++ rd ++ 0#12 ++ sel ++ c ++ 0#2) = decodeLdc (packFields 0x05 rd 0 0 (0#2 ++ sel) c) := by
  have hsel : (0#2 ++ sel) &&& (24 : RegIdx) = 0 := by revert sel; decide
  rw [← packFields_format_C1]
  exact decode_of_row (i := .ldc rd .p256 .a) (Laws.EncodesItsRow.of_fields (md := 0) (ma := 31) (mb := 31)
    (mc := 24) (mv := 0) (mz := 3) rfl BitVec.and_zero BitVec.zero_and BitVec.zero_and hsel BitVec.and_zero rfl)

theorem decode_ldc_illegal {sel : BitVec 3} (h : 6 ≤ sel.toNat) (rd : RegIdx) (c : BitVec 2) :
    decode (0x05#8 ++ rd ++ 0#12 ++ sel ++ c ++ 0#2) = .illegal .constSelector := by
  rw [decode_ldc_word, decodeLdc, fieldSel_packFields, (constOf_eq_none_iff sel).mpr h]

theorem decode_ldc_unsupported {sel : BitVec 3} (h : sel.toNat < 6) {c : BitVec 2} (hc : 2 ≤ c.toNat)
    (rd : RegIdx) : decode (0x05#8 ++ rd ++ 0#12 ++ sel ++ c ++ 0#2) = .unsupportedScheme := by
  have hsome : constOf sel ≠ none := fun h0 => by have := (constOf_eq_none_iff sel).mp h0; omega
  obtain ⟨k, hk⟩ := Option.ne_none_iff_exists'.mp hsome
  rw [decode_ldc_word, decodeLdc, fieldSel_packFields, hk]
  exact (withScheme_eq_unsupportedScheme_iff _ _).mpr (by rwa [fieldCv_packFields])

/-- `LDC` of each constant, its word written with the constant's `sel` (rule R96). -/
theorem ldc_loads (rd : RegIdx) (cv : Scheme) (sel : CurveConst) (s : State) :
    decode (0x05#8 ++ rd ++ 0#12 ++ sel.bits ++ cv.bits ++ 0#2) = .command (.ldc rd cv sel)
      ∧ ∃ t, exec (.ldc rd cv sel) s = .next t ∧ WroteExactly s t [(rd, romConst cv sel)] := by
  rw [exec_ldc]
  exact ⟨decode_of_encode_eq rfl (packFields_format_C1 ..), commit_wrote_one rd (fits_romConst cv sel)⟩

end Sys2Proof.Machine
end

section
/-! SUPPORT. The values that the arithmetic commands compute, and that they fit (rules R18, R97 to R111). -/

namespace Sys2Proof.Machine

/-- A command with one destination whose value may be too large: it writes the value or faults (rules R18,
R191). -/
theorem commit_one (s : State) (rd : RegIdx) (v : Int) :
    (v.natAbs < 2 ^ 1024 → ∃ t, commit s (.ok [(rd, v)]) = .next t ∧ WroteExactly s t [(rd, v)])
      ∧ (2 ^ 1024 ≤ v.natAbs → commit s (.ok [(rd, v)]) = .next (afterFault 0x04 s)) :=
  ⟨fun h => commit_wrote_one rd (fits_of_lt h), commit_overflow_one rd⟩

/-- A magnitude no larger than a register's, with that register's sign, fits. -/
theorem State.fits_signed (s : State) (r : RegIdx) {m : Nat} (h : m ≤ (s.val r).natAbs) :
    fits (if s.val r < 0 then -(m : Int) else m) = true :=
  fits_of_natAbs_le (by split <;> omega) (s.fits_val r)

/-- A residue of a register's positive value fits. -/
theorem State.fits_residue (s : State) (r : RegIdx) {v : Int} (h0 : 0 ≤ v) (h : v < s.val r) :
    fits v = true :=
  fits_of_natAbs_le (by omega) (s.fits_val r)

theorem divideValue_error {a b : Int} (h : b ≤ 0) : divideValue a b = .error .divisorNotPositive := if_pos h

theorem divideValue_ok {a b : Int} (h : 0 < b) : divideValue a b =
    .ok (if a < 0 then -((a.natAbs / b.natAbs : Nat) : Int) else ((a.natAbs / b.natAbs : Nat) : Int)) := by
  rw [divideValue, if_neg (by omega), Int.natCast_ediv, Int.natCast_natAbs b, abs_of_pos h]

theorem remainderValue_error {a m : Int} (h : m ≤ 0) : remainderValue a m = .error .modulusInvalid := if_pos h

theorem remainderValue_ok {a m : Int} (h : 0 < m) : remainderValue a m = .ok (a % m) := if_neg (by omega)

/-- There is one inverse at most among the residues (rule R111). -/
theorem inverse_unique {a m x v : Int} (hx : a * x % m = 1) (hv : a * v % m = 1) (hx0 : 0 ≤ x) (hxm : x < m)
    (hv0 : 0 ≤ v) (hvm : v < m) : x = v := by
  have h : a * x ≡ a * v [ZMOD m] := hx.trans hv.symm
  have h1 : 1 ≡ a * v [ZMOD m] := by rw [← hv]; exact Int.mod_modEq ..
  have hxv : x ≡ v [ZMOD m] := calc
    x = 1 * x := (one_mul x).symm
    _ ≡ a * v * x [ZMOD m] := h1.mul_right x
    _ = v * (a * x) := by ring
    _ ≡ v * (a * v) [ZMOD m] := h.mul_left v
    _ = a * v * v := by ring
    _ ≡ 1 * v [ZMOD m] := (h1.mul_right v).symm
    _ = v := one_mul v
  rwa [Int.ModEq, Int.emod_eq_of_lt hx0 hxm, Int.emod_eq_of_lt hv0 hvm] at hxv

/-- The flag of `CMP` read as a two's-complement number (rules R24, R103). -/
theorem compareFlag_toInt (a b : Int) :
    (compareFlag a b).toInt = if a < b then -1 else if a = b then 0 else 1 := by
  unfold compareFlag
  split_ifs <;> rfl

end Sys2Proof.Machine
end

section
/-! The statements on the BigInteger commands (40_bigint.md). -/

namespace Sys2Proof.Machine

/-- Settles O30. -/
theorem ldiLoadsImmediate : Obligations.LdiLoadsImmediate := by
  intro rd imm s
  rw [exec_ldi]
  exact ⟨decode_encode (.ldi rd imm), commit_wrote_one rd (fits_toNat (by decide) imm)⟩

/-- Settles O31: the value of the bytes is the sum of rule R93. -/
theorem ldbeLoadsBuffer : Obligations.LdbeLoadsBuffer := by
  intro rd s
  refine ⟨decode_of_encode_eq (i := .ldbe rd) rfl (packFields_format_R1D ..), fun h => ?_, fun h1 h2 => ?_⟩
  · rw [exec_ldbe, if_pos h]
  · rw [← Memory.bytesValue_readBytes]
    exact exec_ldbe_of_length rd h1 h2

/-- Settles O32: the bytes written are the digits of the magnitude, and they fit the buffer. -/
theorem stbeStoresMagnitude : Obligations.StbeStoresMagnitude := by
  rintro ra s m n hwf rfl rfl
  have hfit := magnitudeBytes_le s ra
  refine ⟨decode_of_encode_eq (i := .stbe ra) rfl (packFields_format_R2 ..), one_le_byteLength _,
    byteLength_le ((fits_iff _).mp (s.fits_val ra)), _, exec_stbe ra s, fun k hk => ?_, fun k hk => ?_,
    s.toNat_byteLength ra, Memory.wf_writeBytes _ hwf hfit, rfl, rfl, rfl, rfl, rfl, rfl, rfl⟩
  · have hk' : k < (magnitudeBytes (s.val ra).natAbs).length := (magnitudeBytes_length _).symm ▸ hk
    have hread := Memory.read_writeBytes_in _ s.buf (k := 0) hwf.1 hk'
    rw [Nat.zero_add] at hread
    rw [State.finish_buf, hread, magnitudeBytes_getElem]
    rfl
  · refine Memory.read_writeBytes_other _ s.buf (Or.inr ?_)
    rwa [magnitudeBytes_length, Nat.zero_add]

/-- Settles O33: `LDBE` reads back just the bytes that `STBE` wrote. -/
theorem stbeThenLdbeGivesMagnitude : Obligations.StbeThenLdbeGivesMagnitude := by
  intro ra rd s hwf
  obtain ⟨-, hn1, hn128, t, ht, -, -, hlen, -, hregs, -⟩ := stbeStoresMagnitude ra s _ _ hwf rfl rfl
  obtain ⟨-, hbytes⟩ := stbe_buffer hwf ht
  obtain ⟨u, hu, hw⟩ := exec_ldbe_of_length rd (hlen ▸ hn1) (hlen ▸ hn128)
  rw [hbytes, bytesValue_magnitudeBytes] at hw
  exact ⟨t, u, ht, hu, (hw.written _ (List.mem_singleton_self _)).1,
    fun r hr => (hw.others r (by simpa using hr)).trans (State.reg_congr hregs r)⟩

/-- Settles O34. -/
theorem movCopies : Obligations.MovCopies := by
  intro rd ra s
  rw [exec_mov]
  exact ⟨decode_of_encode_eq (i := .mov rd ra) rfl (packFields_format_R2 ..),
    commit_wrote_one rd (s.fits_val ra)⟩

/-- Settles O35: the selector is looked at before the scheme. -/
theorem ldcLoadsConstant : Obligations.LdcLoadsConstant := by
  intro rd cv s
  refine ⟨?_, fun sel c => ⟨fun h => decode_ldc_illegal h rd c, fun h hc => decode_ldc_unsupported h hc rd⟩⟩
  simp only [List.forall_mem_cons]
  exact ⟨ldc_loads rd cv .a s, ldc_loads rd cv .b s, ldc_loads rd cv .p s, ldc_loads rd cv .gx s,
    ldc_loads rd cv .gy s, ldc_loads rd cv .n s, nofun⟩

/-- Settles O36. -/
theorem addComputesSum : Obligations.AddComputesSum := by
  intro rd ra rb s
  rw [exec_add]
  exact ⟨decode_of_encode_eq (i := .add rd ra rb) rfl (packFields_format_R3 ..), commit_one s rd _⟩

/-- Settles O37. -/
theorem subComputesDifference : Obligations.SubComputesDifference := by
  intro rd ra rb s
  rw [exec_sub]
  exact ⟨decode_of_encode_eq (i := .sub rd ra rb) rfl (packFields_format_R3 ..), commit_one s rd _⟩

/-- Settles O38. -/
theorem mulComputesProduct : Obligations.MulComputesProduct := by
  intro rd ra rb s
  rw [exec_mul]
  exact ⟨decode_of_encode_eq (i := .mul rd ra rb) rfl (packFields_format_R3 ..), commit_one s rd _⟩

/-- Settles O39. -/
theorem cmpSetsFlags : Obligations.CmpSetsFlags := fun ra rb s =>
  ⟨decode_of_encode_eq (i := .cmp ra rb) rfl (packFields_format_R3 ..), _, exec_cmp ra rb s,
    compareFlag_toInt _ _, rfl⟩

/-- Settles O40. -/
theorem lshMultiplies : Obligations.LshMultiplies := by
  intro rd ra sh s
  rw [exec_lsh]
  exact ⟨decode_of_encode_eq (i := .lsh rd ra sh) rfl (packFields_format_R3 ..), commit_one s rd _⟩

/-- Settles O41: a shifted magnitude is no larger. -/
theorem rshShiftsMagnitude : Obligations.RshShiftsMagnitude := by
  intro rd ra sh s
  rw [exec_rsh]
  exact ⟨decode_of_encode_eq (i := .rsh rd ra sh) rfl (packFields_format_R3 ..),
    commit_wrote_one rd (s.fits_signed ra (Nat.div_le_self ..))⟩

/-- Settles O42: a quotient's magnitude is no larger than the dividend's. -/
theorem divTruncates : Obligations.DivTruncates := by
  intro rd ra rb s
  refine ⟨decode_of_encode_eq (i := .div rd ra rb) rfl (packFields_format_R3 ..), fun h => ?_, fun h => ?_⟩
  · rw [exec_div, commit_map_error s _ (divideValue_error h)]
    rfl
  · rw [exec_div, commit_map_ok s _ (divideValue_ok h)]
    exact commit_wrote_one rd (s.fits_signed ra (Nat.div_le_self ..))

/-- Settles O43: Lean's remainder by a positive modulus is the Euclidean one. -/
theorem modIsEuclidean : Obligations.ModIsEuclidean := by
  intro rd ra rb s
  refine ⟨decode_of_encode_eq (i := .mod rd ra rb) rfl (packFields_format_R3 ..), fun h => ?_, fun h => ?_⟩
  · rw [exec_mod, commit_map_error s _ (remainderValue_error h)]
    rfl
  · have h0 : 0 ≤ s.val ra % s.val rb := Int.emod_nonneg _ h.ne'
    have hlt : s.val ra % s.val rb < s.val rb := Int.emod_lt_of_pos _ h
    obtain ⟨t, ht, hw⟩ := commit_wrote_one (s := s) rd (s.fits_residue rb h0 hlt)
    rw [exec_mod, commit_map_ok s _ (remainderValue_ok h)]
    exact ⟨t, _, ht, h0, hlt, Int.dvd_self_sub_emod, hw⟩

/-- Settles O44: the engine's result is an inverse, and two inverses are congruent. -/
theorem invIsTheInverse : Obligations.InvIsTheInverse := by
  intro rd ra rb s
  refine ⟨decode_of_encode_eq (i := .inv rd ra rb) rfl (packFields_format_R3 ..), fun h => ?_,
    fun h hg => ?_, fun h hg => ?_⟩
  · rw [exec_inv, commit_map_error s _ (modInverse_small h)]
    rfl
  · rw [Int.gcd_emod] at hg
    rw [exec_inv, commit_map_error s _ (modInverse_error h hg)]
    rfl
  · rw [Int.gcd_emod] at hg
    obtain ⟨v, hv, h1, hlt, hmul⟩ := modInverse_ok h hg
    obtain ⟨t, ht, hw⟩ := commit_wrote_one (s := s) rd (s.fits_residue rb (by omega) hlt)
    rw [exec_inv, commit_map_ok s _ hv]
    exact ⟨t, v, ht, h1, hlt, hmul,
      fun x hx1 hxlt hx => inverse_unique hx hmul (by omega) hxlt (by omega) hlt, hw⟩

end Sys2Proof.Machine
end

section
/-! SUPPORT. The limb-wise algorithms of the datapath notes on the values of limbs (rules R98, R100, R102,
R106), for limb sequences of any length. -/

namespace Sys2Proof.Machine

/-! ### Addition and subtraction (rules R98, R100) -/

/-- The head limb and the rest of a sequence that may be empty. -/
theorem limbsValue_headD_tail (ws : List Word) :
    limbsValue ws = (ws.headD 0).toNat + 2 ^ 32 * limbsValue ws.tail := by
  cases ws <;> simp [limbsValue]

/-- Addition with a carry in (rule R98). -/
theorem limbsValue_addLimbs (xs ys : List Word) (c : Nat) (hc : c ≤ 1) :
    limbsValue (addLimbs xs ys c) = limbsValue xs + limbsValue ys + c := by
  induction xs, ys, c using addLimbs.induct with
  | case1 => simp [addLimbs, limbsValue]
  | case2 c h0 => simp [addLimbs, h0, limbsValue]; omega
  | case3 x xs c ih =>
    have hx := x.isLt
    have hrest := ih (by omega)
    simp only [addLimbs, limbsValue, BitVec.toNat_ofNat] at hrest ⊢
    omega
  | case4 y ys c ih =>
    have hy := y.isLt
    have hrest := ih (by omega)
    simp only [addLimbs, limbsValue, BitVec.toNat_ofNat] at hrest ⊢
    omega
  | case5 x xs y ys c ih =>
    have hx := x.isLt
    have hy := y.isLt
    have hrest := ih (by omega)
    simp only [addLimbs, limbsValue, BitVec.toNat_ofNat] at hrest ⊢
    omega

/-- Subtraction with a borrow in, of no more than the minuend (rule R100). -/
theorem limbsValue_subLimbs (xs ys : List Word) (c : Nat) (hc : c ≤ 1)
    (h : limbsValue ys + c ≤ limbsValue xs) :
    limbsValue (subLimbs xs ys c) = limbsValue xs - limbsValue ys - c := by
  induction xs generalizing ys c with
  | nil => simp [subLimbs, limbsValue]
  | cons x xs ih =>
    have hx := x.isLt
    have hy := (ys.headD 0).isLt
    rw [limbsValue_headD_tail ys] at h ⊢
    simp only [limbsValue] at h
    have ht : biasedDifference x (ys.headD 0) c = 2 ^ 32 + x.toNat - (ys.headD 0).toNat - c := rfl
    simp only [subLimbs, limbsValue, BitVec.toNat_ofNat]
    by_cases hb : biasedDifference x (ys.headD 0) c < 0x100000000
    · rw [if_pos hb, ih _ 1 le_rfl (by omega)]; omega
    · rw [if_neg hb, ih _ 0 (by omega) (by omega)]; omega

@[simp] theorem signedValue_neg (xs : List Word) : signedValue (true, xs) = -(limbsValue xs : Int) := rfl

@[simp] theorem signedValue_nonneg (xs : List Word) : signedValue (false, xs) = limbsValue xs := rfl

/-- The case analysis on signs (rule R98): unequal signs leave the larger magnitude less the smaller. -/
theorem signedValue_addSigned (a b : Bool × List Word) :
    signedValue (addSigned a b) = signedValue a + signedValue b := by
  obtain ⟨p, xs⟩ := a
  obtain ⟨q, ys⟩ := b
  have hadd := limbsValue_addLimbs xs ys 0 (by omega)
  have hsub := limbsValue_subLimbs xs ys 0 (by omega)
  have hsub' := limbsValue_subLimbs ys xs 0 (by omega)
  unfold addSigned
  split_ifs with hsign hle
  · obtain rfl : p = q := hsign
    cases p <;> simp <;> omega
  · cases p <;> cases q <;> simp at hsign hle ⊢ <;> omega
  · cases p <;> cases q <;> simp at hsign hle ⊢ <;> omega

/-! ### Multiplication (rule R102): every addition into the columns is one modulo their whole range -/

@[simp] theorem length_addColumn (cols : List Word) (k v : Nat) :
    (addColumn cols k v).length = cols.length := by
  induction cols generalizing k v with
  | nil => rfl
  | cons w ws ih => cases k <;> simp [addColumn, ih]

/-- A value added into column `k` counts `2^(32k)` times. -/
theorem limbsValue_addColumn (cols : List Word) (k v : Nat) : limbsValue (addColumn cols k v)
    ≡ limbsValue cols + v * 2 ^ (32 * k) [MOD 2 ^ (32 * cols.length)] := by
  induction cols generalizing k v with
  | nil => exact Nat.modEq_one
  | cons w ws ih =>
    rw [List.length_cons, two_pow_limbs_succ]
    cases k with
    | zero =>
      have hw : w.toNat + v = (w.toNat + v) % 2 ^ 32 + 2 ^ 32 * ((w.toNat + v) / 2 ^ 32) :=
        (Nat.mod_add_div ..).symm
      have h := ((ih 0 ((w.toNat + v) / 2 ^ 32)).mul_left' (2 ^ 32)).add_left ((w.toNat + v) % 2 ^ 32)
      rw [addColumn, limbsValue, BitVec.toNat_ofNat, limbsValue]
      convert h using 1
      rw [Nat.mul_zero, pow_zero]
      omega
    | succ k =>
      have h := ((ih k v).mul_left' (2 ^ 32)).add_left w.toNat
      rw [addColumn, limbsValue, limbsValue, two_pow_limbs_succ]
      convert h using 1
      ring

@[simp] theorem length_mulRow (x : Word) (ys : List Word) (k : Nat) (cols : List Word) :
    (mulRow x ys k cols).length = cols.length := by
  induction ys generalizing k cols with
  | nil => rfl
  | cons y ys ih => simp [mulRow, ih]

/-- A row adds the product of one limb with all of `ys`. -/
theorem limbsValue_mulRow (x : Word) (ys : List Word) (k : Nat) (cols : List Word) :
    limbsValue (mulRow x ys k cols)
      ≡ limbsValue cols + x.toNat * limbsValue ys * 2 ^ (32 * k) [MOD 2 ^ (32 * cols.length)] := by
  induction ys generalizing k cols with
  | nil => simp [mulRow, limbsValue, Nat.ModEq.refl]
  | cons y ys ih =>
    have hrow := ih (k + 1) (addColumn (addColumn cols k (x.toNat * y.toNat % 2 ^ 32)) (k + 1)
      (x.toNat * y.toNat / 2 ^ 32))
    have hhigh := limbsValue_addColumn (addColumn cols k (x.toNat * y.toNat % 2 ^ 32)) (k + 1)
      (x.toNat * y.toNat / 2 ^ 32)
    have hlow := limbsValue_addColumn cols k (x.toNat * y.toNat % 2 ^ 32)
    simp only [length_addColumn] at hrow hhigh
    have hxy := Nat.mod_add_div (x.toNat * y.toNat) (2 ^ 32)
    rw [mulRow]
    refine (hrow.trans ((hhigh.trans (hlow.add_right _)).add_right _)).trans ?_
    rw [two_pow_limbs_succ, limbsValue]
    generalize x.toNat * y.toNat % 2 ^ 32 = lo at *
    generalize x.toNat * y.toNat / 2 ^ 32 = hi at *
    have : limbsValue cols + lo * 2 ^ (32 * k) + hi * (2 ^ 32 * 2 ^ (32 * k))
        + x.toNat * limbsValue ys * (2 ^ 32 * 2 ^ (32 * k))
        = limbsValue cols + ((lo + 2 ^ 32 * hi) + x.toNat * (2 ^ 32 * limbsValue ys)) * 2 ^ (32 * k) := by ring
    rw [this, hxy, ← Nat.mul_add]

@[simp] theorem length_mulRows (xs ys : List Word) (k : Nat) (cols : List Word) :
    (mulRows xs ys k cols).length = cols.length := by
  induction xs generalizing k cols with
  | nil => rfl
  | cons x xs ih => simp [mulRows, ih]

/-- All rows add the product of all limbs. -/
theorem limbsValue_mulRows (xs ys : List Word) (k : Nat) (cols : List Word) :
    limbsValue (mulRows xs ys k cols)
      ≡ limbsValue cols + limbsValue xs * limbsValue ys * 2 ^ (32 * k) [MOD 2 ^ (32 * cols.length)] := by
  induction xs generalizing k cols with
  | nil => simp [mulRows, limbsValue, Nat.ModEq.refl]
  | cons x xs ih =>
    have hrest := ih (k + 1) (mulRow x ys k cols)
    have hrow := limbsValue_mulRow x ys k cols
    rw [length_mulRow] at hrest
    rw [mulRows]
    convert hrest.trans (hrow.add_right _) using 1
    rw [two_pow_limbs_succ, limbsValue]
    ring

theorem limbsValue_replicate_zero (n : Nat) : limbsValue (List.replicate n 0) = 0 :=
  limbsValue_eq_zero.mpr fun _ hw => List.eq_of_mem_replicate hw

/-- Schoolbook multiplication (rule R102): the columns of both operands hold the whole product. -/
theorem limbsValue_mulLimbs (xs ys : List Word) :
    limbsValue (mulLimbs xs ys) = limbsValue xs * limbsValue ys := by
  have hmod := limbsValue_mulRows xs ys 0 (List.replicate (xs.length + ys.length) 0)
  have hlt := limbsValue_lt (mulLimbs xs ys)
  rw [limbsValue_replicate_zero, Nat.zero_add, Nat.mul_zero, pow_zero, Nat.mul_one,
    List.length_replicate] at hmod
  rw [mulLimbs, length_mulRows, List.length_replicate] at hlt
  have hprod : limbsValue xs * limbsValue ys < 2 ^ (32 * (xs.length + ys.length)) := by
    rw [Nat.mul_add, pow_add]
    exact Nat.mul_lt_mul'' (limbsValue_lt xs) (limbsValue_lt ys)
  exact hmod.eq_of_lt_of_lt hlt hprod

/-! ### Shifts (rule R106) -/

/-- Left shift with bits carried in (rule R106). -/
theorem limbsValue_shiftLeftLimbs {sh : Nat} (hsh : sh ≤ 31) (ws : List Word) (c : Nat) (hc : c < 2 ^ sh) :
    limbsValue (shiftLeftLimbs sh ws c) = limbsValue ws * 2 ^ sh + c := by
  induction ws generalizing c with
  | nil =>
    have hpow : 2 ^ sh ≤ 2 ^ 31 := Nat.pow_le_pow_right (by decide) hsh
    rw [shiftLeftLimbs]
    split
    · next h => simp [limbsValue, h]
    · simp only [limbsValue, BitVec.toNat_ofNat]; omega
  | cons w ws ih =>
    have hcarry : (w.toNat * 2 ^ sh + c) / 2 ^ 32 < 2 ^ sh := by
      rw [Nat.div_lt_iff_lt_mul (by decide)]
      calc w.toNat * 2 ^ sh + c < (w.toNat + 1) * 2 ^ sh := by rw [Nat.succ_mul]; omega
        _ ≤ 2 ^ sh * 2 ^ 32 := by rw [Nat.mul_comm]; exact Nat.mul_le_mul_left _ w.isLt
    have hdiv := Nat.mod_add_div (w.toNat * 2 ^ sh + c) (2 ^ 32)
    rw [shiftLeftLimbs, limbsValue, ih _ hcarry, limbsValue, BitVec.toNat_ofNat]
    linarith

/-- One limb of a right shift: its own high bits, and above them the low bits of the next limb. -/
theorem toNat_shiftRight_or_shiftLeft {sh : Nat} (hsh : sh ≤ 31) (w h : Word) :
    ((w >>> sh) ||| (h <<< (32 - sh))).toNat = w.toNat / 2 ^ sh + 2 ^ (32 - sh) * (h.toNat % 2 ^ sh) := by
  have hpow : (2 : Nat) ^ 32 = 2 ^ sh * 2 ^ (32 - sh) := by rw [← pow_add, Nat.add_sub_cancel' (by omega)]
  have hlow : w.toNat / 2 ^ sh < 2 ^ (32 - sh) := by
    rw [Nat.div_lt_iff_lt_mul (by positivity), Nat.mul_comm, ← hpow]
    exact w.isLt
  rw [BitVec.toNat_or, BitVec.toNat_ushiftRight, BitVec.toNat_shiftLeft, Nat.shiftRight_eq_div_pow,
    Nat.shiftLeft_eq, hpow, Nat.mul_mod_mul_right, Nat.or_comm, Nat.mul_comm, Nat.add_comm,
    Nat.two_pow_add_eq_or_of_lt hlow]

/-- Right shift (rule R106). -/
theorem limbsValue_shiftRightLimbs {sh : Nat} (hsh : sh ≤ 31) (ws : List Word) :
    limbsValue (shiftRightLimbs sh ws) = limbsValue ws / 2 ^ sh := by
  induction ws with
  | nil => simp [shiftRightLimbs, limbsValue]
  | cons w ws ih =>
    have hpow : (2 : Nat) ^ 32 = 2 ^ sh * 2 ^ (32 - sh) := by rw [← pow_add, Nat.add_sub_cancel' (by omega)]
    have hmod : (ws.headD 0).toNat % 2 ^ sh = limbsValue ws % 2 ^ sh := by
      rw [limbsValue_headD_tail ws, hpow, Nat.mul_assoc, Nat.add_mul_mod_self_left]
    rw [shiftRightLimbs, limbsValue, toNat_shiftRight_or_shiftLeft hsh, ih, hmod, limbsValue]
    calc w.toNat / 2 ^ sh + 2 ^ (32 - sh) * (limbsValue ws % 2 ^ sh) + 2 ^ 32 * (limbsValue ws / 2 ^ sh)
        = w.toNat / 2 ^ sh + 2 ^ (32 - sh) * (limbsValue ws % 2 ^ sh + 2 ^ sh * (limbsValue ws / 2 ^ sh)) := by
          rw [hpow]; ring
      _ = (w.toNat + 2 ^ 32 * limbsValue ws) / 2 ^ sh := by
          rw [Nat.mod_add_div, hpow, Nat.mul_assoc, Nat.add_mul_div_left _ _ (by positivity)]

end Sys2Proof.Machine
end

section
/-! SUPPORT. The doubling and halving division and the rounds of the inversion engine (rules R108, R110, R112,
R113, R228). -/

namespace Sys2Proof.Machine

/-! ### Division (rule R108) -/

/-- The doubling phase doubles divisor and unit alike, until the divisor reaches the dividend or the fuel is
used up. -/
theorem doublingPhase_eq (a fuel d u : Nat) : ∃ i ≤ fuel,
    doublingPhase a fuel d u = (d * 2 ^ i, u * 2 ^ i) ∧ (a ≤ d * 2 ^ i ∨ i = fuel) := by
  induction fuel generalizing d u with
  | zero => exact ⟨0, le_rfl, by simp [doublingPhase], Or.inr rfl⟩
  | succ fuel ih =>
    by_cases h : d < a
    · obtain ⟨i, hi, heq, hend⟩ := ih (2 * d) (2 * u)
      have hpow : ∀ x : Nat, 2 * x * 2 ^ i = x * 2 ^ (i + 1) := fun x => by ring
      rw [hpow, hpow] at heq
      rw [hpow] at hend
      exact ⟨i + 1, by omega, by rw [doublingPhase, if_pos h, heq], hend.imp_right (by omega)⟩
    · exact ⟨0, by omega, by simp [doublingPhase, h], Or.inl (by omega)⟩

/-- The doubling phase of a division ends with a divisor that is not below the dividend. -/
theorem doublingPhase_covers (a : Nat) {b : Nat} (hb : 0 < b) : ∃ i ≤ bitlen a,
    doublingPhase a (bitlen a) b 1 = (b * 2 ^ i, 2 ^ i) ∧ a ≤ b * 2 ^ i := by
  obtain ⟨i, hi, heq, hend⟩ := doublingPhase_eq a (bitlen a) b 1
  refine ⟨i, hi, by rw [heq, Nat.one_mul], ?_⟩
  rcases hend with hend | rfl
  · exact hend
  · exact (lt_two_pow_bitlen a).le.trans (Nat.le_mul_of_pos_left _ hb)

/-- With the unit at zero the halving phase is over. -/
theorem halvingPhase_unit_zero (fuel d rem q : Nat) : halvingPhase fuel d 0 rem q = (q, rem) := by
  cases fuel <;> simp [halvingPhase]

/-- The halving phase from divisor `b * 2^i` and unit `2^i`, with a remainder below twice that divisor: each
round takes the divisor off if it can, and the unit counts it. -/
theorem halvingPhase_eq {b : Nat} (hb : 0 < b) (i : Nat) {fuel rem : Nat} (hf : i < fuel)
    (hr : rem < 2 * (b * 2 ^ i)) (q : Nat) :
    halvingPhase fuel (b * 2 ^ i) (2 ^ i) rem q = (q + rem / b, rem % b) := by
  induction i generalizing fuel rem q with
  | zero =>
    obtain ⟨fuel, rfl⟩ := Nat.exists_eq_add_of_lt hf
    simp only [pow_zero, Nat.mul_one] at hr ⊢
    rw [halvingPhase, if_neg one_ne_zero]
    simp only [halvingPhase_unit_zero, show 1 / 2 = 0 from rfl]
    split
    · next hle => rw [Nat.div_eq_sub_div hb hle, Nat.mod_eq_sub_mod hle, Nat.div_eq_of_lt (by omega),
        Nat.mod_eq_of_lt (by omega), Nat.zero_add]
    · next hlt => rw [Nat.div_eq_of_lt (by omega), Nat.mod_eq_of_lt (by omega), Nat.add_zero]
  | succ i ih =>
    obtain ⟨fuel, rfl⟩ := Nat.exists_eq_add_of_lt hf
    have hd : b * 2 ^ (i + 1) = 2 * (b * 2 ^ i) := by ring
    have hu : 2 ^ (i + 1) = 2 * 2 ^ i := Nat.pow_succ'
    have hdhalf : b * 2 ^ (i + 1) / 2 = b * 2 ^ i := by omega
    have huhalf : 2 ^ (i + 1) / 2 = 2 ^ i := by omega
    rw [halvingPhase, if_neg (by positivity), hdhalf, huhalf]
    split
    · next hle =>
      rw [ih (by omega) (by omega), Nat.sub_mul_div, Nat.sub_mul_mod hle]
      have := (Nat.le_div_iff_mul_le hb).mpr (Nat.mul_comm b _ ▸ hle)
      rw [Nat.add_assoc, Nat.add_sub_cancel' this]
    · next hlt => exact ih (by omega) (by omega) q

/-- Binary long division (rule R108). -/
theorem divideDatapath_eq (a : Nat) {b : Nat} (hb : 0 < b) : divideDatapath a b = (a / b, a % b) := by
  obtain ⟨i, hi, heq, hle⟩ := doublingPhase_covers a hb
  have hpos : 0 < b * 2 ^ i := by positivity
  rw [divideDatapath, heq]
  simp only [halvingPhase_eq hb i (by omega : i < bitlen a + 1) (by omega : a < 2 * (b * 2 ^ i)), Nat.zero_add]

/-- The correction of rule R110 gives the Euclidean remainder. -/
theorem moduloDatapath_eq (a : Int) {m : Nat} (hm : 0 < m) : (moduloDatapath a m : Int) = a % m := by
  have hlt : a.natAbs % m < m := Nat.mod_lt _ hm
  have hdiv : ((a.natAbs % m : Nat) : Int) + m * (a.natAbs / m : Nat) = a.natAbs :=
    mod_cast Nat.mod_add_div a.natAbs m
  have hunique : ∀ r q : Int, r + m * q = a → 0 ≤ r → r < m → r = a % m := fun r q h h0 h1 =>
    ((Int.ediv_emod_unique (by omega)).mpr ⟨h, h0, h1⟩).2.symm
  simp only [moduloDatapath, divideDatapath_eq _ hm]
  split
  · next h =>
    refine hunique _ (-(a.natAbs / m : Nat) - 1) ?_ (by omega) (by omega)
    rw [Int.mul_sub, Int.mul_neg]
    omega
  · next h =>
    by_cases hneg : a < 0
    · refine hunique _ (-(a.natAbs / m : Nat)) ?_ (by omega) (by omega)
      rw [Int.mul_neg]
      omega
    · exact hunique _ (a.natAbs / m : Nat) (by omega) (by omega) (by omega)

/-! ### Inversion (rules R112, R113, R228) -/

/-- The fuelled loop is a number of rounds, each begun with `low > 1`. -/
theorem invLoop_eq_iterate (fuel : Nat) (s : InvState) :
    ∃ k : Nat, (∀ j < k, 1 < (invRound^[j] s).low) ∧ invLoop fuel s = invRound^[k] s := by
  induction fuel generalizing s with
  | zero => exact ⟨0, by simp, rfl⟩
  | succ fuel ih =>
    by_cases h : 1 < s.low
    · obtain ⟨k, hk, heq⟩ := ih (invRound s)
      refine ⟨k + 1, fun j hj => ?_, by rw [invLoop, if_pos h, heq, Function.iterate_succ_apply]⟩
      cases j with
      | zero => exact h
      | succ j => exact hk j (by omega)
    · exact ⟨0, by simp, by rw [invLoop, if_neg h]; rfl⟩

/-- Rounds begun with `low > 1` keep the invariants (rule R113). -/
theorem iterate_invRound_invariant {a m : Int} {s : InvState} (h : s.Invariant a m) {k : Nat}
    (hk : ∀ j < k, 1 < (invRound^[j] s).low) : (invRound^[k] s).Invariant a m := by
  induction k with
  | zero => exact h
  | succ k ih =>
    rw [Function.iterate_succ_apply']
    exact invRound_invariant (ih fun j hj => hk j (by omega)) (hk k (by omega))

/-- Two rounds halve `high` at least (rule R113): it becomes `high mod low`, and `low` is below `high`. -/
theorem two_mul_high_two_rounds {a m : Int} {s : InvState} (h : s.Invariant a m) (h1 : 1 < s.low) :
    2 * (invRound (invRound s)).high ≤ s.high := by
  have hhigh : (invRound (invRound s)).high = s.high % s.low := invRound_low s
  have hlt := h.lt
  have hmod : s.high % s.low < s.low := Int.emod_lt_of_pos _ (by omega)
  have hdiv := Int.mul_ediv_add_emod s.high s.low
  have hquot : 1 ≤ s.high / s.low := Int.le_ediv_of_mul_le (by omega) (by omega)
  have : s.low * 1 ≤ s.low * (s.high / s.low) := Int.mul_le_mul_of_nonneg_left hquot (by omega)
  omega

/-- `high` after `2 n` rounds. -/
theorem high_iterate_invRound_le {a m : Int} {s : InvState} (h : s.Invariant a m) {n : Nat}
    (hn : ∀ j < 2 * n, 1 < (invRound^[j] s).low) : (invRound^[2 * n] s).high * 2 ^ n ≤ s.high := by
  induction n with
  | zero => simp
  | succ n ih =>
    have hinv := iterate_invRound_invariant h fun j (hj : j < 2 * n) => hn j (by omega)
    have htwo := two_mul_high_two_rounds hinv (hn (2 * n) (by omega))
    rw [Nat.mul_succ, Function.iterate_succ_apply', Function.iterate_succ_apply']
    calc (invRound (invRound (invRound^[2 * n] s))).high * 2 ^ (n + 1)
        = 2 * (invRound (invRound (invRound^[2 * n] s))).high * 2 ^ n := by ring
      _ ≤ (invRound^[2 * n] s).high * 2 ^ n := by gcongr
      _ ≤ s.high := ih fun j hj => hn j (by omega)

/-- The rounds of an inversion are `2 bitlen(m)` at most (rule R228): by then `high` would be below 1. -/
theorem rounds_le {a m : Int} (hm : 2 ≤ m) {k : Nat} (hk : ∀ j < k, 1 < (invRound^[j] (invStart a m)).low) :
    k ≤ 2 * bitlen m.toNat := by
  by_contra hlt
  have hstart := invStart_invariant a hm
  have hlow : ∀ j < 2 * bitlen m.toNat, 1 < (invRound^[j] (invStart a m)).low := fun j hj => hk j (by omega)
  have hhigh : (invRound^[2 * bitlen m.toNat] (invStart a m)).high * 2 ^ bitlen m.toNat ≤ m :=
    high_iterate_invRound_le hstart hlow
  have hpos : 1 < (invRound^[2 * bitlen m.toNat] (invStart a m)).high :=
    (hk _ (by omega)).trans (iterate_invRound_invariant hstart hlow).lt
  have hbits : m < 2 ^ bitlen m.toNat := by
    have := lt_two_pow_bitlen m.toNat
    zify at this
    omega
  have hbelow := le_mul_of_one_le_left (by positivity : (0 : Int) ≤ 2 ^ bitlen m.toNat) hpos.le
  omega

end Sys2Proof.Machine
end

section
/-! The statements on the datapath notes of 40_bigint.md. -/

namespace Sys2Proof.Machine

/-- Settles O58. -/
theorem addSubDatapath : Obligations.AddSubDatapath :=
  ⟨limbsValue_addLimbs, fun xs ys h => limbsValue_subLimbs xs ys 0 (by omega) h, signedValue_addSigned⟩

/-- Settles O59. -/
theorem mulShiftDatapath : Obligations.MulShiftDatapath :=
  ⟨limbsValue_mulLimbs, fun xs _ hsh =>
    ⟨limbsValue_shiftLeftLimbs hsh xs 0 (by positivity), limbsValue_shiftRightLimbs hsh xs⟩⟩

/-- Settles O60: `low` falls at every round, and two rounds halve `high`. -/
theorem divModInvDatapath : Obligations.DivModInvDatapath := by
  refine ⟨fun a b => divideDatapath_eq a, fun a m => moduloDatapath_eq a, fun a m hm => ?_⟩
  obtain ⟨k, hk, hloop⟩ := invLoop_eq_iterate (a % m).toNat (invStart a m)
  refine ⟨invStart_invariant a hm, fun s hs h1 => ⟨invRound_invariant hs h1, invRound_low s, ?_⟩,
    k, rounds_le hm hk, hk, hloop, ?_⟩
  · rw [invRound_low]
    exact Int.emod_lt_of_pos _ (by omega)
  · rw [← hloop, Int.gcd_emod]
    obtain ⟨hlow, hlm, hg⟩ | ⟨hlow, hg⟩ := invLoop_start a hm
    · exact ⟨fun _ => ⟨hlow, hlm⟩, fun h => absurd hg h⟩
    · exact ⟨fun h => absurd h hg, fun _ => hlow⟩

end Sys2Proof.Machine
end

section
/-! SUPPORT. The words of the format `C2` (rule R73), and the word of `MODP` with a `cv` that names no scheme
(rules R79, R133). -/

namespace Sys2Proof

open BitVec

theorem packFields_format_C2 (op : BitVec 8) (rd ra : RegIdx) (cv : BitVec 2) :
    packFields op rd ra 0 0 cv = op ++ rd ++ ra ++ 0#10 ++ cv ++ 0#2 :=
  congrArg (· ++ cv ++ 0#2) (append_zero_append_zero _ 5 5)

/-- A word of `MODP` with `cv` 2 or 3 passes every check but the last one, its scheme (rules R79, R133). -/
theorem decode_modp_unsupported {c : BitVec 2} (hc : 2 ≤ c.toNat) (rd ra : RegIdx) :
    decode (0x21#8 ++ rd ++ ra ++ 0#10 ++ c ++ 0#2) = .unsupportedScheme := by
  have hrow : packFields 0x21#8 rd ra 0 0 c &&& (Instr.modp rd ra .p256).row.mask
      = (Instr.modp rd ra .p256).row.value :=
    Laws.EncodesItsRow.of_fields (md := 0) (ma := 0) (mb := 31) (mc := 31) (mv := 0) (mz := 3) rfl
      BitVec.and_zero BitVec.and_zero BitVec.zero_and BitVec.zero_and BitVec.and_zero rfl
  rw [← packFields_format_C2, decode_of_row hrow]
  exact (withScheme_eq_unsupportedScheme_iff _ _).mpr (by rwa [fieldCv_packFields])

end Sys2Proof
end

section
/-! SUPPORT. What one command after another finds in the registers and leaves there (rules R10, R16, R34). -/

namespace Sys2Proof.Machine

variable {s t u v : State} {rd r : RegIdx} {x : Int} {ws ws' : List (RegIdx × Int)}

/-- Register files that agree at every register are one. -/
theorem State.regs_ext (h : ∀ r, t.reg r = s.reg r) : t.regs = s.regs :=
  Vector.ext fun i hi => h (BitVec.ofFin ⟨i, hi⟩)

/-- The value in the one register written. -/
theorem WroteExactly.val_dest (h : WroteExactly s t [(rd, x)]) : t.val rd = x :=
  (h.written _ (List.mem_singleton_self _)).1

/-- The value in a register other than the one written. -/
theorem WroteExactly.val_other (h : WroteExactly s t [(rd, x)]) (hne : r ≠ rd) : t.val r = s.val r :=
  State.val_congr (h.others r (by simpa using hne))

/-- Writing registers again hides what the first command wrote: a register's canonical content is fixed by
its value. -/
theorem WroteExactly.regs_eq_of_overwrite (hst : WroteExactly s t ws) (htu : WroteExactly t u ws')
    (hsv : WroteExactly s v ws') (hsub : ws.map Prod.fst ⊆ ws'.map Prod.fst) : v.regs = u.regs := by
  refine State.regs_ext fun r => ?_
  by_cases hr : r ∈ ws'.map Prod.fst
  · obtain ⟨w, hw, rfl⟩ := List.mem_map.mp hr
    obtain ⟨hu, hcu⟩ := htu.written w hw
    obtain ⟨hv, hcv⟩ := hsv.written w hw
    exact BigInt.eq_of_val_eq hcv hcu (hv.trans hu.symm)
  · calc v.reg r = s.reg r := hsv.others r hr
      _ = t.reg r := (hst.others r fun h => hr (hsub h)).symm
      _ = u.reg r := (htu.others r hr).symm

/-- The remainder by a register's positive value fits and is written (rules R109, R131). -/
theorem commit_remainder (rd : RegIdx) (a : Int) (h : 0 < s.val r) :
    ∃ t, commit s ((remainderValue a (s.val r)).map fun y => [(rd, y)]) = .next t
      ∧ WroteExactly s t [(rd, a % s.val r)] := by
  rw [commit_map_ok s _ (remainderValue_ok h)]
  exact commit_wrote_one rd (s.fits_residue r (Int.emod_nonneg _ h.ne') (Int.emod_lt_of_pos _ h))

end Sys2Proof.Machine
end

section
/-! The statements on the modular commands (41_modular.md). -/

namespace Sys2Proof.Machine

/-- Settles O45: `MUL` hands its product to `MOD` in `rd`, and the modulus is still in `rc`. -/
theorem mulmodIsTheResidue : Obligations.MulmodIsTheResidue := by
  intro rd ra rb rc s
  refine ⟨decode_of_encode_eq (i := .mulmod rd ra rb rc) rfl (packFields_format_R4 ..), fun h => ?_,
    fun h => ?_, fun hfit h hne => ?_⟩
  · rw [exec_mulmod, commit_map_error s _ (remainderValue_error h)]
    rfl
  · obtain ⟨t, ht, hw⟩ := commit_remainder rd (s.val ra * s.val rb) h
    exact ⟨t, _, (exec_mulmod ..).trans ht, Int.emod_nonneg _ h.ne', Int.emod_lt_of_pos _ h,
      Int.dvd_self_sub_emod, hw⟩
  · obtain ⟨t, ht, hwt⟩ := commit_wrote_one (s := s) rd (fits_of_lt hfit)
    have hmod : t.val rc = s.val rc := hwt.val_other hne
    obtain ⟨u, hu, hwu⟩ := commit_remainder (s := t) rd (t.val rd) (hmod ▸ h)
    obtain ⟨v, hv, hwv⟩ := commit_remainder rd (s.val ra * s.val rb) h
    rw [hwt.val_dest, hmod] at hwu
    exact ⟨t, u, v, (exec_mul ..).trans ht, (exec_mod ..).trans hu, (exec_mulmod ..).trans hv,
      hwt.regs_eq_of_overwrite hwu hwv (List.Subset.refl _)⟩

/-- Settles O46: `MOD` finds the prime where `LDC` wrote it, and the operand where it was. -/
theorem modpIsTheFieldResidue : Obligations.ModpIsTheFieldResidue := by
  intro rd ra cv s
  obtain ⟨v, hv, hwv⟩ := commit_wrote_one (s := s) rd (inField_modp cv (s.val ra)).fits
  refine ⟨decode_of_encode_eq (i := .modp rd ra cv) rfl (packFields_format_C2 ..),
    ⟨v, _, (exec_modp ..).trans hv, modp_nonneg .., modp_lt .., Int.dvd_self_sub_emod, hwv⟩,
    fun rt hne => ?_, fun c hc => decode_modp_unsupported hc rd ra⟩
  obtain ⟨-, t, ht, hwt⟩ := ldc_loads rt cv .p s
  have hprime : t.val rt = (rom cv).p := hwt.val_dest
  have hpos : 0 < t.val rt := hprime ▸ zero_lt_two.trans (rom_p_pos cv)
  obtain ⟨u, hu, hwu⟩ := commit_remainder rd (t.val ra) hpos
  refine ⟨t, u, v, ht, (exec_mod ..).trans hu, (exec_modp ..).trans hv, ?_⟩
  calc u.val rd = t.val ra % t.val rt := hwu.val_dest
    _ = modp cv (s.val ra) := by rw [hprime, hwt.val_other hne.symm, modp]
    _ = v.val rd := hwv.val_dest.symm

end Sys2Proof.Machine
end

section
/-! SUPPORT. The words of the format `C3`, and the Jacobian commands at legal bases: what they compute is
written, or a conversion fault is taken (rules R73, R76, R142). -/

namespace Sys2Proof.Machine

theorem packFields_format_C3 (op : BitVec 8) (rd ra rb : RegIdx) (cv : BitVec 2) :
    packFields op rd ra rb 0 cv = op ++ rd ++ ra ++ rb ++ 0#5 ++ cv ++ 0#2 := rfl

section
variable {rd ra rb : RegIdx} (cv : Scheme) (s : State)

/-- `JDBL` at legal bases writes `JDouble` of its operand (rule R144). -/
theorem exec_jdbl_wrote (hd : rd.toNat ≤ 29) (ha : ra.toNat ≤ 29) :
    ∃ t, exec (.jdbl rd ra cv) s = .next t
      ∧ WroteExactly s t (tripleAt rd (jDouble cv (s.jacobian ra))) := by
  rw [exec_jdbl, jacobianBase_of_le hd, jacobianBase_of_le ha, Bool.and_self, whenLegal_true]
  exact commit_jacobian rd (jDouble_inRange cv _).toFits

/-- `JADD` at legal bases writes `JAdd` of its operands (rule R146). -/
theorem exec_jadd_wrote (hd : rd.toNat ≤ 29) (ha : ra.toNat ≤ 29) (hb : rb.toNat ≤ 29) :
    ∃ t, exec (.jadd rd ra rb cv) s = .next t
      ∧ WroteExactly s t (tripleAt rd (jAdd cv (s.jacobian ra) (s.jacobian rb))) := by
  rw [exec_jadd, jacobianBase_of_le hd, jacobianBase_of_le ha, jacobianBase_of_le hb, Bool.and_self, Bool.and_self,
    whenLegal_true]
  exact commit_jacobian rd (jAdd_fits (s.jacobian_fits ra) (s.jacobian_fits rb))

/-- `JMUL` at legal bases writes `JMul` of its operands (rule R149). -/
theorem exec_jmul_wrote (hd : rd.toNat ≤ 29) (ha : ra.toNat ≤ 29) :
    ∃ t, exec (.jmul rd ra rb cv) s = .next t
      ∧ WroteExactly s t (tripleAt rd (jMul cv (s.jacobian ra) (s.val rb))) := by
  rw [exec_jmul, jacobianBase_of_le hd, jacobianBase_of_le ha, Bool.and_self, whenLegal_true]
  exact commit_jacobian rd (jMul_fits (s.jacobian_fits ra) _)

/-- The end of a command that converts `q` to affine form: division by `Z`, or the fault (rule R151). -/
theorem commit_fromJ (q : JPoint) :
    (q.z % (rom cv).p = 0 →
        commit s ((fromJ cv q).map (affineDest rd)) = .next (afterFault 0x07 s))
      ∧ (q.z % (rom cv).p ≠ 0 → ∃ t z, commit s ((fromJ cv q).map (affineDest rd)) = .next t
        ∧ 1 ≤ z ∧ z < (rom cv).p ∧ q.z * z % (rom cv).p = 1
        ∧ WroteExactly s t
            [(rd, q.x * z * z % (rom cv).p), (rd + 1, q.y * z * z * z % (rom cv).p)]) := by
  refine ⟨fun h => commit_map_error s _ (fromJ_error h), fun h => ?_⟩
  obtain ⟨z, h1, hlt, hz, hq⟩ := fromJ_ok h
  obtain ⟨t, ht, hw⟩ := commit_affine (s := s) rd
    (q := { x := modp cv (q.x * z * z), y := modp cv (q.y * z * z * z) }) ⟨inField_modp .., inField_modp ..⟩
  exact ⟨t, z, (commit_map_ok s _ hq).trans ht, h1, hlt, hz, hw⟩

/-- `FROMJ` at legal bases ends as the conversion of its operand ends (rule R152). -/
theorem exec_fromj_of_le (hd : rd.toNat ≤ 30) (ha : ra.toNat ≤ 29) :
    exec (.fromj rd ra cv) s = commit s ((fromJ cv (s.jacobian ra)).map (affineDest rd)) := by
  rw [exec_fromj, affineBase_of_le hd, jacobianBase_of_le ha]
  rfl

/-- `PMUL` at legal bases ends as the conversion of the multiple ends (rule R153). -/
theorem exec_pmul_of_le (hd : rd.toNat ≤ 30) (ha : ra.toNat ≤ 30) :
    exec (.pmul rd ra rb cv) s
      = commit s ((fromJ cv (jMul cv (s.affine ra).toJacobian (s.val rb))).map (affineDest rd)) := by
  rw [exec_pmul, affineBase_of_le hd, affineBase_of_le ha]
  rfl

end

end Sys2Proof.Machine
end

section
/-! SUPPORT. The lines of the Jacobian functions, case by case: `JDouble`, `JAdd`, and `FromJ` where `Z = 1`
(rules R143, R145, R147, R151). -/

namespace Sys2Proof.Machine

section
variable {cv : Scheme} {q r : JPoint}

theorem jDouble_of_y_eq_zero (h : q.y = 0) : jDouble cv q = jInf := if_pos h

theorem jAdd_of_left_y_eq_zero (h : q.y = 0) : jAdd cv q r = r := if_pos h

theorem jAdd_of_right_y_eq_zero (hq : q.y ≠ 0) (hr : r.y = 0) : jAdd cv q r = q :=
  (if_neg hq).trans (if_pos hr)

/-- Two finite operands are compared by `U1`, `U2` and then `S1`, `S2` (rule R145). -/
theorem jAdd_of_y_ne_zero (hq : q.y ≠ 0) (hr : r.y ≠ 0) : jAdd cv q r =
    if modp cv (q.x * r.z * r.z) = modp cv (r.x * q.z * q.z) then
      if modp cv (q.y * r.z ^ 3) ≠ modp cv (r.y * q.z ^ 3) then jInf else jDouble cv q
    else jAddFormula cv q.z r.z (modp cv (q.x * r.z * r.z)) (modp cv (r.x * q.z * q.z))
      (modp cv (q.y * r.z ^ 3)) (modp cv (r.y * q.z ^ 3)) :=
  (if_neg hq).trans (if_neg hr)

/-- Where `Z = 1` the conversion only reduces (rule R152). -/
theorem fromJ_of_z_eq_one (h : q.z = 1) : fromJ cv q = .ok { x := modp cv q.x, y := modp cv q.y } := by
  have hz : modp cv q.z ≠ 0 := by rw [h, modp_of_inField (inField_one cv)]; exact one_ne_zero
  obtain ⟨z, h1, hlt, hmul, hq⟩ := fromJ_ok hz
  have hz1 : z = 1 := by rwa [h, one_mul, Int.emod_eq_of_lt (by omega) hlt] at hmul
  rw [hq, hz1]
  simp only [mul_one]

theorem fromJ_jInf (cv : Scheme) : fromJ cv jInf = .ok aInf := fromJ_of_z_eq_one rfl

end

end Sys2Proof.Machine
end

section
/-! SUPPORT. Scalar multiplication: `JMul` by the halves of its scalar, and the loop of rule R150 by its last
round (rules R148, R150). -/

namespace Sys2Proof.Machine

theorem bitlen_eq_bitlen_half_succ {n : Nat} (h : n ≠ 0) : bitlen n = bitlen (n / 2) + 1 := by
  rcases (by omega : n = 1 ∨ 2 ≤ n) with rfl | h2
  · rfl
  · rw [bitlen, bitlen, if_neg h, if_neg (by omega), Nat.log2_def, if_pos h2]

/-- One round of double-and-add (rules R148, R150): the doubled accumulator, and the point added where the
scalar's bit is 1. -/
def jMulRound (cv : Scheme) (q : JPoint) (b : Bool) (acc : JPoint) : JPoint :=
  if b then jAdd cv (jDouble cv acc) q else jDouble cv acc

/-- `JMul` on a scalar that is in range (rule R148). -/
def jMulNat (cv : Scheme) (q : JPoint) (n : Nat) : JPoint := jMulRec cv q (bitlen n) n

section
variable {cv : Scheme} {q : JPoint}

theorem jMulNat_of_infinity {n : Nat} (h : n = 0 ∨ q.y = 0) : jMulNat cv q n = jInf := by
  rw [jMulNat]
  cases bitlen n with
  | zero => rfl
  | succ fuel => exact if_pos h

theorem jMulNat_one (h : q.y ≠ 0) : jMulNat cv q 1 = q := by
  rw [jMulNat, bitlen_eq_bitlen_half_succ one_ne_zero, jMulRec, if_neg (by omega), if_pos rfl]

/-- A scalar above 1 is one round after its half (rule R148). -/
theorem jMulNat_half {n : Nat} (hn : 2 ≤ n) (h : q.y ≠ 0) :
    jMulNat cv q n = jMulRound cv q (n.testBit 0) (jMulNat cv q (n / 2)) := by
  rw [jMulNat, bitlen_eq_bitlen_half_succ (by omega : n ≠ 0), jMulRec, if_neg (by omega),
    if_neg (by omega), jMulRound, Nat.testBit_zero]
  rcases Nat.mod_two_eq_zero_or_one n with hb | hb <;> simp [hb, jMulNat]

end

/-- One round of the loop reads bit `i` (rule R150). -/
theorem jMulLoop_succ (cv : Scheme) (q : JPoint) (n i : Nat) (acc : JPoint) :
    jMulLoop cv q n (i + 1) acc = jMulLoop cv q n i (jMulRound cv q (n.testBit i) acc) := rfl

/-- The last round is the one on bit 0; those before it are the loop on the scalar's half (rule R150). -/
theorem jMulLoop_last_round (cv : Scheme) (q : JPoint) (n i : Nat) (acc : JPoint) :
    jMulLoop cv q n (i + 1) acc = jMulRound cv q (n.testBit 0) (jMulLoop cv q (n / 2) i acc) := by
  induction i generalizing acc with
  | zero => rfl
  | succ i ih => rw [jMulLoop_succ, ih, jMulLoop_succ, Nat.testBit_succ]

/-- The loop from below the leading bit down gives the recursion's triple (rule R150). -/
theorem jMulLoop_eq_jMulNat (cv : Scheme) {q : JPoint} (h : q.y ≠ 0) (n : Nat) (hn : n ≠ 0) :
    jMulLoop cv q n (bitlen n - 1) q = jMulNat cv q n := by
  induction n using Nat.strong_induction_on with
  | _ n ih =>
    rcases (by omega : n = 1 ∨ 2 ≤ n) with rfl | h2
    · exact (jMulNat_one h).symm
    · have hhalf : n / 2 ≠ 0 := by omega
      have hlen : bitlen n - 1 = bitlen (n / 2) - 1 + 1 := by
        have := bitlen_pos hhalf
        rw [bitlen_eq_bitlen_half_succ hn]
        omega
      rw [hlen, jMulLoop_last_round, ih (n / 2) (by omega) hhalf, ← jMulNat_half h2 h]

/-! ### The range reduction (rule R148) -/

theorem one_lt_rom_n (cv : Scheme) : 1 < (rom cv).n := by cases cv <;> decide

/-- The reduction is the Euclidean remainder, for a scalar in range too. -/
theorem reduceScalar_eq (cv : Scheme) (n : Int) : reduceScalar cv n = (n % (rom cv).n).toNat := by
  unfold reduceScalar
  split
  · rfl
  · rw [Int.emod_eq_of_lt (by omega) (by omega)]

theorem jMul_eq_jMulNat (cv : Scheme) (q : JPoint) (n : Int) :
    jMul cv q n = jMulNat cv q (n % (rom cv).n).toNat := by
  rw [jMul, ← jMulNat, reduceScalar_eq]

theorem jMul_of_inRange (cv : Scheme) (q : JPoint) {n : Int} (h0 : 0 ≤ n) (hlt : n < (rom cv).n) :
    jMul cv q n = jMulNat cv q n.toNat := by
  rw [jMul_eq_jMulNat, Int.emod_eq_of_lt h0 hlt]

/-- A scalar above 1 in range: one round after `JMul` of its half (rule R148). -/
theorem jMul_half (cv : Scheme) {q : JPoint} {n : Int} (h2 : 2 ≤ n) (hlt : n < (rom cv).n) (h : q.y ≠ 0) :
    jMul cv q n = jMulRound cv q (decide (n % 2 = 1)) (jMul cv q (n / 2)) := by
  have hbit : n.toNat.testBit 0 = decide (n % 2 = 1) := by
    rw [Nat.testBit_zero, decide_eq_decide]; omega
  rw [jMul_of_inRange cv q (by omega) hlt, jMulNat_half (by omega) h, hbit,
    jMul_of_inRange cv q (by omega) (by omega), (by omega : (n / 2).toNat = n.toNat / 2)]

end Sys2Proof.Machine
end

section
/-! The statements on `JDBL`, `JADD`, `JMUL`, `FROMJ`, `PMUL` (42_point_jacobian.md). -/

namespace Sys2Proof.Machine

/-- Settles O47: by the two cases of `JDouble`. -/
theorem jdblDoubles : Obligations.JdblDoubles := by
  rintro rd ra cv s p x y z hd ha rfl rfl rfl rfl
  have hw := exec_jdbl_wrote cv s hd ha
  refine ⟨decode_of_encode_eq (i := .jdbl rd ra cv) ?_ (packFields_format_C2 ..), fun hy => ?_, fun hy => ?_⟩
  · simp [Instr.wellFormed, jacobianBase_of_le, hd, ha]
  · rwa [jDouble_of_y_eq_zero hy] at hw
  · rintro _ _ _ _ rfl rfl rfl rfl
    rwa [jDouble, if_neg (show (s.jacobian ra).y ≠ 0 from hy)] at hw

/-- Settles O48: by the cases of `JAdd`, in their order. -/
theorem jaddAdds : Obligations.JaddAdds := by
  rintro rd ra rb cv s p x1 y1 z1 x2 y2 z2 hd ha hb rfl rfl rfl rfl rfl rfl rfl
  have hw := exec_jadd_wrote cv s hd ha hb
  refine ⟨decode_of_encode_eq (i := .jadd rd ra rb cv) ?_ (packFields_format_C3 ..), fun h1 => ?_,
    fun h1 h2 => ?_, fun h1 h2 => ?_⟩
  · simp [Instr.wellFormed, jacobianBase_of_le, hd, ha, hb]
  · rwa [jAdd_of_left_y_eq_zero h1] at hw
  · rwa [jAdd_of_right_y_eq_zero h1 h2] at hw
  · have hadd := jAdd_of_y_ne_zero (cv := cv) (q := s.jacobian ra) (r := s.jacobian rb) h1 h2
    rintro _ _ _ _ rfl rfl rfl rfl
    refine ⟨fun hu hs => ?_, fun hu hs => ?_, fun hu => ?_⟩
    · rwa [hadd.trans ((if_pos hu).trans (if_pos hs))] at hw
    · rw [exec_jadd, exec_jdbl, hadd.trans ((if_pos hu).trans (if_neg (not_not.mpr hs))),
        jacobianBase_of_le hb, Bool.and_true]
    · rintro _ _ _ _ _ _ rfl rfl rfl rfl rfl rfl
      rwa [hadd.trans (if_neg hu)] at hw

/-- Settles O49: a scalar in range is halved as the recursion halves it. -/
theorem jmulIsRecursive : Obligations.JmulIsRecursive := by
  refine ⟨fun rd ra rb cv s hd ha =>
    ⟨decode_of_encode_eq (i := .jmul rd ra rb cv) ?_ (packFields_format_C3 ..), exec_jmul_wrote cv s hd ha⟩,
    fun cv q n => ⟨fun _ => ?_, fun h0 hlt => ⟨fun h => ?_, fun h1 hy => ?_, fun h2 hy hb => ?_,
      fun h2 hy hb => ?_⟩⟩⟩
  · simp [Instr.wellFormed, jacobianBase_of_le, hd, ha]
  · rw [jMul_eq_jMulNat, jMul_eq_jMulNat, Int.emod_emod]
  · rw [jMul_of_inRange cv q h0 hlt]
    exact jMulNat_of_infinity (h.imp_left (congrArg Int.toNat))
  · rw [jMul_of_inRange cv q h0 hlt, h1]
    exact jMulNat_one hy
  · rw [jMul_half cv h2 hlt hy, jMulRound, if_neg (by simp [hb])]
  · rw [jMul_half cv h2 hlt hy, jMulRound, if_pos (by simp [hb])]

/-- Settles O50: the loop's last round is the recursion's outermost call. -/
theorem jmulIterativeForm : Obligations.JmulIterativeForm := by
  intro cv q n
  show jMulNat cv q (reduceScalar cv n) = jMulIterative cv q n
  rw [jMulIterative]
  split
  next h => exact jMulNat_of_infinity h
  next h =>
    obtain ⟨hn, hy⟩ := not_or.mp h
    exact (jMulLoop_eq_jMulNat cv hy _ hn).symm

/-- Settles O51: by whether `Z` is zero modulo the prime. -/
theorem fromjDividesByZ : Obligations.FromjDividesByZ := by
  rintro rd ra cv s p hd ha rfl
  refine ⟨decode_of_encode_eq (i := .fromj rd ra cv) ?_ (packFields_format_C2 ..), ?_⟩
  · simp [Instr.wellFormed, affineBase_of_le, jacobianBase_of_le, hd, ha]
  · rw [exec_fromj_of_le cv s hd ha]
    exact commit_fromJ cv s (s.jacobian ra)

/-- Settles O52: the multiples 0 and 1 have `Z = 1`, so their conversion only reduces. -/
theorem pmulMultiplies : Obligations.PmulMultiplies := by
  rintro rd ra rb cv s p q hd ha rfl rfl
  have hexec := exec_pmul_of_le (rb := rb) cv s hd ha
  obtain ⟨hfault, hok⟩ := commit_fromJ (rd := rd) cv s (jMul cv (s.affine ra).toJacobian (s.val rb))
  rw [← hexec] at hfault hok
  refine ⟨decode_of_encode_eq (i := .pmul rd ra rb cv) ?_ (packFields_format_C3 ..), hfault, hok,
    fun h => ?_, fun h hy => ?_⟩
  · simp [Instr.wellFormed, affineBase_of_le, hd, ha]
  · have hq : jMul cv (s.affine ra).toJacobian (s.val rb) = jInf := by
      rw [jMul_eq_jMulNat]
      exact jMulNat_of_infinity (h.imp_left (congrArg Int.toNat))
    rw [hexec, hq, commit_map_ok s _ (fromJ_jInf cv)]
    exact commit_affine rd (aInf_inRange cv)
  · have hq : jMul cv (s.affine ra).toJacobian (s.val rb) = (s.affine ra).toJacobian := by
      rw [jMul_eq_jMulNat, h]
      exact jMulNat_one hy
    rw [hexec, hq, commit_map_ok s _ (fromJ_of_z_eq_one rfl)]
    exact commit_affine rd (aReduce_inRange cv (s.affine ra))

end Sys2Proof.Machine
end

section
/-! SUPPORT. Integers as elements of the field of a scheme: what `modp` and `invp` are there, and the affine point
that a Jacobian triple denotes (rules R135, R151). -/

namespace Sys2Proof.Machine

/-- The field of a scheme: the integers modulo its prime (rule R135). -/
abbrev PrimeField (cv : Scheme) : Type := ZMod (rom cv).p.toNat

variable {cv : Scheme} {t u i : Int}

theorem toNat_rom_p (cv : Scheme) : ((rom cv).p.toNat : Int) = (rom cv).p :=
  Int.toNat_of_nonneg (by have := rom_p_pos cv; omega)

theorem cast_eq_iff_modp : (t : PrimeField cv) = u ↔ modp cv t = modp cv u := by
  rw [ZMod.intCast_eq_intCast_iff, toNat_rom_p]
  rfl

@[simp] theorem cast_modp (cv : Scheme) (t : Int) : (modp cv t : PrimeField cv) = t :=
  cast_eq_iff_modp.mpr (modp_modp cv t)

theorem cast_eq_zero_iff : (t : PrimeField cv) = 0 ↔ modp cv t = 0 := by
  rw [← Int.cast_zero, cast_eq_iff_modp, modp_of_inField (inField_zero cv)]

/-- Residues are determined by the field elements they stand for. -/
theorem InField.cast_inj (ht : InField cv t) (hu : InField cv u) : (t : PrimeField cv) = u ↔ t = u := by
  rw [cast_eq_iff_modp, modp_of_inField ht, modp_of_inField hu]

/-- An element that is not zero has the inverse that `inv_p` answers (rule R135). -/
theorem exists_invp_of_cast_ne_zero (h : (t : PrimeField cv) ≠ 0) :
    ∃ i, invp cv t = .ok i ∧ (t * i : PrimeField cv) = 1 := by
  obtain ⟨i, hi, -, -, hmul⟩ := invp_ok (mt cast_eq_zero_iff.mpr h)
  refine ⟨i, hi, ?_⟩
  rw [← Int.cast_mul, ← Int.cast_one, cast_eq_iff_modp, modp_of_inField (inField_one cv)]
  exact hmul

theorem ne_zero_of_cast_ne_zero (h : (t : PrimeField cv) ≠ 0) : t ≠ 0 := by
  rintro rfl
  exact h Int.cast_zero

theorem cast_two_ne_zero (cv : Scheme) : (2 : PrimeField cv) ≠ 0 := by
  rw [← Int.cast_ofNat, Ne, cast_eq_zero_iff, modp_of_inField ⟨by omega, rom_p_pos cv⟩]
  decide

/-- `q` denotes the affine point `a`: `x = X / Z^2` and `y = Y / Z^3` in the field (rule R151). -/
structure JPoint.Denotes (cv : Scheme) (q : JPoint) (a : APoint) : Prop where
  range : a.InRange cv
  z : (q.z : PrimeField cv) ≠ 0
  x : (q.x : PrimeField cv) = a.x * q.z ^ 2
  y : (q.y : PrimeField cv) = a.y * q.z ^ 3

variable {q r : JPoint} {a b : APoint}

/-- Where `Y` is not zero modulo the prime, neither is the affine `y`. -/
theorem JPoint.Denotes.y_ne_zero (h : q.Denotes cv a) (hy : (q.y : PrimeField cv) ≠ 0) :
    (a.y : PrimeField cv) ≠ 0 := by
  intro h0
  rw [h.y, h0, zero_mul] at hy
  exact hy rfl

section
variable [Fact (rom cv).p.toNat.Prime]

/-- A triple with `Z` invertible denotes one affine point. -/
theorem JPoint.Denotes.unique (ha : q.Denotes cv a) (hb : q.Denotes cv b) : a = b := by
  have hx : a.x = b.x := (ha.range.x.cast_inj hb.range.x).mp
    (mul_right_cancel₀ (pow_ne_zero 2 ha.z) (ha.x.symm.trans hb.x))
  have hy : a.y = b.y := (ha.range.y.cast_inj hb.range.y).mp
    (mul_right_cancel₀ (pow_ne_zero 3 ha.z) (ha.y.symm.trans hb.y))
  exact congrArg₂ APoint.mk hx hy

/-- `FromJ` answers the affine point denoted (rule R151). -/
theorem fromJ_eq_ok_iff : fromJ cv q = .ok a ↔ q.Denotes cv a := by
  by_cases h0 : (q.z : PrimeField cv) = 0
  · rw [fromJ_error (cast_eq_zero_iff.mp h0)]
    exact ⟨(nomatch ·), fun h => absurd h0 h.z⟩
  · obtain ⟨i, hi, hz⟩ := exists_invp_of_cast_ne_zero h0
    have hden : q.Denotes cv { x := modp cv (q.x * i * i), y := modp cv (q.y * i * i * i) } := by
      refine ⟨⟨inField_modp .., inField_modp ..⟩, h0, ?_, ?_⟩ <;> push_cast [cast_modp]
      · linear_combination (-(q.x * (q.z * i + 1)) : PrimeField cv) * hz
      · linear_combination (-(q.y * ((q.z * i) ^ 2 + q.z * i + 1)) : PrimeField cv) * hz
    rw [fromJ, hi, Except.ok.injEq]
    exact ⟨fun h => h ▸ hden, hden.unique⟩

/-- A triple denotes the end of a chord of slope `l` (the last lines of rules R168, R170). -/
theorem denotes_aChord {l x1 x2 y1 : Int} (hz : (q.z : PrimeField cv) ≠ 0)
    (hx : (q.x : PrimeField cv) = (l * q.z) ^ 2 - (x1 + x2) * q.z ^ 2)
    (hy : (q.y : PrimeField cv) = l * q.z * (x1 * q.z ^ 2 - q.x) - y1 * q.z ^ 3) :
    q.Denotes cv (aChord cv l x1 x2 y1) := by
  refine ⟨aChord_inRange .., hz, ?_, ?_⟩ <;> simp only [aChord] <;> push_cast [cast_modp]
  · linear_combination hx
  · linear_combination hy - (l * q.z : PrimeField cv) * hx

end

end Sys2Proof.Machine
end

section
/-! SUPPORT. The Jacobian formulas against the affine ones: both find the end of one chord (rules R143, R145,
R155, R168, R170). -/

namespace Sys2Proof.Machine

variable {cv : Scheme} [Fact (rom cv).p.toNat.Prime] {q r : JPoint} {a b : APoint}

/-- The affine double of a finite point is the end of the tangent, with its slope (rule R168). -/
theorem aDouble_eq_aChord (ha : a.InRange cv) (hy : (a.y : PrimeField cv) ≠ 0) :
    ∃ l : Int, aDouble cv a = .ok (aChord cv l a.x a.x a.y)
      ∧ (l * (2 * a.y) : PrimeField cv) = 3 * a.x ^ 2 + (rom cv).a := by
  have h2y : ((2 * a.y : Int) : PrimeField cv) ≠ 0 := by
    push_cast
    exact mul_ne_zero (cast_two_ne_zero cv) hy
  obtain ⟨i, hi, hinv⟩ := exists_invp_of_cast_ne_zero h2y
  refine ⟨modp cv ((3 * a.x * a.x + (rom cv).a) * i), ?_, ?_⟩
  · rw [aDouble, aReduce_of_inRange ha, aDoubleReduced, if_neg (ne_zero_of_cast_ne_zero hy), hi]
  · push_cast [cast_modp] at hinv ⊢
    linear_combination (3 * a.x ^ 2 + (rom cv).a : PrimeField cv) * hinv

/-- The affine sum of two finite points: the double, infinity, or the end of the chord, with its slope (rule
R170). -/
theorem aAdd_of_y_ne_zero (ha : a.InRange cv) (hb : b.InRange cv) (hay : a.y ≠ 0) (hby : b.y ≠ 0) :
    (a.x = b.x → a.y = b.y → aAdd cv a b = aDouble cv a)
      ∧ (a.x = b.x → a.y ≠ b.y → aAdd cv a b = .ok aInf)
      ∧ (a.x ≠ b.x → ∃ l : Int, aAdd cv a b = .ok (aChord cv l a.x b.x a.y)
        ∧ (l * (b.x - a.x) : PrimeField cv) = b.y - a.y) := by
  have hadd : aAdd cv a b = aAddReduced cv a b := by
    rw [aAdd, aReduce_of_inRange ha, aReduce_of_inRange hb]
  rw [hadd, aAddReduced, if_neg (fun h => hay h.2), if_neg (fun h => hby h.2)]
  refine ⟨fun hx hy => by rw [if_pos hx, if_pos hy], fun hx hy => by rw [if_pos hx, if_neg hy], fun hx => ?_⟩
  have hsub : ((b.x - a.x : Int) : PrimeField cv) ≠ 0 := by
    push_cast
    exact sub_ne_zero.mpr fun h => hx ((ha.x.cast_inj hb.x).mp h.symm)
  obtain ⟨i, hi, hinv⟩ := exists_invp_of_cast_ne_zero hsub
  refine ⟨modp cv ((b.y - a.y) * i), by rw [if_neg hx, hi], ?_⟩
  push_cast [cast_modp] at hinv ⊢
  linear_combination (b.y - a.y : PrimeField cv) * hinv

/-- `JDouble` of a finite point denotes its affine double: `M` is `l Z3`, `S` is `x Z3^2` and `8 Y^4` is
`y Z3^3` for the tangent's slope `l` (rules R143, R155, R168). -/
theorem JPoint.Denotes.fromJ_jDouble (h : q.Denotes cv a) (hy : (q.y : PrimeField cv) ≠ 0) :
    fromJ cv (jDouble cv q) = aDouble cv a := by
  obtain ⟨l, hd, hl⟩ := aDouble_eq_aChord h.range (h.y_ne_zero hy)
  obtain ⟨-, hz, hx, hy'⟩ := h
  rw [hd, fromJ_eq_ok_iff, jDouble, if_neg (ne_zero_of_cast_ne_zero hy)]
  have hm : (3 * q.x * q.x + (rom cv).a * q.z ^ 4 : PrimeField cv) = l * (2 * q.y * q.z) := by
    rw [hx, hy']
    linear_combination (-(q.z : PrimeField cv) ^ 4) * hl
  have hs : (4 * q.x * (q.y * q.y) : PrimeField cv) = a.x * (2 * q.y * q.z) ^ 2 := by
    rw [hx]
    ring
  have h8 : (8 * (q.y * q.y) * (q.y * q.y) : PrimeField cv) = a.y * (2 * q.y * q.z) ^ 3 := by
    linear_combination (8 * q.y ^ 3 : PrimeField cv) * hy'
  refine denotes_aChord ?_ ?_ ?_ <;> push_cast [cast_modp]
  · exact mul_ne_zero (mul_ne_zero (cast_two_ne_zero cv) hy) hz
  · rw [hm, hs]
    ring
  · rw [hm, hs, h8]

/-- The formula lines of `JAdd` denote the affine sum: `Rr` is `l Z3`, `H^3` is `(x2 - x1) Z3^2`, `U1 H^2` is
`x1 Z3^2` and `S1 H^3` is `y1 Z3^3` for the chord's slope `l` (rules R145, R155, R170). -/
theorem denotes_jAddFormula {z1 z2 u1 u2 s1 s2 x1 x2 y1 y2 l : Int}
    (hz1 : (z1 : PrimeField cv) ≠ 0) (hz2 : (z2 : PrimeField cv) ≠ 0)
    (hu1 : (u1 : PrimeField cv) = x1 * (z1 * z2) ^ 2) (hu2 : (u2 : PrimeField cv) = x2 * (z1 * z2) ^ 2)
    (hs1 : (s1 : PrimeField cv) = y1 * (z1 * z2) ^ 3) (hs2 : (s2 : PrimeField cv) = y2 * (z1 * z2) ^ 3)
    (hne : (u2 - u1 : PrimeField cv) ≠ 0) (hl : (l * (x2 - x1) : PrimeField cv) = y2 - y1) :
    (jAddFormula cv z1 z2 u1 u2 s1 s2).Denotes cv (aChord cv l x1 x2 y1) := by
  have hrr : (s2 - s1 : PrimeField cv) = l * ((u2 - u1) * z1 * z2) := by
    rw [hu1, hu2, hs1, hs2]
    linear_combination (-(z1 * z2 : PrimeField cv) ^ 3) * hl
  have hh3 : ((u2 - u1) * ((u2 - u1) * (u2 - u1)) : PrimeField cv)
      = (x2 - x1) * ((u2 - u1) * z1 * z2) ^ 2 := by
    rw [hu1, hu2]
    ring
  have hu1h2 : (u1 * ((u2 - u1) * (u2 - u1)) : PrimeField cv) = x1 * ((u2 - u1) * z1 * z2) ^ 2 := by
    rw [hu1, hu2]
    ring
  have hs1h3 : (s1 * ((x2 - x1) * ((u2 - u1) * z1 * z2) ^ 2) : PrimeField cv)
      = y1 * ((u2 - u1) * z1 * z2) ^ 3 := by
    rw [hu1, hu2, hs1]
    ring
  refine denotes_aChord ?_ ?_ ?_ <;> simp only [jAddFormula] <;> push_cast [cast_modp]
  · exact mul_ne_zero (mul_ne_zero hne hz1) hz2
  · rw [hrr, hh3, hu1h2]
    ring
  · rw [hrr, hh3, hu1h2, hs1h3]

/-- `FromJ` of the sum of two finite points, by the branches of `JAdd` (rules R145, R155, R170). -/
theorem JPoint.Denotes.fromJ_jAdd (ha : q.Denotes cv a) (hb : r.Denotes cv b)
    (hqy : (q.y : PrimeField cv) ≠ 0) (hry : (r.y : PrimeField cv) ≠ 0) :
    fromJ cv (jAdd cv q r) = aAdd cv a b := by
  have hw : (q.z * r.z : PrimeField cv) ≠ 0 := mul_ne_zero ha.z hb.z
  have hu1 : (modp cv (q.x * r.z * r.z) : PrimeField cv) = a.x * (q.z * r.z) ^ 2 := by
    push_cast [cast_modp, ha.x]; ring
  have hu2 : (modp cv (r.x * q.z * q.z) : PrimeField cv) = b.x * (q.z * r.z) ^ 2 := by
    push_cast [cast_modp, hb.x]; ring
  have hs1 : (modp cv (q.y * r.z ^ 3) : PrimeField cv) = a.y * (q.z * r.z) ^ 3 := by
    push_cast [cast_modp, ha.y]; ring
  have hs2 : (modp cv (r.y * q.z ^ 3) : PrimeField cv) = b.y * (q.z * r.z) ^ 3 := by
    push_cast [cast_modp, hb.y]; ring
  have hu : modp cv (q.x * r.z * r.z) = modp cv (r.x * q.z * q.z) ↔ a.x = b.x := by
    rw [← (inField_modp ..).cast_inj (inField_modp ..), hu1, hu2,
      mul_left_inj' (pow_ne_zero 2 hw), ha.range.x.cast_inj hb.range.x]
  have hs : modp cv (q.y * r.z ^ 3) = modp cv (r.y * q.z ^ 3) ↔ a.y = b.y := by
    rw [← (inField_modp ..).cast_inj (inField_modp ..), hs1, hs2,
      mul_left_inj' (pow_ne_zero 3 hw), ha.range.y.cast_inj hb.range.y]
  obtain ⟨hsame, hopposite, hchord⟩ := aAdd_of_y_ne_zero ha.range hb.range
    (ne_zero_of_cast_ne_zero (ha.y_ne_zero hqy)) (ne_zero_of_cast_ne_zero (hb.y_ne_zero hry))
  rw [jAdd_of_y_ne_zero (ne_zero_of_cast_ne_zero hqy) (ne_zero_of_cast_ne_zero hry)]
  by_cases hx : a.x = b.x
  · rw [if_pos (hu.mpr hx)]
    by_cases hy : a.y = b.y
    · rw [if_neg (not_not.mpr (hs.mpr hy)), hsame hx hy]
      exact ha.fromJ_jDouble hqy
    · rw [if_pos (mt hs.mp hy), hopposite hx hy]
      exact fromJ_jInf cv
  · obtain ⟨l, hsum, hl⟩ := hchord hx
    rw [if_neg (mt hu.mp hx), hsum, fromJ_eq_ok_iff]
    refine denotes_jAddFormula ha.z hb.z hu1 hu2 hs1 hs2 (sub_ne_zero.mpr fun h => hx (hu.mp ?_)) hl
    exact ((inField_modp ..).cast_inj (inField_modp ..)).mp h.symm

end Sys2Proof.Machine
end

section
/-! The statement that the Jacobian and the affine commands agree (42_point_jacobian.md). -/

namespace Sys2Proof.Machine

/-- Settles O53: in the field of the scheme both formulas find the end of one chord. -/
theorem jacobianAgreesWithAffine : Obligations.JacobianAgreesWithAffine := by
  intro cv q r a b hq hr ha hb
  have : Fact (rom cv).p.toNat.Prime := ⟨rom_prime cv⟩
  have hqy : (q.y : PrimeField cv) ≠ 0 := mt cast_eq_zero_iff.mp hq
  have hry : (r.y : PrimeField cv) ≠ 0 := mt cast_eq_zero_iff.mp hr
  rw [fromJ_eq_ok_iff] at ha hb
  exact ⟨ha.fromJ_jDouble hqy, ha.fromJ_jAdd hb hqy hry⟩

end Sys2Proof.Machine
end

section
/-! SUPPORT. The lines of the affine functions, case by case: `ADouble` and `AAdd`, with the inverse that each
takes (rules R166, R168, R170). -/

namespace Sys2Proof.Machine

section
variable {cv : Scheme} {q r : APoint}

/-- A sum is taken on reduced coordinates, and so is the double in it (rules R168, R170). -/
theorem aDouble_aReduce (cv : Scheme) (q : APoint) : aDouble cv (aReduce cv q) = aDouble cv q := by
  rw [aDouble, aReduce_of_inRange (aReduce_inRange cv q), ← aDouble]

theorem aDouble_of_y_eq_zero (h : modp cv q.y = 0) : aDouble cv q = .ok aInf := if_pos h

/-- The tangent, for a reduced `y` that is not zero (rule R168). -/
theorem aDouble_of_y_ne_zero (h : modp cv q.y ≠ 0) :
    ∃ i, 1 ≤ i ∧ i < (rom cv).p ∧ 2 * modp cv q.y * i % (rom cv).p = 1
      ∧ aDouble cv q = .ok (aChord cv (modp cv ((3 * modp cv q.x * modp cv q.x + (rom cv).a) * i))
          (modp cv q.x) (modp cv q.x) (modp cv q.y)) := by
  obtain ⟨i, hi, h1, hlt, hinv⟩ := invp_ok (cv := cv) (t := 2 * modp cv q.y)
    (modp_two_mul_ne_zero (by rwa [modp_modp]))
  refine ⟨i, h1, hlt, hinv, ?_⟩
  rw [aDouble, aDoubleReduced, if_neg (show (aReduce cv q).y ≠ 0 from h)]
  simp only [aReduce, hi]

theorem aAdd_of_left_infinity (h : modp cv q.x = 0 ∧ modp cv q.y = 0) : aAdd cv q r = .ok (aReduce cv r) :=
  if_pos h

theorem aAdd_aInf (cv : Scheme) (q : APoint) : aAdd cv aInf q = .ok (aReduce cv q) :=
  have h0 : modp cv 0 = 0 := modp_of_inField (inField_zero cv)
  aAdd_of_left_infinity ⟨h0, h0⟩

theorem aDouble_aInf (cv : Scheme) : aDouble cv aInf = .ok aInf :=
  aDouble_of_y_eq_zero (modp_of_inField (inField_zero cv))

section
variable (hq : ¬(modp cv q.x = 0 ∧ modp cv q.y = 0))
include hq

theorem aAdd_of_right_infinity (hr : modp cv r.x = 0 ∧ modp cv r.y = 0) : aAdd cv q r = .ok (aReduce cv q) :=
  (if_neg hq).trans (if_pos hr)

variable (hr : ¬(modp cv r.x = 0 ∧ modp cv r.y = 0))
include hr

theorem aAdd_of_equal (hx : modp cv q.x = modp cv r.x) (hy : modp cv q.y = modp cv r.y) :
    aAdd cv q r = aDouble cv q :=
  ((if_neg hq).trans (if_neg hr)).trans (((if_pos hx).trans (if_pos hy)).trans (aDouble_aReduce cv q))

theorem aAdd_of_opposite (hx : modp cv q.x = modp cv r.x) (hy : modp cv q.y ≠ modp cv r.y) :
    aAdd cv q r = .ok aInf :=
  ((if_neg hq).trans (if_neg hr)).trans ((if_pos hx).trans (if_neg hy))

/-- The chord, for finite operands with different reduced `x` (rule R170). -/
theorem aAdd_of_x_ne (hx : modp cv q.x ≠ modp cv r.x) :
    ∃ i, 1 ≤ i ∧ i < (rom cv).p ∧ (modp cv r.x - modp cv q.x) * i % (rom cv).p = 1
      ∧ aAdd cv q r = .ok (aChord cv (modp cv ((modp cv r.y - modp cv q.y) * i))
          (modp cv q.x) (modp cv r.x) (modp cv q.y)) := by
  obtain ⟨i, hi, h1, hlt, hinv⟩ := invp_ok (modp_sub_ne_zero (inField_modp cv q.x) (inField_modp cv r.x) hx)
  refine ⟨i, h1, hlt, hinv, ((if_neg hq).trans (if_neg hr)).trans ((if_neg hx).trans ?_)⟩
  simp only [aReduce, hi]

end

end

end Sys2Proof.Machine
end

section
/-! SUPPORT. The affine commands at legal bases: what they compute is written (rules R76, R167, R177). -/

namespace Sys2Proof.Machine

variable {rd ra rb rc : RegIdx} (cv : Scheme) (s : State)

/-- An affine result in range is written (rule R167). -/
theorem commit_affine_map {r : Except FaultCode APoint} {q : APoint} (hr : r = .ok q) (hq : q.InRange cv) :
    ∃ t, commit s (r.map (affineDest rd)) = .next t ∧ WroteExactly s t (pairAt rd q) := by
  rw [commit_map_ok s _ hr]
  exact commit_affine rd hq

theorem exec_pdbl_of_le (hd : rd.toNat ≤ 30) (ha : ra.toNat ≤ 30) :
    exec (.pdbl rd ra cv) s = commit s ((aDouble cv (s.affine ra)).map (affineDest rd)) := by
  rw [exec_pdbl, affineBase_of_le hd, affineBase_of_le ha]
  rfl

theorem exec_padd_of_le (hd : rd.toNat ≤ 30) (ha : ra.toNat ≤ 30) (hb : rb.toNat ≤ 30) :
    exec (.padd rd ra rb cv) s
      = commit s ((aAdd cv (s.affine ra) (s.affine rb)).map (affineDest rd)) := by
  rw [exec_padd, affineBase_of_le hd, affineBase_of_le ha, affineBase_of_le hb]
  rfl

theorem exec_pmulti_of_le (hd : rd.toNat ≤ 30) (ha : ra.toNat ≤ 30) :
    exec (.pmulti rd ra rb cv) s
      = commit s ((multiValue cv (s.affine ra) (s.val rb)).map (affineDest rd)) := by
  rw [exec_pmulti, affineBase_of_le hd, affineBase_of_le ha]
  rfl

theorem exec_shamir_of_le (hd : rd.toNat ≤ 30) (hc : rc.toNat ≤ 30) :
    exec (.shamir rd ra rb rc cv) s
      = commit s ((shamirValue cv (s.val ra) (s.val rb) (s.affine rc)).map (affineDest rd)) := by
  rw [exec_shamir, affineBase_of_le hd, affineBase_of_le hc]
  rfl

end Sys2Proof.Machine
end

section
/-! SUPPORT. Affine double-and-add: `AMulti` and `Shamir` are one loop, which differs only in what a round adds,
and its last round is the one on bit 0 (rules R172, R174). -/

namespace Sys2Proof.Machine

/-- One round: the doubled accumulator, and a point added to it where there is one to add. -/
def affineRound (cv : Scheme) (e : Option APoint) (acc : APoint) : Except FaultCode APoint :=
  aDouble cv acc >>= fun d => e.elim (.ok d) (aAdd cv d)

/-- The rounds from the highest bit down; `e i` is what the round on bit `i` adds. -/
def affineLoop (cv : Scheme) (e : Nat → Option APoint) : Nat → APoint → Except FaultCode APoint
  | 0, acc => .ok acc
  | i + 1, acc => affineRound cv (e i) acc >>= affineLoop cv e i

/-- What the round of `AMulti` on bit `i` adds (rule R172). -/
def multiAddend (q : APoint) (n i : Nat) : Option APoint := if n.testBit i then some q else none

theorem affineRound_of_aDouble {cv : Scheme} {acc d : APoint} (h : aDouble cv acc = .ok d)
    (e : Option APoint) : affineRound cv e acc = e.elim (.ok d) (aAdd cv d) := by
  rw [affineRound, h]
  rfl

/-- The last round is the one on bit 0; those before it are the loop on the bits from 1 on. -/
theorem affineLoop_last_round (cv : Scheme) (e : Nat → Option APoint) (i : Nat) (acc : APoint) :
    affineLoop cv e (i + 1) acc = affineLoop cv (fun j => e (j + 1)) i acc >>= affineRound cv (e 0) := by
  induction i generalizing acc with
  | zero => exact bind_pure _
  | succ i ih =>
    calc affineLoop cv e (i + 2) acc
        = affineRound cv (e (i + 1)) acc >>= affineLoop cv e (i + 1) := rfl
      _ = affineRound cv (e (i + 1)) acc
            >>= fun r => affineLoop cv (fun j => e (j + 1)) i r >>= affineRound cv (e 0) := by
          rw [funext ih]
      _ = affineLoop cv (fun j => e (j + 1)) (i + 1) acc >>= affineRound cv (e 0) :=
          (bind_assoc ..).symm

theorem aMultiLoop_succ (cv : Scheme) (q : APoint) (n i : Nat) (acc : APoint) :
    aMultiLoop cv q n (i + 1) acc
      = affineRound cv (multiAddend q n i) acc >>= aMultiLoop cv q n i := by
  obtain ⟨d, hd, -⟩ := aDouble_ok cv acc
  rw [aMultiLoop, affineRound_of_aDouble hd, hd, multiAddend]
  cases n.testBit i with
  | false => rfl
  | true =>
    obtain ⟨t, ht, -⟩ := aAdd_ok cv d q
    simp only [if_true, Option.elim_some, ht]
    rfl

theorem aMultiLoop_eq_affineLoop (cv : Scheme) (q : APoint) (n i : Nat) (acc : APoint) :
    aMultiLoop cv q n i acc = affineLoop cv (multiAddend q n) i acc := by
  induction i generalizing acc with
  | zero => rfl
  | succ i ih => rw [aMultiLoop_succ, funext ih, affineLoop]

/-- What the round of `Shamir` on bit `i` adds (rule R174); `t` is `G + Q`. -/
def jointAddend (cv : Scheme) (q t : APoint) (u1 u2 i : Nat) : Option APoint :=
  shamirAddend cv q t (u1.testBit i) (u2.testBit i)

theorem shamirLoop_succ (cv : Scheme) (q t : APoint) (u1 u2 i : Nat) (acc : APoint) :
    shamirLoop cv q t u1 u2 (i + 1) acc
      = affineRound cv (jointAddend cv q t u1 u2 i) acc >>= shamirLoop cv q t u1 u2 i := by
  obtain ⟨d, hd, -⟩ := aDouble_ok cv acc
  rw [shamirLoop, affineRound_of_aDouble hd, hd, jointAddend]
  cases shamirAddend cv q t (u1.testBit i) (u2.testBit i) with
  | none => rfl
  | some e =>
    obtain ⟨r, hr, -⟩ := aAdd_ok cv d e
    simp only [Option.elim_some, hr]
    rfl

theorem shamirLoop_eq_affineLoop (cv : Scheme) (q t : APoint) (u1 u2 i : Nat) (acc : APoint) :
    shamirLoop cv q t u1 u2 i acc = affineLoop cv (jointAddend cv q t u1 u2) i acc := by
  induction i generalizing acc with
  | zero => rfl
  | succ i ih => rw [shamirLoop_succ, funext ih, affineLoop]

/-- `AMulti` of a scalar that is not zero is one round after `AMulti` of its half (rule R172). -/
theorem aMulti_half (cv : Scheme) (q : APoint) {n : Nat} (h : n ≠ 0) :
    aMulti cv q n = aMulti cv q (n / 2) >>= affineRound cv (multiAddend q n 0) := by
  have hbits : (fun j => multiAddend q n (j + 1)) = multiAddend q (n / 2) :=
    funext fun j => by rw [multiAddend, Nat.testBit_succ, ← multiAddend]
  rw [aMulti, aMulti, aMultiLoop_eq_affineLoop, aMultiLoop_eq_affineLoop, bitlen_eq_bitlen_half_succ h,
    affineLoop_last_round, hbits]

/-- The round on the low bit of the scalar (rule R172). -/
theorem affineRound_multiAddend_zero {cv : Scheme} {acc d : APoint} (h : aDouble cv acc = .ok d)
    (q : APoint) (n : Nat) :
    affineRound cv (multiAddend q n 0) acc = if n % 2 = 1 then aAdd cv d q else .ok d := by
  rw [affineRound_of_aDouble h, multiAddend, Nat.testBit_zero]
  by_cases hb : n % 2 = 1 <;> simp [hb]

/-- The longer of two scalars, one of which is not zero, has one bit more than the longer of their halves. -/
theorem max_bitlen_eq_max_bitlen_half_succ {u1 u2 : Nat} (h : ¬(u1 = 0 ∧ u2 = 0)) :
    max (bitlen u1) (bitlen u2) = max (bitlen (u1 / 2)) (bitlen (u2 / 2)) + 1 := by
  have h0 : bitlen 0 = 0 := rfl
  by_cases h1 : u1 = 0
  · have h2 : u2 ≠ 0 := fun h2 => h ⟨h1, h2⟩
    simp [h1, h0, bitlen_eq_bitlen_half_succ h2]
  · by_cases h2 : u2 = 0
    · simp [h2, h0, bitlen_eq_bitlen_half_succ h1]
    · rw [bitlen_eq_bitlen_half_succ h1, bitlen_eq_bitlen_half_succ h2, Nat.succ_max_succ]

/-- The round on the low bits of the two scalars (rule R174). -/
theorem affineRound_jointAddend_zero {cv : Scheme} {acc d : APoint} (h : aDouble cv acc = .ok d)
    (q t : APoint) (u1 u2 : Nat) :
    affineRound cv (jointAddend cv q t u1 u2 0) acc =
      if u1 % 2 = 1 ∧ u2 % 2 = 1 then aAdd cv d t
      else if u1 % 2 = 1 then aAdd cv d (basePoint cv)
      else if u2 % 2 = 1 then aAdd cv d q
      else .ok d := by
  rw [affineRound_of_aDouble h, jointAddend, Nat.testBit_zero, Nat.testBit_zero]
  by_cases h1 : u1 % 2 = 1 <;> by_cases h2 : u2 % 2 = 1 <;> simp [h1, h2, shamirAddend]

section
variable {cv : Scheme} {q t : APoint} (ht : aAdd cv (basePoint cv) q = .ok t)
include ht

theorem shamir_eq_affineLoop (u1 u2 : Nat) : shamir cv u1 u2 q
    = affineLoop cv (jointAddend cv q t u1 u2) (max (bitlen u1) (bitlen u2)) aInf := by
  rw [shamir, ht]
  exact shamirLoop_eq_affineLoop ..

/-- `Shamir` of scalars not both zero is one round after `Shamir` of their halves (rule R174). -/
theorem shamir_half {u1 u2 : Nat} (h : ¬(u1 = 0 ∧ u2 = 0)) : shamir cv u1 u2 q
    = shamir cv (u1 / 2) (u2 / 2) q >>= affineRound cv (jointAddend cv q t u1 u2 0) := by
  have hbits : (fun j => jointAddend cv q t u1 u2 (j + 1)) = jointAddend cv q t (u1 / 2) (u2 / 2) :=
    funext fun j => by rw [jointAddend, Nat.testBit_succ, Nat.testBit_succ, ← jointAddend]
  rw [shamir_eq_affineLoop ht, shamir_eq_affineLoop ht, max_bitlen_eq_max_bitlen_half_succ h,
    affineLoop_last_round, hbits]

end

end Sys2Proof.Machine
end

section
/-! The statements on `PADD`, `PDBL`, `PMULTI`, `SHAMIR` (43_point_affine_shamir.md). -/

namespace Sys2Proof.Machine

/-- Settles O54: by the two cases of `ADouble`. -/
theorem pdblDoubles : Obligations.PdblDoubles := by
  rintro rd ra cv s p x y hd ha rfl rfl rfl
  rw [exec_pdbl_of_le cv s hd ha]
  refine ⟨decode_of_encode_eq (i := .pdbl rd ra cv) ?_ (packFields_format_C2 ..), fun hy => ?_, fun hy => ?_⟩
  · simp [Instr.wellFormed, affineBase_of_le, hd, ha]
  · exact commit_affine_map cv s (aDouble_of_y_eq_zero (q := s.affine ra) hy) (aInf_inRange cv)
  · obtain ⟨i, h1, hlt, hinv, hsum⟩ := aDouble_of_y_ne_zero (q := s.affine ra) hy
    obtain ⟨t, ht, hw⟩ := commit_affine_map (rd := rd) cv s hsum (aChord_inRange ..)
    refine ⟨t, i, _, _, ht, h1, hlt, hinv, rfl, rfl, ?_⟩
    rw [two_mul, ← sub_sub]
    exact hw

/-- Settles O55: by the cases of `AAdd`, in their order. -/
theorem paddAdds : Obligations.PaddAdds := by
  rintro rd ra rb cv s p x1 y1 x2 y2 hd ha hb rfl rfl rfl rfl rfl
  rw [exec_padd_of_le cv s hd ha hb, exec_pdbl_of_le cv s hd ha]
  have hw {q : APoint} :=
    commit_affine_map (rd := rd) (r := aAdd cv (s.affine ra) (s.affine rb)) (q := q) cv s
  refine ⟨decode_of_encode_eq (i := .padd rd ra rb cv) ?_ (packFields_format_C3 ..), fun h1 => ?_,
    fun h1 h2 => ?_, fun h1 h2 => ⟨fun hx hy => ?_, fun hx hy => ?_, fun hx => ?_⟩⟩
  · simp [Instr.wellFormed, affineBase_of_le, hd, ha, hb]
  · exact hw (aAdd_of_left_infinity h1) (aReduce_inRange ..)
  · exact hw (aAdd_of_right_infinity h1 h2) (aReduce_inRange ..)
  · rw [aAdd_of_equal (q := s.affine ra) (r := s.affine rb) h1 h2 hx hy]
  · exact hw (aAdd_of_opposite h1 h2 hx hy) (aInf_inRange cv)
  · obtain ⟨i, hi, hlt, hinv, hsum⟩ := aAdd_of_x_ne (q := s.affine ra) (r := s.affine rb) h1 h2 hx
    obtain ⟨t, ht, hwrote⟩ := hw hsum (aChord_inRange ..)
    exact ⟨t, i, _, _, ht, hi, hlt, hinv, rfl, rfl, hwrote⟩

/-- Settles O56: the loop's last round is the one on the scalar's low bit. -/
theorem pmultiMultiplies : Obligations.PmultiMultiplies := by
  refine ⟨fun rd ra rb cv s hd ha => ?_, fun cv q => ⟨rfl, ?_, fun n hn => ?_⟩⟩
  · rw [exec_pmulti_of_le cv s hd ha]
    refine ⟨decode_of_encode_eq (i := .pmulti rd ra rb cv) ?_ (packFields_format_C3 ..),
      fun h => commit_map_error s _ (if_pos h), fun h => ?_⟩
    · simp [Instr.wellFormed, affineBase_of_le, hd, ha]
    · obtain ⟨q, hq, hin⟩ := aMulti_ok cv (s.affine ra) (s.val rb).toNat
      obtain ⟨t, ht, hw⟩ := commit_affine_map cv s ((if_neg (not_lt.mpr h)).trans hq) hin
      exact ⟨t, q, ht, hq, hw⟩
  · calc aMulti cv q 1 = affineRound cv (some q) aInf := aMulti_half cv q one_ne_zero
      _ = aAdd cv aInf q := affineRound_of_aDouble (aDouble_aInf cv) _
      _ = .ok (aReduce cv q) := aAdd_aInf cv q
  · obtain ⟨acc, hacc, -⟩ := aMulti_ok cv q (n / 2)
    obtain ⟨d, hd, -⟩ := aDouble_ok cv acc
    refine ⟨acc, d, hacc, hd, ?_⟩
    rw [aMulti_half cv q hn, hacc]
    exact affineRound_multiAddend_zero hd q n

/-- Settles O57: the joint loop's last round is the one on the two scalars' low bits. -/
theorem shamirMultiplies : Obligations.ShamirMultiplies := by
  refine ⟨fun rd ra rb rc cv s hd hc => ?_, ?_⟩
  · rw [exec_shamir_of_le cv s hd hc]
    refine ⟨decode_of_encode_eq (i := .shamir rd ra rb rc cv) ?_ rfl,
      fun h => commit_map_error s _ (if_pos h), fun h1 h2 => ?_⟩
    · simp [Instr.wellFormed, affineBase_of_le, hd, hc]
    · obtain ⟨q, hq, hin⟩ := shamir_ok cv (s.val ra).toNat (s.val rb).toNat (s.affine rc)
      have hneg : ¬(s.val ra < 0 ∨ s.val rb < 0) := by omega
      obtain ⟨t, ht, hw⟩ := commit_affine_map cv s ((if_neg hneg).trans hq) hin
      exact ⟨t, q, ht, hq, hw⟩
  · rintro cv q _ rfl
    obtain ⟨t, ht, -⟩ := aAdd_ok cv (basePoint cv) q
    refine ⟨shamir_eq_affineLoop ht 0 0, fun u1 u2 hu => ?_⟩
    obtain ⟨acc, hacc, -⟩ := shamir_ok cv (u1 / 2) (u2 / 2) q
    obtain ⟨d, hd, -⟩ := aDouble_ok cv acc
    refine ⟨t, acc, d, ht, hacc, hd, ?_⟩
    rw [shamir_half ht hu, hacc]
    exact affineRound_jointAddend_zero hd q t u1 u2

end Sys2Proof.Machine
end

section
/-! SUPPORT. What the engine's turn has done where it left `ERR` set: fault entry and nothing else (rules R187,
R188, R226). -/

namespace Sys2Proof.Machine

variable {i : Instr} {s t : State}

/-- A command ends well or with fault entry. -/
theorem exec_endedWell_or_fault (h : exec i s = .next t) :
    EndedWell s t ∨ ∃ c : FaultCode, t = afterFault c.code s := by
  rcases exec_cases h with hfault | ⟨ws, hd, hf, rfl⟩ | ⟨ra, rfl, -⟩ | ⟨ra, rb, rfl, -⟩
  · exact Or.inr hfault
  · exact Or.inl (wroteExactly_of_writes hd hf).ended
  · exact Or.inl (stbe_endedWell h)
  · exact Or.inl (cmp_endedWell h)

/-- A good end leaves `ERR` as it was, so a command that set it took a fault. -/
theorem exec_fault_of_err (h : exec i s = .next t) (hs : s.status.err = false) (ht : t.status.err = true) :
    ∃ c : FaultCode, t = afterFault c.code s := by
  rcases exec_endedWell_or_fault h with hend | hfault
  · rw [hend, hs] at ht
    exact absurd ht (by decide)
  · exact hfault

/-- The engine's turn sets `ERR` only by fault entry, of a command or of a word that is none. -/
theorem engineTurn_fault_of_err (h : engineTurn s = .next t) (hs : s.status.err = false)
    (ht : t.status.err = true) : ∃ c : FaultCode, t = afterFault c.code s := by
  rcases engineTurn_cases h with rfl | ⟨-, ⟨i, hi⟩ | hfault⟩
  · simp [hs] at ht
  · exact exec_fault_of_err hi hs ht
  · exact hfault

end Sys2Proof.Machine
end

section
/-! SUPPORT. Which faults each operation can find in its operands, and that its values otherwise fit: no command
but `ADD`, `SUB`, `MUL`, `LSH` overflows, and no affine operation fails (rules R177, R188, R191). -/

namespace Sys2Proof.Machine

/-- The operation gives a value with `P`, or finds a fault with one of the codes. -/
def OkOrFault {α : Type} (P : α → Prop) (codes : List Byte) : Except FaultCode α → Prop
  | .ok v => P v
  | .error c => c.code ∈ codes

/-- A command that has computed `r` ends well or with one of the codes: its values fit, or `OVERFLOW` is one of
the codes. -/
abbrev EndsWithin (codes : List Byte) (r : Except FaultCode (List (RegIdx × Int))) : Prop :=
  OkOrFault (fun ws => ws.all (fun w => fits w.2) = true ∨ 0x04 ∈ codes) codes r

section
variable {α β : Type} {P : α → Prop} {Q : β → Prop} {codes : List Byte} {r : Except FaultCode α}

theorem OkOrFault.of_ok (h : ∃ v, r = .ok v ∧ P v) : OkOrFault P codes r := by
  obtain ⟨v, rfl, hv⟩ := h
  exact hv

theorem OkOrFault.of_error {c : FaultCode} (h : r = .error c) (hc : c.code ∈ codes) :
    OkOrFault P codes r := by
  subst h
  exact hc

theorem OkOrFault.map {f : α → β} (h : OkOrFault P codes r) (hf : ∀ v, P v → Q (f v)) :
    OkOrFault Q codes (r.map f) := by
  cases r with
  | error c => exact h
  | ok v => exact hf v h

end

/-! ### The operations on operands -/

section
variable (s : State) (a : Int) (ra rb : RegIdx)

theorem divideValue_okOrFault (b : Int) :
    OkOrFault (fun q => fits q = true) [0x05] (divideValue (s.val ra) b) := by
  rcases le_or_gt b 0 with hb | hb
  · exact .of_error (divideValue_error hb) (by decide)
  · exact .of_ok ⟨_, divideValue_ok hb, s.fits_signed ra (Nat.div_le_self ..)⟩

theorem remainderValue_okOrFault :
    OkOrFault (fun v => fits v = true) [0x06] (remainderValue a (s.val rb)) := by
  rcases le_or_gt (s.val rb) 0 with hm | hm
  · exact .of_error (remainderValue_error hm) (by decide)
  · exact .of_ok ⟨_, remainderValue_ok hm,
      s.fits_residue rb (Int.emod_nonneg _ hm.ne') (Int.emod_lt_of_pos _ hm)⟩

theorem modInverse_okOrFault :
    OkOrFault (fun v => fits v = true) [0x06, 0x07] (modInverse a (s.val rb)) := by
  rcases lt_or_ge (s.val rb) 2 with hm | hm
  · exact .of_error (modInverse_small hm) (by decide)
  by_cases hg : Int.gcd a (s.val rb) = 1
  · obtain ⟨v, hv, h1, hlt, -⟩ := modInverse_ok hm hg
    exact .of_ok ⟨v, hv, s.fits_residue rb (by omega) hlt⟩
  · exact .of_error (modInverse_error hm hg) (by decide)

end

section
variable (cv : Scheme)

theorem fromJ_okOrFault (q : JPoint) : OkOrFault (APoint.InRange cv) [0x07] (fromJ cv q) := by
  by_cases hz : modp cv q.z = 0
  · exact .of_error (fromJ_error hz) (by decide)
  · obtain ⟨z, -, -, -, hq⟩ := fromJ_ok hz
    exact .of_ok ⟨_, hq, inField_modp .., inField_modp ..⟩

theorem multiValue_okOrFault (q : APoint) (n : Int) :
    OkOrFault (APoint.InRange cv) [0x08] (multiValue cv q n) := by
  unfold multiValue
  split
  · exact .of_error rfl (by decide)
  · exact .of_ok (aMulti_ok ..)

theorem shamirValue_okOrFault (u1 u2 : Int) (q : APoint) :
    OkOrFault (APoint.InRange cv) [0x08] (shamirValue cv u1 u2 q) := by
  unfold shamirValue
  split
  · exact .of_error rfl (by decide)
  · exact .of_ok (shamir_ok ..)

end

/-! ### The destinations of a command -/

section
variable {codes : List Byte} {cv : Scheme}

theorem EndsWithin.of_fits {rd : RegIdx} {v : Int} (h : fits v = true) : EndsWithin codes (.ok [(rd, v)]) :=
  Or.inl (by simpa using h)

theorem EndsWithin.of_overflow {ws : List (RegIdx × Int)} (h : 0x04 ∈ codes) : EndsWithin codes (.ok ws) :=
  Or.inr h

theorem EndsWithin.one {r : Except FaultCode Int} (rd : RegIdx)
    (h : OkOrFault (fun v => fits v = true) codes r) : EndsWithin codes (r.map fun v => [(rd, v)]) :=
  h.map fun _ hv => Or.inl (by simpa using hv)

theorem EndsWithin.affine {r : Except FaultCode APoint} (rd : RegIdx)
    (h : OkOrFault (APoint.InRange cv) codes r) : EndsWithin codes (r.map (affineDest rd)) :=
  h.map fun _ hq => Or.inl (affineDest_fits hq rd)

theorem EndsWithin.jacobian {q : JPoint} (rd : RegIdx) (h : q.Fits) :
    EndsWithin codes (.ok (jacobianDest rd q)) :=
  Or.inl (jacobianDest_fits h rd)

theorem EndsWithin.ifLegal {r : Except FaultCode (List (RegIdx × Int))} {legal : Bool} (hl : legal = true)
    (h : EndsWithin codes r) : EndsWithin codes (ifLegal legal r) := by
  subst hl
  exact h

/-- The write, with its overflow test, ends as foreseen. -/
theorem EndsWithin.commit {r : Except FaultCode (List (RegIdx × Int))} (h : EndsWithin codes r) (s : State) :
    ∃ t, commit s r = .next t ∧ (EndedWell s t ∨ ∃ c ∈ codes, t = afterFault c s) := by
  obtain ⟨t, ht⟩ := commit_next s r
  refine ⟨t, ht, ?_⟩
  rcases commit_cases ht with ⟨ws, -, -, rfl⟩ | ⟨c, rfl, rfl⟩ | ⟨ws, rfl, hf, rfl⟩
  · obtain ⟨-, -, -, -, hstatus, -⟩ := State.writeRegs_rest ws s
    exact Or.inl (by rw [EndedWell, State.finish_status, hstatus])
  · exact Or.inr ⟨c.code, h, rfl⟩
  · exact Or.inr ⟨0x04, h.resolve_left (by simp [hf]), rfl⟩

end

/-- What a legal command computes fits, or the fault table lists the fault for it (rules R177, R188, R191). -/
theorem computed_endsWithin_faultCodes (i : Instr) (s : State) (h : i.wellFormed = true) :
    EndsWithin i.faultCodes (computed s i) := by
  cases i with
  | stbe | cmp => exact Or.inl rfl
  | ldi rd imm => exact .of_fits (fits_toNat (by decide) imm)
  | ldbe rd =>
    rw [computed]
    split
    · exact .of_error rfl (List.mem_singleton_self _)
    · next hlen =>
      have hle : (s.buf.readBytes 0 s.buflen.toNat).length ≤ 128 := by rw [Memory.readBytes_length]; omega
      exact .of_fits (fits_bytesValue hle)
  | mov rd ra => exact .of_fits (s.fits_val ra)
  | ldc rd cv sel => exact .of_fits (fits_romConst cv sel)
  | add | sub | mul | lsh => exact .of_overflow (List.mem_singleton_self _)
  | rsh rd ra sh => exact .of_fits (s.fits_signed ra (Nat.div_le_self ..))
  | div rd ra rb => exact .one rd (divideValue_okOrFault s ra _)
  | mod rd ra rb => exact .one rd (remainderValue_okOrFault s _ rb)
  | inv rd ra rb => exact .one rd (modInverse_okOrFault s _ rb)
  | mulmod rd ra rb rc => exact .one rd (remainderValue_okOrFault s _ rc)
  | modp rd ra cv => exact .of_fits (inField_modp cv _).fits
  | jdbl rd ra cv => exact .ifLegal h (.jacobian rd (jDouble_inRange cv _).toFits)
  | jadd rd ra rb cv => exact .ifLegal h (.jacobian rd (jAdd_fits (s.jacobian_fits ra) (s.jacobian_fits rb)))
  | jmul rd ra rb cv => exact .ifLegal h (.jacobian rd (jMul_fits (s.jacobian_fits ra) _))
  | fromj rd ra cv => exact .ifLegal h (.affine rd (fromJ_okOrFault cv _))
  | pmul rd ra rb cv => exact .ifLegal h (.affine rd (fromJ_okOrFault cv _))
  | padd rd ra rb cv => exact .ifLegal h (.affine rd (.of_ok (aAdd_ok cv _ _)))
  | pdbl rd ra cv => exact .ifLegal h (.affine rd (.of_ok (aDouble_ok cv _)))
  | pmulti rd ra rb cv => exact .ifLegal h (.affine rd (multiValue_okOrFault cv _ _))
  | shamir rd ra rb rc cv => exact .ifLegal h (.affine rd (shamirValue_okOrFault cv _ _ _))

end Sys2Proof.Machine
end

section
/-! SUPPORT. The host's writes to `CMD` and to `STATUS` as steps (rules R23, R56, R198). -/

namespace Sys2Proof.Machine

variable {s : State} {es : List Event} {d : Word}

/-- A `CMD` write to an idle core without fault is accepted. -/
theorem step_write_cmd (h : s.agenda = .write 0x0000 d :: es) (hb : s.status.busy = false)
    (he : s.status.err = false) : step s = .next { s with
      cmd := d
      status := { busy := true, done := false, err := false }
      agenda := es
      answers := .ok :: s.answers } := by
  obtain ⟨-, hcmd, -⟩ := hostAccessSideEffects s es 0 d
  rw [hcmd h, if_pos ⟨hb, he⟩]

/-- A `CMD` write while a fault is pending is refused and dropped. -/
theorem step_write_cmd_of_err (h : s.agenda = .write 0x0000 d :: es) (he : s.status.err = true) :
    step s = .next (s.answered es .busError) := by
  obtain ⟨-, hcmd, -⟩ := hostAccessSideEffects s es 0 d
  rw [hcmd h, if_neg (by simp [he])]

/-- A `STATUS` write to an idle core clears the bits that it names. -/
theorem step_write_status (h : s.agenda = .write 0x0004 d :: es) (hb : s.status.busy = false) :
    step s = .next { s with
      status :=
        { busy := false
          done := s.status.done && !d.getLsbD 1
          err := s.status.err && !d.getLsbD 2 }
      errcode := if d.getLsbD 2 then 0 else s.errcode
      agenda := es
      answers := .ok :: s.answers } := by
  obtain ⟨-, -, hstatus, -⟩ := hostAccessSideEffects s es 0 d
  exact hstatus h hb

end Sys2Proof.Machine
end

section
/-! The statements on faults (60_exceptions.md). -/

namespace Sys2Proof.Machine

/-- Settles O17: a command that set `ERR` took a fault, and a fault's code is in range. -/
theorem faultEntryChangesNothingElse : Obligations.FaultEntryChangesNothingElse := by
  intro i s t h hs ht
  obtain ⟨c, rfl⟩ := exec_fault_of_err h hs ht
  obtain ⟨hmin, hmax⟩ := c.code_range
  exact ⟨hmin, hmax, rfl⟩

/-- Settles O18: `STBE` and `CMP` only end well; every other command commits what it computes. -/
theorem commandEndsWellOrFaultsByTable : Obligations.CommandEndsWellOrFaultsByTable := by
  intro i s h
  by_cases hs : ∃ ra, i = .stbe ra
  · obtain ⟨ra, rfl⟩ := hs
    exact ⟨_, exec_stbe ra s, Or.inl rfl⟩
  by_cases hc : ∃ ra rb, i = .cmp ra rb
  · obtain ⟨ra, rb, rfl⟩ := hc
    exact ⟨_, exec_cmp ra rb s, Or.inl rfl⟩
  simp only [not_exists] at hs hc
  rw [exec_eq_commit i s hs hc]
  exact (computed_endsWithin_faultCodes i s h).commit s

/-- Settles O29: an accepted `CMD` write, fault entry, a refused `CMD` write and the clear, one after another. -/
theorem clearedFaultRestoresState : Obligations.ClearedFaultRestoresState := by
  intro s t u w d x es hinv hb he hagenda hst htu hu hd
  have hcode : s.errcode = 0 := by simpa [he] using hinv.errcode
  rw [step_write_cmd hagenda hb he] at hst
  injection hst with hst
  subst hst
  rw [step_cons rfl] at htu
  obtain ⟨c, hfault⟩ := engineTurn_fault_of_err htu rfl hu
  have hagenda' : u.agenda = .write 0x0000 x :: .write 0x0004 d :: es := by rw [hfault]; rfl
  have hidle : u.status.busy = false := by rw [hfault]; rfl
  refine ⟨_, _, step_write_cmd_of_err hagenda' hu, rfl, step_write_status rfl hidle, ?_⟩
  simp [hfault, hd, hcode, State.answered, afterFault, State.popped]

end Sys2Proof.Machine
end

section
/-! SUPPORT. Every event answers a next state: no meaning of a command stops the machine (rules R53, R186, R226). -/

namespace Sys2Proof.Machine

/-- Every command answers a next state, whatever its point bases: the buffer commands stay inside the buffer, and
`commit` writes or faults. -/
theorem exec_next (i : Instr) (s : State) : ∃ t, exec i s = .next t := by
  cases i with
  | stbe ra => exact ⟨_, exec_stbe ra s⟩
  | cmp ra rb => exact ⟨_, exec_cmp ra rb s⟩
  | _ => exact (commit_next s _).imp fun _ => (exec_eq_commit _ s (by simp) (by simp)).trans

/-- So does every word latched in `CMD`, command or not. -/
theorem engineStep_next (s : State) : ∃ t, engineStep s = .next t := by
  unfold engineStep
  split
  · exact exec_next _ s
  · exact ⟨_, raise_eq s _⟩
  · exact ⟨_, raise_eq s _⟩

theorem engineTurn_next (s : State) : ∃ t, engineTurn s = .next t := by
  unfold engineTurn
  split
  · exact engineStep_next s
  · exact ⟨s, rfl⟩

theorem takeEvent_next (e : Event) (s : State) : ∃ t, takeEvent e s = .next t := by
  cases e with
  | read addr => exact ⟨hostRead addr s, rfl⟩
  | write addr d => exact ⟨hostWrite addr d s, rfl⟩
  | engine => exact engineTurn_next s
  | reset => exact ⟨resetEvent s, rfl⟩

/-! ### The engine's step that ends a running command -/

/-- Command or not, the engine's step leaves `CMD`, the agenda and the answers, and is a good end or fault entry
(rules R187, R226). -/
theorem engineStep_frame {s t : State} (h : engineStep s = .next t) :
    t.cmd = s.cmd ∧ t.agenda = s.agenda ∧ t.answers = s.answers
      ∧ (EndedWell s t ∨ ∃ c, t = afterFault c s) := by
  rcases engineStep_cases h with ⟨i, hi⟩ | ⟨c, rfl⟩
  · obtain ⟨-, -, -, hcmd, hagenda, hanswers, hend⟩ := commandFrame i s t hi
    exact ⟨hcmd, hagenda, hanswers, hend.imp_left And.left⟩
  · exact ⟨rfl, rfl, rfl, Or.inr ⟨c.code, rfl⟩⟩

/-- The engine's turn while a command runs is the engine's step. -/
theorem step_engine_of_busy {s : State} (hn : EngineIsNext s) (hb : s.status.busy = true) :
    step s = engineStep s.popped :=
  (step_engine hn).trans (if_pos hb)

end Sys2Proof.Machine
end

section
/-! The statements on reset and on the order of events (70_reset_and_hazards.md). -/

namespace Sys2Proof.Machine

/-- Settles O10: the accepted write gives the running state, whose next step is the engine's step of `w`. -/
theorem commandLifecycle : Obligations.CommandLifecycle := by
  intro s w es hb he hagenda
  obtain ⟨t, ht, hst⟩ : ∃ t, t = _ ∧ step s = .next t := ⟨_, rfl, step_write_cmd hagenda hb he⟩
  have hn : EngineIsNext t := Or.inr ⟨es, ht ▸ rfl⟩
  have hbusy : t.status.busy = true := ht ▸ rfl
  obtain ⟨u, hu⟩ := engineStep_next t.popped
  have htu : step t = .next u := (step_engine_of_busy hn hbusy).trans hu
  obtain ⟨hcmd, hag, hanswers, hend⟩ := engineStep_frame hu
  refine ⟨t, u, hst, htu, ht, fun i hi => ?_, ?_, ?_, hanswers, ?_⟩
  · exact ((stepRunsDecodedInstruction t hn).1 i hbusy (ht ▸ hi)).symm.trans htu
  · exact hcmd.trans (ht ▸ rfl)
  · exact hag.trans (ht ▸ rfl)
  · subst ht
    rcases hend with hgood | ⟨c, rfl⟩
    · exact Or.inl hgood
    · exact Or.inr ⟨rfl, rfl, rfl, rfl, rfl⟩

/-- Settles O11: a step takes one event, and every event answers a next state. -/
theorem everyStepAnswersANextState : Obligations.EveryStepAnswersANextState := by
  intro s
  obtain ⟨e, he⟩ := step_cases s
  exact he ▸ takeEvent_next e s.popped

/-- Settles O13: the reset event takes every field from `State.reset` but the agenda and the answers. -/
theorem resetEventFromAnyState : Obligations.ResetEventFromAnyState := by
  intro s es h
  refine ⟨resetEvent s.popped, step_cons h, ⟨rfl, rfl, rfl, rfl, rfl, rfl, rfl⟩, ?_⟩
  exact congrArg List.tail h

end Sys2Proof.Machine
end
